-- ==== Sys2Proof/Word.lean ====
section
/-! DEFINITION. The word types of the engine (00_scope.md R7, R8, R10) and their plainest readings. -/

namespace Sys2Proof

/-- A byte on the sensor bus, or a sensor register address (20_memory.md R51, R52). -/
abbrev Byte := BitVec 8

/-- A 16-bit calibration pattern (10_state.md R21). -/
abbrev Half := BitVec 16

/-- A host command word (30_encoding.md R70). -/
abbrev Word := BitVec 32

/-- A signed 32-bit register, as its two's-complement pattern (00_scope.md R8). -/
abbrev S32 := BitVec 32

/-- A binary64 value, as its IEEE 754 bit pattern (00_scope.md R10). -/
abbrev F64 := BitVec 64

end Sys2Proof
end

