-- ==== Sys2Proof/Syntax.lean ====
section
/-! DEFINITION. The rows of spec/opcode_table.json: the twelve host commands (30_encoding.md R72) and the three sensor command
bytes (30_encoding.md R79); and the assembler's lines (30_encoding.md R77). -/

namespace Sys2Proof

/-- One constructor per row of spec/opcode_table.json, its operands at the widths of R73 and R80. -/
inductive Instr where
  /-- INIT, R100. -/
  | init
  /-- GET_ID, R105. -/
  | getId
  /-- HAS_VALID_ID, R106. -/
  | hasValidId
  /-- RESET, R107. -/
  | reset
  /-- MEASURE_T, R201. -/
  | measureT
  /-- MEASURE_P oss, R202. -/
  | measureP (oss : BitVec 2)
  /-- COMP_T raw, R132. -/
  | compT (raw : BitVec 16)
  /-- COMP_P raw, oss, R138. -/
  | compP (oss : BitVec 2) (raw : BitVec 19)
  /-- SET_OSS oss, R200. -/
  | setOss (oss : BitVec 2)
  /-- GET_DATA, R204. -/
  | getData
  /-- GET_ALT, R230. -/
  | getAlt
  /-- CAPTURE_REF, R231. -/
  | captureRef
  /-- TRIG_T, the sensor command byte 0x2E, R79. -/
  | trigT
  /-- TRIG_P, the sensor command byte 0x34 | oss << 6, R79. -/
  | trigP (oss : BitVec 2)
  /-- SOFT_RESET, the sensor command byte 0xB6, R79. -/
  | softReset
deriving DecidableEq, Repr, Inhabited

/-- The twelve mnemonics of the assembler (R77). -/
inductive Mnemonic where
  | init | getId | hasValidId | reset | measureT | measureP | compT | compP | setOss | getData | getAlt | captureRef
deriving DecidableEq, Repr, Inhabited

/-- One line of assembler (R77): the mnemonic and its named operands, as the unbounded numbers the line gives. -/
structure AsmLine where
  mnemonic : Mnemonic
  oss      : Option Nat := none
  raw      : Option Nat := none
deriving DecidableEq, Repr, Inhabited

end Sys2Proof
end

