-- ==== Sys2Proof/WellFormed.lean ====
section
/-! DEFINITION. Which assembler lines are well formed (30_encoding.md R77), and the operand bounds of an instruction
(30_encoding.md R73, R80). -/

namespace Sys2Proof

/-- An operand the mnemonic does not name must be left out. -/
def operandAbsent (v : Option Nat) : Bool := v.isNone

/-- An operand the mnemonic names must be given and lie in 0 .. bound - 1. -/
def operandBelow (bound : Nat) (v : Option Nat) : Bool :=
  match v with
  | none => false
  | some n => decide (n < bound)

/-- R77: the operands each mnemonic takes and their ranges. "It refuses an operand outside its range". -/
def AsmLine.wellFormed (l : AsmLine) : Bool :=
  match l.mnemonic with
  | .measureP => operandBelow 4 l.oss && operandAbsent l.raw
  | .setOss   => operandBelow 4 l.oss && operandAbsent l.raw
  | .compT    => operandAbsent l.oss && operandBelow 65536 l.raw
  | .compP    => operandBelow 4 l.oss && operandBelow 524288 l.raw
  | .init | .getId | .hasValidId | .reset | .measureT | .getData | .getAlt | .captureRef =>
    operandAbsent l.oss && operandAbsent l.raw

/-- An instruction's operands lie in the fields the table gives them (R73, R80). The operands' types hold the bounds, so
every term of `Instr` meets it (`Laws.wellFormed_every` in Laws/Encode.lean). -/
def Instr.wellFormed (i : Instr) : Bool :=
  match i with
  | .measureP oss | .setOss oss | .trigP oss => decide (oss.toNat < 4)
  | .compT raw => decide (raw.toNat < 65536)
  | .compP oss raw => decide (oss.toNat < 4) && decide (raw.toNat < 524288)
  | .init | .getId | .hasValidId | .reset | .measureT | .getData | .getAlt | .captureRef | .trigT | .softReset => true

end Sys2Proof
end

