-- ==== Sys2Proof/Decode.lean ====
section
/-! DEFINITION. The decoder of host command words (30_encoding.md R72 to R76, R83) and of sensor command bytes (R79, R80), then
the encoders, the assembler (R77) and the host's table numbering. -/

namespace Sys2Proof

/-! ## Fields of a command word (R71, R73) -/

/-- `oss = zext(cmd[25:24])`. -/
def ossField (cmd : Word) : BitVec 2 := cmd.extractLsb' 24 2

/-- `rawT = zext(cmd[15:0])`. -/
def rawTField (cmd : Word) : BitVec 16 := cmd.extractLsb' 0 16

/-- `rawP = zext(cmd[18:0])`. -/
def rawPField (cmd : Word) : BitVec 19 := cmd.extractLsb' 0 19

/-! ## The opcode map (R72) -/

/-- One row of R72 with a mnemonic: the bits that must match, the mask, and the instruction its operand fields give. -/
structure CmdRow where
  pattern : Word
  mask    : Word
  build   : Word → Instr

/-- R72, row by row. -/
def cmdRows : List CmdRow :=
  [ { pattern := 0x10000000, mask := 0xFFFFFFFF, build := fun _ => .init },
    { pattern := 0x20000000, mask := 0xFFFFFFFF, build := fun _ => .getId },
    { pattern := 0x30000000, mask := 0xFFFFFFFF, build := fun _ => .hasValidId },
    { pattern := 0x40000000, mask := 0xFFFFFFFF, build := fun _ => .reset },
    { pattern := 0x50000000, mask := 0xFFFFFFFF, build := fun _ => .measureT },
    { pattern := 0x60000000, mask := 0xFCFFFFFF, build := fun cmd => .measureP (ossField cmd) },
    { pattern := 0x70000000, mask := 0xFFFF0000, build := fun cmd => .compT (rawTField cmd) },
    { pattern := 0x80000000, mask := 0xFCF80000, build := fun cmd => .compP (ossField cmd) (rawPField cmd) },
    { pattern := 0x90000000, mask := 0xFCFFFFFF, build := fun cmd => .setOss (ossField cmd) },
    { pattern := 0xA0000000, mask := 0xFFFFFFFF, build := fun _ => .getData },
    { pattern := 0xB0000000, mask := 0xFFFFFFFF, build := fun _ => .getAlt },
    { pattern := 0xC0000000, mask := 0xFFFFFFFF, build := fun _ => .captureRef } ]

/-- R72: "A word selects an operation when `(cmd AND mask) = match`". -/
def CmdRow.selects (r : CmdRow) (cmd : Word) : Bool := (cmd &&& r.mask) == r.pattern

/-- What the decoder answers for a word or byte that is no instruction. -/
inductive DecodeError where
  /-- R74, R75, R83: the word matches no row. The engine answers IllegalCommand with the whole word. -/
  | illegalCommand (cmd : Word)
  /-- R79, R80: the byte is none of the sensor's command bytes. -/
  | unknownSensorByte (b : Byte)
deriving DecidableEq, Repr, Inhabited

/-- The row search of R83. -/
def decodeIn (rows : List CmdRow) (cmd : Word) : Except DecodeError Instr :=
  match rows with
  | [] => .error (.illegalCommand cmd)
  | r :: rest => if r.selects cmd then .ok (r.build cmd) else decodeIn rest cmd

/-- R83: total on every 32-bit word; reads no engine state. -/
def decode (cmd : Word) : Except DecodeError Instr := decodeIn cmdRows cmd

/-- R79, R80: the three sensor command bytes; bits 7:6 of a TRIG_P byte are the oversampling level, bits 5:0 are 11 0100. -/
def decodeSensor (b : Byte) : Except DecodeError Instr :=
  if b == 0x2E then .ok .trigT
  else if (b &&& 0x3F) == 0x34 then .ok (.trigP (b.extractLsb' 6 2))
  else if b == 0xB6 then .ok .softReset
  else .error (.unknownSensorByte b)

/-! ## Encoders -/

/-- R77: `OP << 28 | oss << 24 | raw`. -/
def cmdWord (op : BitVec 4) (oss : BitVec 2) (raw : BitVec 19) : Word :=
  (op.setWidth 32 <<< 28) ||| (oss.setWidth 32 <<< 24) ||| raw.setWidth 32

/-- R79: `0x34 | (oversampling << 6)`. -/
def trigPByte (oss : BitVec 2) : Byte := 0x34#8 ||| (oss.setWidth 8 <<< 6)

/-- The bits of an instruction: a 32-bit word for the host port, or a byte for the sensor. -/
inductive Encoded where
  | cmd (w : Word)
  | sensor (b : Byte)
deriving DecidableEq, Repr, Inhabited

/-- The encoder, from R72, R77 and R79. -/
def encode (i : Instr) : Encoded :=
  match i with
  | .init         => .cmd (cmdWord 0x1 0 0)
  | .getId        => .cmd (cmdWord 0x2 0 0)
  | .hasValidId   => .cmd (cmdWord 0x3 0 0)
  | .reset        => .cmd (cmdWord 0x4 0 0)
  | .measureT     => .cmd (cmdWord 0x5 0 0)
  | .measureP oss => .cmd (cmdWord 0x6 oss 0)
  | .compT raw    => .cmd (cmdWord 0x7 0 (raw.setWidth 19))
  | .compP oss raw => .cmd (cmdWord 0x8 oss raw)
  | .setOss oss   => .cmd (cmdWord 0x9 oss 0)
  | .getData      => .cmd (cmdWord 0xA 0 0)
  | .getAlt       => .cmd (cmdWord 0xB 0 0)
  | .captureRef   => .cmd (cmdWord 0xC 0 0)
  | .trigT        => .sensor 0x2E
  | .trigP oss    => .sensor (trigPByte oss)
  | .softReset    => .sensor 0xB6

/-- The decoder that goes with each kind of bits. -/
def decodeEncoded (e : Encoded) : Except DecodeError Instr :=
  match e with
  | .cmd w => decode w
  | .sensor b => decodeSensor b

/-! ## The assembler (R77) -/

/-- A named operand's value, for a line that `AsmLine.wellFormed` has accepted. -/
def operandOr0 (v : Option Nat) : Nat := v.getD 0

/-- The opcode of a mnemonic (R72). -/
def Mnemonic.opcode (m : Mnemonic) : BitVec 4 :=
  match m with
  | .init => 0x1
  | .getId => 0x2
  | .hasValidId => 0x3
  | .reset => 0x4
  | .measureT => 0x5
  | .measureP => 0x6
  | .compT => 0x7
  | .compP => 0x8
  | .setOss => 0x9
  | .getData => 0xA
  | .getAlt => 0xB
  | .captureRef => 0xC

/-- R77: "encodes a line as `OP << 28 | oss << 24 | raw`" and refuses an operand outside its range. -/
def assemble (l : AsmLine) : Option Word :=
  if l.wellFormed then
    some (cmdWord l.mnemonic.opcode (BitVec.ofNat 2 (operandOr0 l.oss)) (BitVec.ofNat 19 (operandOr0 l.raw)))
  else none

/-! ## The host's table numbering -/

/-- Whether a table row of `nbits` bits is a sensor command byte (DEVCMD8) rather than a command word (CMD32). -/
def isSensorRow (nbits : Nat) : Bool := decide (nbits ≤ 8)

/-- The instruction the decoder reads from an instruction whose bits are `w`, numbered as spec/opcode_table.json numbers them
(bit 0 the least significant). An 8-bit row is a sensor command byte; every other row is one 32-bit command word. -/
def decodeTableWord (nbits w : Nat) : Option Instr :=
  match (if isSensorRow nbits then decodeSensor (BitVec.ofNat 8 w) else decode (BitVec.ofNat 32 w)) with
  | .ok i => some i
  | .error _ => none

end Sys2Proof
end

