-- ==== Sys2Proof/Machine/Binary64.lean ====
section
/-! DEFINITION. IEEE 754 binary64 arithmetic in round-to-nearest-even (00_scope.md R10, 42_fp_compensation.md R170, R175). Every
finite value is a whole number of units of 2^-1074, the least subnormal; each operation computes its result exactly as a fraction
of two natural numbers of units and rounds it once. -/

namespace Sys2Proof.Machine

/-! ## The fields of a pattern -/

/-- The sign bit. -/
def f64Sign (w : F64) : Bool := w.getLsbD 63

/-- The pattern without its sign bit. -/
def f64Mag (w : F64) : Nat := w.toNat % 2 ^ 63

/-- The magnitude pattern of infinity: exponent field all ones, fraction 0. -/
def magInf : Nat := 0x7FF0000000000000

/-- R10: "A value is *finite* if it is neither an infinity nor a NaN". -/
def f64IsFinite (w : F64) : Bool := decide (f64Mag w < magInf)

/-- A NaN: exponent field all ones and a fraction that is not 0. -/
def f64IsNaN (w : F64) : Bool := decide (magInf < f64Mag w)

/-- The magnitude of a finite pattern, in units of 2^-1074. A subnormal is its fraction; a normal value is its 53-bit
significand, shifted by its exponent field less one. -/
def magUnits (mag : Nat) : Nat :=
  if mag / 2 ^ 52 = 0 then mag
  else (2 ^ 52 + mag % 2 ^ 52) <<< (mag / 2 ^ 52 - 1)

/-- The magnitude of a value, in units of 2^-1074. -/
def f64Units (w : F64) : Nat := magUnits (f64Mag w)

/-- The signed value, in units of 2^-1074; both zeros give 0. -/
def f64Int (w : F64) : Int := if f64Sign w then -(f64Units w : Int) else (f64Units w : Int)

/-- A pattern from a sign and a magnitude. -/
def f64Make (sign : Bool) (mag : Nat) : F64 :=
  BitVec.ofNat 64 ((if sign then 2 ^ 63 else 0) + mag)

def f64Inf (sign : Bool) : F64 := f64Make sign magInf

def f64Zero (sign : Bool) : F64 := f64Make sign 0

/-- The NaN every invalid operation gives. R172: no NaN is stored or returned, so its payload is not observable. -/
def f64NaN : F64 := 0x7FF8000000000000

/-! ## Rounding -/

/-- `num / den` to the nearest whole number, ties to even. -/
def roundHalfEven (num den : Nat) : Nat :=
  let q := num / den
  let r := num % den
  if 2 * r < den then q
  else if den < 2 * r then q + 1
  else if q % 2 = 0 then q else q + 1

/-- How far the last place of a value of `n` whole units lies above the unit: 0 below 2^53 units. -/
def lastPlace (n : Nat) : Nat := Nat.log2 n - 52

/-- The magnitude pattern nearest to `num / den` units, ties to even; a result of 2^1024 or more is infinity. A significand
that rounds up to 2^53 carries into the exponent field by the addition. -/
def roundMag (num den : Nat) : Nat :=
  let k := lastPlace (num / den)
  let mag := k * 2 ^ 52 + roundHalfEven num (den <<< k)
  if mag < magInf then mag else magInf

/-- The value of sign `sign` nearest to `num / den` units. -/
def roundUnits (sign : Bool) (num den : Nat) : F64 := f64Make sign (roundMag num den)

/-- The unit is 2^-1074: the exponent of the least subnormal. -/
def unitExponent : Nat := 1074

/-- One in units. Irreducible, so that no tactic multiplies it out; `oneUnits_eq` (Power.lean) gives its value. -/
@[irreducible] def oneUnits : Nat := 2 ^ unitExponent

/-! ## The operations of R10 -/

/-- Addition of two finite values: the exact sum rounded; an exact zero is +0 unless both are -0. -/
def f64AddFinite (a b : F64) : F64 :=
  let s := f64Int a + f64Int b
  if s = 0 then f64Zero (f64Sign a && f64Sign b) else roundUnits (decide (s < 0)) s.natAbs 1

def fadd (a b : F64) : F64 :=
  if f64IsNaN a || f64IsNaN b then f64NaN
  else if f64IsFinite a then (if f64IsFinite b then f64AddFinite a b else b)
  else if f64IsFinite b then a
  else if f64Sign a = f64Sign b then a else f64NaN

/-- The value with its sign changed. -/
def fneg (a : F64) : F64 := a ^^^ 0x8000000000000000

def fsub (a b : F64) : F64 := if f64IsNaN b then f64NaN else fadd a (fneg b)

def fmul (a b : F64) : F64 :=
  let sign := f64Sign a ^^ f64Sign b
  if f64IsNaN a || f64IsNaN b then f64NaN
  else if f64IsFinite a && f64IsFinite b then roundUnits sign (f64Units a * f64Units b) oneUnits
  else if f64Units a = 0 || f64Units b = 0 then f64NaN
  else f64Inf sign

def fdiv (a b : F64) : F64 :=
  let sign := f64Sign a ^^ f64Sign b
  if f64IsNaN a || f64IsNaN b then f64NaN
  else if f64IsFinite a then
    (if f64IsFinite b then
      (if f64Units b = 0 then (if f64Units a = 0 then f64NaN else f64Inf sign)
       else roundUnits sign (f64Units a * oneUnits) (f64Units b))
     else f64Zero sign)
  else if f64IsFinite b then f64Inf sign
  else f64NaN

/-- R10: `f64(n)`, exact for |n| < 2^53. -/
def f64OfInt (n : Int) : F64 :=
  if n = 0 then f64Zero false else roundUnits (decide (n < 0)) (n.natAbs * oneUnits) 1

/-! ## Comparison -/

/-- A key that orders the values that are no NaN; both zeros have key 0. -/
def f64Key (w : F64) : Int := if f64Sign w then -(f64Mag w : Int) else (f64Mag w : Int)

/-- `a < b`. A NaN is less than nothing; R175: -0.0 compares equal to +0.0. -/
def flt (a b : F64) : Bool :=
  if f64IsNaN a || f64IsNaN b then false else decide (f64Key a < f64Key b)

/-- `a ≤ b`; the infinities are the greatest and the least values, and a NaN is at most nothing. -/
def fle (a b : F64) : Bool :=
  if f64IsNaN a || f64IsNaN b then false else decide (f64Key a ≤ f64Key b)

/-! ## Exact values, for stating what an operation must give -/

/-- The value of a finite pattern. -/
def f64Rat (w : F64) : Rat := (f64Int w : Rat) / oneUnits

/-- The unit in the last place of a finite value. -/
def f64Ulp (w : F64) : Rat := (2 ^ (f64Mag w / 2 ^ 52 - 1) : Nat) / oneUnits

end Sys2Proof.Machine
end

