-- ==== Sys2Proof/Machine/Power.lean ====
section
/-! DEFINITION. The parameter POW64 (00_scope.md R6, 44_derived.md R233): what every admissible power function must satisfy, and a
proof that one exists. The power function itself is a free value of Config (Config.lean): no proof can use more of it than the five
properties below. -/

namespace Sys2Proof.Machine

/-- `ALT_EXP`, "the binary64 value nearest to 0.1902949572" (R6, R232). -/
def altExponent : F64 := 0x3FC85B95CCE244A4

/-- 1.0 -/
def f64One : F64 := 0x3FF0000000000000

/-- +0.0 -/
def f64PosZero : F64 := 0

/-- -0.0 -/
def f64NegZero : F64 := 0x8000000000000000

/-- The unit in the last place of binary64 at a positive real value in the range of the normal numbers: one part in 2^52 of
the power of two at or below it. -/
noncomputable def realUlp (v : ℝ) : ℝ := 2 ^ (Int.log 2 v - 52)

/-- A total function on binary64 with the five properties "which every admissible `POW64` must have for `y = ALT_EXP`"
(R233). -/
structure PowerFn where
  fn : F64 → F64 → F64
  /-- Property 1. -/
  one : fn f64One altExponent = f64One
  /-- Property 2, both zeros. -/
  zero : fn f64PosZero altExponent = f64PosZero ∧ fn f64NegZero altExponent = f64PosZero
  /-- Property 3: "For finite x ≥ 0, `POW64(x, y)` is finite and ≥ 0". -/
  finite : ∀ x, f64IsFinite x = true → 0 ≤ f64Rat x →
    f64IsFinite (fn x altExponent) = true ∧ 0 ≤ f64Rat (fn x altExponent)
  /-- Property 4: "monotone non-decreasing in x for x ≥ 0", where x = +∞ is such an x: only property 3 says "finite". -/
  monotone : ∀ x z, fle f64PosZero x = true → fle x z = true → fle (fn x altExponent) (fn z altExponent) = true
  /-- Property 5: "within one unit in the last place of the real value x^y". DESIGN CHOICE (log 5): the spec does not say
  whose last place that is, the result's or the real value's; either is enough here, so every function that one reading
  admits is admitted. -/
  accurate : ∀ x, f64IsFinite x = true → 0 ≤ f64Rat x →
    let result : ℝ := (f64Rat (fn x altExponent) : ℚ)
    let real : ℝ := ((f64Rat x : ℚ) : ℝ) ^ ((f64Rat altExponent : ℚ) : ℝ)
    |result - real| ≤ ((f64Ulp (fn x altExponent) : ℚ) : ℝ) ∨ |result - real| ≤ realUlp real

/-! ## One admissible function, so that the free value is of a type that has a member

The function below rounds x^y toward zero: it is never evaluated and no statement rests on it. -/

/-- `x^(p/q)` is at least `e`, for magnitudes given in units: `e^q ≤ x^p`, cleared of the units. -/
def powerAtLeast (p q : Nat) (ux e : Nat) : Bool :=
  decide (magUnits e ^ q * oneUnits ^ p ≤ ux ^ p * oneUnits ^ q)

/-- The greatest finite magnitude pattern whose value is at most `x^(p/q)`. -/
def powerFloor (p q : Nat) (ux : Nat) : Nat :=
  Nat.findGreatest (fun e => powerAtLeast p q ux e = true) (magInf - 1)

theorem magUnits_succ (m : Nat) : magUnits (m + 1) = magUnits m + 2 ^ (m / 2 ^ 52 - 1) := by
  unfold magUnits
  rcases Nat.lt_or_ge (m % 2 ^ 52 + 1) (2 ^ 52) with h | h
  · have h1 : (m + 1) / 2 ^ 52 = m / 2 ^ 52 := by omega
    have h2 : (m + 1) % 2 ^ 52 = m % 2 ^ 52 + 1 := by omega
    rw [h1, h2]
    split
    · rename_i h0; rw [h0]; rfl
    · rw [Nat.shiftLeft_eq, Nat.shiftLeft_eq, ← Nat.add_assoc, Nat.add_mul, Nat.one_mul]
  · have h1 : (m + 1) / 2 ^ 52 = m / 2 ^ 52 + 1 := by omega
    have h2 : (m + 1) % 2 ^ 52 = 0 := by omega
    have h3 : m % 2 ^ 52 = 2 ^ 52 - 1 := by omega
    rw [h1, h2, h3]
    simp only [Nat.add_eq_zero_iff, one_ne_zero, and_false, if_false, Nat.add_sub_cancel, Nat.add_zero]
    split
    · rename_i h0; rw [h0]; simp; omega
    · rename_i h0
      obtain ⟨k, hk⟩ := Nat.exists_eq_succ_of_ne_zero h0
      rw [hk, Nat.shiftLeft_eq, Nat.shiftLeft_eq]
      simp only [Nat.succ_eq_add_one, Nat.add_sub_cancel, pow_succ]
      ring_nf

theorem magUnits_strictMono : StrictMono magUnits :=
  strictMono_nat_of_lt_succ fun m => by
    rw [magUnits_succ]; exact Nat.lt_add_of_pos_right (Nat.two_pow_pos _)

theorem magUnits_zero : magUnits 0 = 0 := rfl

theorem f64Make_false_toNat (m : Nat) (h : m < 2 ^ 63) : (f64Make false m).toNat = m := by
  simp [f64Make, BitVec.toNat_ofNat]; omega

theorem f64Mag_make_false (m : Nat) (h : m < 2 ^ 63) : f64Mag (f64Make false m) = m := by
  rw [f64Mag, f64Make_false_toNat m h]; omega

theorem f64Sign_make_false (m : Nat) (h : m < 2 ^ 63) : f64Sign (f64Make false m) = false := by
  rw [f64Sign, BitVec.getLsbD, f64Make_false_toNat m h, Nat.testBit_lt_two_pow h]

theorem oneUnits_eq : oneUnits = 2 ^ unitExponent := by unfold oneUnits; rfl

theorem oneUnits_pos : 0 < oneUnits := by rw [oneUnits_eq]; exact Nat.two_pow_pos _

theorem f64Rat_make_false (m : Nat) (h : m < 2 ^ 63) :
    f64Rat (f64Make false m) = (magUnits m : ℚ) / (oneUnits : ℚ) := by
  rw [f64Rat, f64Int, f64Sign_make_false m h, f64Units, f64Mag_make_false m h]
  simp

/-- The real comparison that `powerAtLeast` decides. -/
theorem powerAtLeast_iff (p q ux e : Nat) (hq : 0 < q) :
    powerAtLeast p q ux e = true ↔
      ((magUnits e : ℝ) / oneUnits) ≤ ((ux : ℝ) / oneUnits) ^ ((p : ℝ) / q) := by
  have hU : (0 : ℝ) < oneUnits := by exact_mod_cast oneUnits_pos
  have hq' : (0 : ℝ) < q := by exact_mod_cast hq
  have hr : (0 : ℝ) ≤ (ux : ℝ) / oneUnits := by positivity
  have hv : (0 : ℝ) ≤ (magUnits e : ℝ) / oneUnits := by positivity
  have key : (((ux : ℝ) / oneUnits) ^ ((p : ℝ) / q)) ^ q = ((ux : ℝ) / oneUnits) ^ p := by
    rw [← Real.rpow_natCast, ← Real.rpow_mul hr, div_mul_cancel₀ _ hq'.ne', Real.rpow_natCast]
  rw [← pow_le_pow_iff_left₀ hv (Real.rpow_nonneg hr _) hq.ne', key, div_pow, div_pow,
    div_le_div_iff₀ (pow_pos hU _) (pow_pos hU _), powerAtLeast, decide_eq_true_iff]
  exact_mod_cast Iff.rfl

theorem powerFloor_le (p q ux : Nat) : powerFloor p q ux ≤ magInf - 1 := Nat.findGreatest_le _

theorem powerFloor_lt (p q ux : Nat) : powerFloor p q ux < 2 ^ 63 :=
  Nat.lt_of_le_of_lt (powerFloor_le p q ux) (by decide)

theorem powerFloor_spec (p q ux : Nat) (hq : 0 < q) : powerAtLeast p q ux (powerFloor p q ux) = true :=
  Nat.findGreatest_spec (P := fun e => powerAtLeast p q ux e = true) (Nat.zero_le _) (by
    simp [powerAtLeast, magUnits_zero, Nat.zero_pow hq])

theorem powerFloor_ge (p q ux e : Nat) (he : e ≤ magInf - 1) (h : powerAtLeast p q ux e = true) :
    e ≤ powerFloor p q ux := Nat.le_findGreatest he h

theorem powerFloor_max (p q ux e : Nat) (he : e ≤ magInf - 1) (h : powerFloor p q ux < e) :
    powerAtLeast p q ux e ≠ true := fun hc => absurd (powerFloor_ge p q ux e he hc) (Nat.not_le_of_lt h)

/-- The witness at an argument of `ux` units. -/
def powerValue (p q : Nat) (x : F64) : F64 := f64Make false (powerFloor p q (f64Units x))

theorem powerFloor_zero (p q : Nat) (hp : 0 < p) (hq : 0 < q) : powerFloor p q 0 = 0 := by
  have h := powerFloor_spec p q 0 hq
  rw [powerAtLeast, decide_eq_true_iff, Nat.zero_pow hp, Nat.zero_mul, Nat.le_zero, Nat.mul_eq_zero] at h
  rcases h with h | h
  · by_contra hne
    exact absurd (Nat.pow_eq_zero.mp h).1
      (Nat.ne_of_gt (by have := magUnits_strictMono (Nat.pos_of_ne_zero hne); rwa [magUnits_zero] at this))
  · exact absurd (Nat.pow_eq_zero.mp h).1 oneUnits_pos.ne'

theorem powerFloor_one (p q m : Nat) (hq : 0 < q) (hm : m ≤ magInf - 1) (h1 : magUnits m = oneUnits) :
    powerFloor p q oneUnits = m := by
  apply Nat.le_antisymm
  · by_contra hlt
    have h := powerFloor_spec p q oneUnits hq
    have hs := magUnits_strictMono (Nat.lt_of_not_le hlt)
    rw [h1] at hs
    rw [powerAtLeast, decide_eq_true_iff, Nat.mul_comm] at h
    exact absurd (Nat.le_of_mul_le_mul_left h (Nat.pow_pos oneUnits_pos))
      (Nat.not_le_of_lt (Nat.pow_lt_pow_left hs hq.ne'))
  · apply powerFloor_ge _ _ _ _ hm
    rw [powerAtLeast, decide_eq_true_iff, h1, Nat.mul_comm]

theorem powerFloor_mono (p q ux uz : Nat) (hq : 0 < q) (h : ux ≤ uz) : powerFloor p q ux ≤ powerFloor p q uz := by
  apply powerFloor_ge _ _ _ _ (powerFloor_le p q ux)
  have hs := powerFloor_spec p q ux hq
  rw [powerAtLeast, decide_eq_true_iff] at hs ⊢
  exact Nat.le_trans hs (Nat.mul_le_mul_right _ (Nat.pow_le_pow_left h p))

theorem powerFloor_accurate (p q m : Nat) (hq : 0 < q) (hpq : p ≤ q) (hm : m ≤ magInf - 1)
    (hU : oneUnits ≤ magUnits (magInf - 1)) :
    |((magUnits (powerFloor p q (magUnits m)) : ℝ) / oneUnits) - ((magUnits m : ℝ) / oneUnits) ^ ((p : ℝ) / q)|
      ≤ (2 ^ (powerFloor p q (magUnits m) / 2 ^ 52 - 1) : Nat) / (oneUnits : ℝ) := by
  have hlo := (powerAtLeast_iff p q (magUnits m) _ hq).mp (powerFloor_spec p q (magUnits m) hq)
  have hU0 : (0 : ℝ) < oneUnits := by exact_mod_cast oneUnits_pos
  rw [abs_sub_comm, abs_of_nonneg (sub_nonneg.mpr hlo)]
  rcases Nat.lt_or_ge (powerFloor p q (magUnits m)) (magInf - 1) with h | h
  · have hhi := powerFloor_max p q (magUnits m) _ h (Nat.lt_succ_self _)
    rw [Ne, powerAtLeast_iff p q (magUnits m) _ hq, not_le, Nat.succ_eq_add_one, magUnits_succ] at hhi
    push_cast at hhi ⊢
    rw [add_div] at hhi
    linarith
  · have he : powerFloor p q (magUnits m) = magInf - 1 := Nat.le_antisymm (powerFloor_le _ _ _) h
    rw [he]
    generalize magInf - 1 = top at *
    have hmax : ((magUnits m : ℝ) / oneUnits) ≤ (magUnits top : ℝ) / oneUnits := by
      have : magUnits m ≤ magUnits top := magUnits_strictMono.monotone hm
      gcongr
    have h1 : (1 : ℝ) ≤ (magUnits top : ℝ) / oneUnits := by
      rw [le_div_iff₀ hU0, one_mul]; exact_mod_cast hU
    have hR : ((magUnits m : ℝ) / oneUnits) ^ ((p : ℝ) / q) ≤ (magUnits top : ℝ) / oneUnits := by
      have hr : (0 : ℝ) ≤ (magUnits m : ℝ) / oneUnits := by positivity
      have hy : ((p : ℝ) / q) ≤ 1 := by
        rw [div_le_one (by exact_mod_cast hq)]; exact_mod_cast hpq
      refine (Real.rpow_le_rpow hr hmax (by positivity)).trans ?_
      exact (Real.rpow_le_rpow_of_exponent_le h1 hy).trans (by rw [Real.rpow_one])
    have : (0 : ℝ) ≤ ((2 ^ (top / 2 ^ 52 - 1) : Nat) : ℝ) / (oneUnits : ℝ) := by positivity
    linarith

/-! ### The witness at ALT_EXP = 6855835563738276 / 2^55 -/

def altNum : Nat := 0x185B95CCE244A4

def altDen : Nat := 2 ^ 55

theorem altExponent_rat : f64Rat altExponent = (altNum : ℚ) / (altDen : ℚ) := by
  have hu : f64Int altExponent * altDen = altNum * oneUnits := by decide +kernel
  have hd : (altDen : ℚ) ≠ 0 := by simp [altDen]
  have hU : (oneUnits : ℚ) ≠ 0 := by exact_mod_cast oneUnits_pos.ne'
  rw [f64Rat, div_eq_div_iff hU hd]
  exact_mod_cast hu

theorem altDen_pos : 0 < altDen := by decide

theorem altNum_le : altNum ≤ altDen := by decide

/-- The witness: x^ALT_EXP rounded toward zero, for any exponent argument. -/
def powerWitness (x _y : F64) : F64 := powerValue altNum altDen x

theorem f64Mag_le_of_finite (x : F64) (h : f64IsFinite x = true) : f64Mag x ≤ magInf - 1 := by
  rw [f64IsFinite, decide_eq_true_iff] at h; omega

theorem f64IsFinite_make_false (m : Nat) (h : m ≤ magInf - 1) : f64IsFinite (f64Make false m) = true := by
  have hi : magInf < 2 ^ 63 := by decide
  have h0 : 0 < magInf := by decide
  rw [f64IsFinite, f64Mag_make_false m (by omega), decide_eq_true_iff]; omega

/-- A value that is not negative is its magnitude. -/
theorem f64Rat_eq_units (x : F64) (h : 0 ≤ f64Rat x) : f64Rat x = (f64Units x : ℚ) / oneUnits := by
  have hU : (0 : ℚ) < oneUnits := by exact_mod_cast oneUnits_pos
  rw [f64Rat] at h ⊢
  have hi : (0 : ℚ) ≤ (f64Int x : ℚ) := by
    by_contra hneg
    exact absurd h (not_le.mpr (div_neg_of_neg_of_pos (not_le.mp hneg) hU))
  congr 1
  have hi' : 0 ≤ f64Int x := by exact_mod_cast hi
  have : f64Int x = f64Units x := by
    unfold f64Int at hi' ⊢
    split at hi' <;> rename_i hs
    · simp only [hs, if_true]; omega
    · simp only [hs]; rfl
  rw [this]; rfl

theorem powerWitness_rat (x y : F64) :
    f64Rat (powerWitness x y) = (magUnits (powerFloor altNum altDen (f64Units x)) : ℚ) / oneUnits :=
  f64Rat_make_false _ (powerFloor_lt _ _ _)

theorem powerWitness_accurate (x : F64) (hx : f64IsFinite x = true) (h0 : 0 ≤ f64Rat x) :
    |((f64Rat (powerWitness x altExponent) : ℚ) : ℝ) - ((f64Rat x : ℚ) : ℝ) ^ ((f64Rat altExponent : ℚ) : ℝ)|
      ≤ ((f64Ulp (powerWitness x altExponent) : ℚ) : ℝ) := by
  have hacc := powerFloor_accurate altNum altDen (f64Mag x) altDen_pos altNum_le (f64Mag_le_of_finite x hx)
    (by decide +kernel)
  rw [powerWitness_rat, f64Rat_eq_units x h0, altExponent_rat, f64Ulp, powerWitness, powerValue,
    f64Mag_make_false _ (powerFloor_lt _ _ _)]
  push_cast
  exact_mod_cast hacc

theorem powerWitness_not_nan (x y : F64) : f64IsNaN (powerWitness x y) = false := by
  have := powerFloor_le altNum altDen (f64Units x)
  rw [f64IsNaN, powerWitness, powerValue, f64Mag_make_false _ (powerFloor_lt _ _ _), decide_eq_false_iff_not]
  omega

theorem powerWitness_key (x y : F64) : f64Key (powerWitness x y) = powerFloor altNum altDen (f64Units x) := by
  rw [f64Key, powerWitness, powerValue, f64Sign_make_false _ (powerFloor_lt _ _ _),
    f64Mag_make_false _ (powerFloor_lt _ _ _), if_neg Bool.false_ne_true]

/-- Values at or above zero are ordered as their magnitudes. -/
theorem f64Units_le_of_fle {x z : F64} (h0 : fle f64PosZero x = true) (h : fle x z = true) : f64Units x ≤ f64Units z := by
  have hk : ∀ {a b : F64}, fle a b = true → f64Key a ≤ f64Key b := fun {a b} hab => by
    unfold fle at hab; split at hab
    · cases hab
    · exact of_decide_eq_true hab
  have h1 : (0 : Int) ≤ f64Key x := hk h0
  have h2 := hk h
  refine magUnits_strictMono.monotone ?_
  unfold f64Key at h1 h2
  by_cases sx : f64Sign x = true <;> by_cases sz : f64Sign z = true <;> simp only [sx, sz, if_true] at h1 h2 <;>
    omega

/-- An admissible power function exists. -/
def admissiblePower : PowerFn where
  fn := powerWitness
  one := by
    have h : f64Units f64One = oneUnits := by decide +kernel
    have hm : magUnits (f64Mag f64One) = oneUnits := h
    rw [powerWitness, powerValue, h, powerFloor_one altNum altDen _ altDen_pos (by decide +kernel) hm]
    decide +kernel
  zero := by
    have h1 : f64Units f64PosZero = 0 := by decide +kernel
    have h2 : f64Units f64NegZero = 0 := by decide +kernel
    constructor
    · rw [powerWitness, powerValue, h1, powerFloor_zero _ _ (by decide) altDen_pos]; decide +kernel
    · rw [powerWitness, powerValue, h2, powerFloor_zero _ _ (by decide) altDen_pos]; decide +kernel
  finite := fun x _ _ => by
    refine ⟨f64IsFinite_make_false _ (powerFloor_le _ _ _), ?_⟩
    rw [powerWitness_rat]; positivity
  monotone := fun x z h0 h => by
    have hm := powerFloor_mono altNum altDen _ _ altDen_pos (f64Units_le_of_fle h0 h)
    rw [fle, powerWitness_not_nan, powerWitness_not_nan, powerWitness_key, powerWitness_key, Bool.or_self,
      if_neg Bool.false_ne_true, decide_eq_true_iff]
    exact Int.ofNat_le.mpr hm
  accurate := fun x hx h0 => .inl (powerWitness_accurate x hx h0)

end Sys2Proof.Machine
end

