-- ==== Sys2Proof/Config.lean ====
section
/-! DEFINITION. The parameters of an engine instance (00_scope.md R6), the constants of this hardware, and the free values. -/

namespace Sys2Proof

/-- R3, R6: the active compensation variant, "fixed when the engine is built". -/
inductive Variant where
  | int
  | fp
deriving DecidableEq, Repr, Inhabited

/-- The parameters of R6 that differ from one engine instance to another. -/
structure Params where
  variant : Variant
  /-- `DEV_ADDR`, a 7-bit bus address (R6, R50). -/
  devAddr : BitVec 7
deriving DecidableEq, Repr, Inhabited

/-- One answer of the bus oracle (20_memory.md R58): the transaction fails, or it completes. A completed n-byte read takes
the first n of the three bytes; a completed write takes none. -/
inductive BusAnswer where
  | fail
  | done (b0 b1 b2 : Byte)
deriving DecidableEq, Repr, Inhabited

namespace Config

/-- `CHIP_ID_EXPECTED` (R6, 40_calibration.md R102). -/
def chipIdExpected : Byte := 0x55

/-- `OSS_RESET` (R6, 92_eei_decisions.md D17). -/
def ossReset : BitVec 2 := 0

/-- `T_SETTLE_MS` (R6, 43_sequencer.md R203). -/
def tSettleMs : Nat := 5

/-- `P_SETTLE_MS[oss]` (R6, 43_sequencer.md R203). -/
def pSettleMs (oss : BitVec 2) : Nat :=
  if oss = 0 then 5 else if oss = 1 then 8 else if oss = 2 then 14 else 26

/-- `ALT_SCALE` = 44330.0 (R6). -/
def altScale : F64 := 0x40E5A54000000000

/-- `ALT_EXP`, the binary64 nearest 0.1902949572 (R6). -/
def altExp : F64 := Machine.altExponent

/-- The spec's default for `DEV_ADDR`, [from general knowledge, not in source] (R6, D22). PRESUMED, log 2. -/
def devAddrDefault : BitVec 7 := 0x77

/-- FREE VALUE (log 3): the bus oracle's answer number `n` when the environment has listed none (R58: "any bytes", "Any
transaction may fail"). -/
opaque busOracle : Nat → BusAnswer

/-- FREE VALUE (log 5): `POW64` (R6, R233), any function with the five properties of R233. The argument in brackets only says
that the type has a member; nothing can evaluate the function. -/
opaque pow64Of [Inhabited Machine.PowerFn] : Machine.PowerFn

/-- `POW64` with its properties (R233). -/
def powerFn : Machine.PowerFn := @pow64Of ⟨Machine.admissiblePower⟩

/-- `POW64(x, y)` (R233). -/
def pow64 (x y : F64) : F64 := powerFn.fn x y

end Config

end Sys2Proof
end

