-- ==== Sys2Proof/Machine/State.lean ====
section
/-! DEFINITION. The engine's state as plain data (10_state.md R20 to R40), the exceptions and responses (60_exceptions.md), the
ports, and the state after reset. -/

namespace Sys2Proof.Machine

/-! ## Register types -/

/-- `CAL[0..10]`: eleven 16-bit patterns, in the order of R21. -/
structure Cal where
  ac1 : Half
  ac2 : Half
  ac3 : Half
  ac4 : Half
  ac5 : Half
  ac6 : Half
  b1  : Half
  b2  : Half
  mb  : Half
  mc  : Half
  md  : Half
deriving DecidableEq, Repr, Inhabited

/-- `DC`: the sixteen derived coefficients (R24). -/
structure Coeffs where
  c3 : F64
  c4 : F64
  b1 : F64
  c5 : F64
  c6 : F64
  mc : F64
  md : F64
  x0 : F64
  x1 : F64
  x2 : F64
  y0 : F64
  y1 : F64
  y2 : F64
  p0 : F64
  p1 : F64
  p2 : F64
deriving DecidableEq, Repr, Inhabited

/-- `SEQ` (R27). "Encoding 3 is never held": there is no such value (93 U13). -/
inductive Seq where
  | awaitingTemperature
  | awaitingPressure
  | ready
deriving DecidableEq, Repr, Inhabited

/-- `INIT_STATE` (R29). -/
inductive InitState where
  | uninit
  | ready
  | identityFailed
deriving DecidableEq, Repr, Inhabited

/-- A temperature or a pressure: s32 in the INT variant, binary64 in the FP variant (R31, R78). -/
inductive Quantity where
  | int (v : S32)
  | fp (v : F64)
deriving DecidableEq, Repr, Inhabited

/-- The engine registers of R20. An Option is the register's own "absent" (R39, R40: "represent each as absent, as an
option with no value"). -/
structure Engine where
  cal       : Option Cal
  dc        : Option Coeffs
  b5        : Option S32
  tc        : Option F64
  seq       : Seq
  initState : InitState
  oss       : BitVec 2
  tPub      : Option Quantity
  pPub      : Option Quantity
  pubValid  : Bool
  refP      : Option Quantity
  refValid  : Bool
deriving DecidableEq, Repr, Inhabited

/-! ## Exceptions and responses -/

/-- The arithmetic checkpoints (60_exceptions.md R270), named as there with the dot left out. -/
inductive Stage where
  | tD | tM | tNum | tDen | tX2 | tB5 | tR
  | pB6 | pB6sq
  | pX1a | pX2a | pX3a | pB3a | pB3b | pB3c | pB3d
  | pX1b | pX2b | pX3b | pX3c | pB4a | pB4b
  | pB7a | pB7b | pPa | pPdiv | pPb | pP
  | pX1c | pX1d | pX2c | pFa | pFb | pFc
  | ftQ | ftT
  | fpX | fpY | fpZ | fpP
  | altRef | altRatio | altRes
deriving DecidableEq, Repr, Inhabited

/-- The direction of a bus transaction (R251: 0 for a read, 1 for a write). -/
inductive Direction where
  | read
  | write
deriving DecidableEq, Repr, Inhabited

/-- The exceptions of R251 with their info. -/
inductive Exc where
  /-- R252. -/
  | busError (dir : Direction) (reg : Byte)
  /-- R253: the byte INIT read, or none for a refusal. -/
  | identityMismatch (id : Option Byte)
  /-- R255. -/
  | noReferencePressure
  /-- R256. -/
  | computationOverflow (stage : Stage)
  /-- R257. -/
  | divideByZero (stage : Stage)
  /-- R258. -/
  | sequenceViolation
  /-- R259. -/
  | notInitialized
  /-- R260. -/
  | illegalCommand (cmd : Word)
  /-- R261. -/
  | numericDomain (stage : Stage)
deriving DecidableEq, Repr, Inhabited

/-- R251: "A model's status type has exactly these ten values". -/
inductive Status where
  | ok
  | busError
  | identityMismatch
  | noReferencePressure
  | computationOverflow
  | divideByZero
  | sequenceViolation
  | notInitialized
  | illegalCommand
  | numericDomain
deriving DecidableEq, Repr, Inhabited

/-- A value of a response, at the type R78 and R251 give it. -/
inductive Value where
  /-- An identity byte (GET_ID; IdentityMismatch of INIT). -/
  | byte (v : Byte)
  /-- HAS_VALID_ID. -/
  | bit (v : BitVec 1)
  /-- UT. -/
  | u16 (v : BitVec 16)
  /-- UP. -/
  | u19 (v : BitVec 19)
  /-- T or P, INT. -/
  | s32 (v : S32)
  /-- T or P, FP; the altitude. -/
  | f64 (v : F64)
  /-- BusError's info, `dir × 256 + reg`. -/
  | busInfo (v : BitVec 16)
  /-- A stage code, 8 bits. -/
  | stageCode (v : BitVec 8)
  /-- IllegalCommand's info, the command word. -/
  | word (v : Word)
deriving DecidableEq, Repr, Inhabited

/-- R78: `(status, v0, v1)`. -/
structure Response where
  status : Status
  v0     : Option Value
  v1     : Option Value
deriving DecidableEq, Repr, Inhabited

/-! ## The ports -/

/-- One event of the bus trace (43_sequencer.md R203, 70_reset_and_hazards.md R287). -/
inductive BusEvent where
  /-- `BusWrite(reg, byte)` to device `dev`; whether it completed. -/
  | write (dev : BitVec 7) (reg byte : Byte) (completed : Bool)
  /-- `BusRead(reg, n)` from device `dev`; its n bytes, or none where it did not complete. -/
  | read (dev : BitVec 7) (reg : Byte) (n : Nat) (bytes : Option (List Byte))
  /-- `Delay(ms)`. -/
  | delay (ms : Nat)
deriving DecidableEq, Repr, Inhabited

/-- The conversion a command byte starts (20_memory.md R57). -/
inductive Conversion where
  | temperature
  | pressure (oss : BitVec 2)
deriving DecidableEq, Repr, Inhabited

/-- The bus port and what lies beyond it. -/
structure Bus where
  /-- The oracle's answers that the environment has listed, next one first (R58). -/
  answers : List BusAnswer
  /-- The model's own counter: the number of the next free answer, `Config.busOracle` (log 3). -/
  freeIdx : Nat
  /-- Bus events and delays so far, oldest first. -/
  trace   : List BusEvent
  /-- A command byte on the bus that the sensor has not taken (log 4). -/
  pending : Option Byte
  /-- The conversion that the last completed command byte started in the sensor (R57, log 4). -/
  conv    : Option Conversion
deriving DecidableEq, Repr, Inhabited

/-- The host port (30_encoding.md R70, R78). -/
structure Port where
  /-- Command words the host has yet to be served, next one first (70_reset_and_hazards.md R288). -/
  cmds      : List Word
  /-- Responses so far, oldest first. -/
  responses : List Response
deriving DecidableEq, Repr, Inhabited

/-! ## The machine -/

/-- The whole machine: the instance's parameters (never written), the engine registers, and the two ports. -/
structure State where
  cfg  : Params
  eng  : Engine
  bus  : Bus
  port : Port
deriving DecidableEq, Repr, Inhabited

/-- The registers R40 allows to be absent. -/
inductive Reg where
  | cal | dc | b5 | tc | tPub | pPub | refP
deriving DecidableEq, Repr, Inhabited

/-- Why the machine stops. -/
inductive Fault where
  /-- The guard of a register said that it holds a value, and it is absent. R40: "A read of an absent value is then a model
  fault. No rule reads one"; "If a model breaks that guard, it faults instead of inventing a number". Never for want of a
  write since reset: there the guard refuses first, with an exception of R251. Raised by COMP_T, COMP_P, GET_DATA, CAPTURE_REF
  and GET_ALT, only in states that break R38, which no run from reset reaches. Safe. -/
  | absentRead (r : Reg)
deriving DecidableEq, Repr, Inhabited

/-- Why a step has no meaning. -/
inductive Refusal where
  /-- Raised by an arm of `exec` whose instruction has no meaning yet; no arm is left in that case. Safe. -/
  | notModelled (mnemonic : String)
  /-- Raised by `step` when a byte on the bus is none of the sensor's command bytes: "the engine writes no other byte"
  (R80), and the spec does not say what the sensor does with one. Safe. -/
  | unknownSensorByte (b : Byte)
deriving DecidableEq, Repr, Inhabited

/-! ## Reset -/

/-- R39, R280: every engine register after engine reset. -/
def Engine.reset : Engine where
  cal := none
  dc := none
  b5 := none
  tc := none
  seq := .awaitingTemperature
  initState := .uninit
  oss := Config.ossReset
  tPub := none
  pPub := none
  pubValid := false
  refP := none
  refValid := false

/-- R280: "issues no bus transaction". The counter's 0 and the empty list of answers are the model's (log 3). -/
def Bus.reset : Bus where
  answers := []
  freeIdx := 0
  trace := []
  pending := none
  conv := none

/-- R280: "the engine waits for its first command". -/
def Port.reset : Port where
  cmds := []
  responses := []

/-- The state right after engine reset of an instance with the given parameters (R280; R6: "the model takes it as an
argument"). -/
def State.resetWith (p : Params) : State where
  cfg := p
  eng := Engine.reset
  bus := Bus.reset
  port := Port.reset

/-- The state right after engine reset, for an INT engine at the spec's default address (log 2). -/
def State.reset : State := State.resetWith { variant := .int, devAddr := Config.devAddrDefault }

end Sys2Proof.Machine
end

