-- ==== Sys2Proof/Machine/Ops.lean ====
section
/-! DEFINITION. The named operations of the engine: the bus primitives (00_scope.md R11), responses and exceptions
(30_encoding.md R78, 60_exceptions.md R250 to R254), session writes, and the threading of one operation's steps. -/

namespace Sys2Proof.Machine

/-! ## Codes (R251, R270) -/

/-- R251: the code of a status. -/
def statusCode (st : Status) : BitVec 8 :=
  match st with
  | .ok => 0
  | .busError => 1
  | .identityMismatch => 2
  | .noReferencePressure => 3
  | .computationOverflow => 4
  | .divideByZero => 5
  | .sequenceViolation => 6
  | .notInitialized => 7
  | .illegalCommand => 8
  | .numericDomain => 9

/-- R270: the code of a stage. -/
def stageCode (st : Stage) : BitVec 8 :=
  match st with
  | .tD => 0x01
  | .tM => 0x02
  | .tNum => 0x03
  | .tDen => 0x04
  | .tX2 => 0x05
  | .tB5 => 0x06
  | .tR => 0x07
  | .pB6 => 0x10
  | .pB6sq => 0x11
  | .pX1a => 0x12
  | .pX2a => 0x13
  | .pX3a => 0x14
  | .pB3a => 0x15
  | .pB3b => 0x16
  | .pB3c => 0x17
  | .pB3d => 0x18
  | .pX1b => 0x19
  | .pX2b => 0x1A
  | .pX3b => 0x1B
  | .pX3c => 0x1C
  | .pB4a => 0x1D
  | .pB4b => 0x1E
  | .pB7a => 0x1F
  | .pB7b => 0x20
  | .pPa => 0x21
  | .pPdiv => 0x22
  | .pPb => 0x23
  | .pP => 0x24
  | .pX1c => 0x25
  | .pX1d => 0x26
  | .pX2c => 0x27
  | .pFa => 0x28
  | .pFb => 0x29
  | .pFc => 0x2A
  | .ftQ => 0x40
  | .ftT => 0x41
  | .fpX => 0x48
  | .fpY => 0x49
  | .fpZ => 0x4A
  | .fpP => 0x4B
  | .altRef => 0x60
  | .altRatio => 0x61
  | .altRes => 0x62

/-- R27, R29: the encodings of SEQ and INIT_STATE. -/
def seqCode (q : Seq) : BitVec 2 :=
  match q with
  | .awaitingTemperature => 0
  | .awaitingPressure => 1
  | .ready => 2

def initStateCode (q : InitState) : BitVec 2 :=
  match q with
  | .uninit => 0
  | .ready => 1
  | .identityFailed => 2

/-! ## Responses and exceptions -/

/-- Puts a response on the host port (R78). -/
def pushResponse (r : Response) (s : State) : State :=
  { s with port := { s.port with responses := s.port.responses ++ [r] } }

/-- `respond(OK, v0, v1)` (R12, R78). -/
def respond (v0 v1 : Option Value) (s : State) : State := pushResponse { status := .ok, v0 := v0, v1 := v1 } s

/-- The status an exception gives (R251). -/
def excStatus (e : Exc) : Status :=
  match e with
  | .busError _ _ => .busError
  | .identityMismatch _ => .identityMismatch
  | .noReferencePressure => .noReferencePressure
  | .computationOverflow _ => .computationOverflow
  | .divideByZero _ => .divideByZero
  | .sequenceViolation => .sequenceViolation
  | .notInitialized => .notInitialized
  | .illegalCommand _ => .illegalCommand
  | .numericDomain _ => .numericDomain

/-- R251: `dir × 256 + reg`, `dir` = 0 for a read and 1 for a write. -/
def busInfo (dir : Direction) (reg : Byte) : BitVec 16 :=
  match dir with
  | .read => reg.setWidth 16
  | .write => 256#16 + reg.setWidth 16

/-- The info an exception carries, `v0` of its response (R251). -/
def excInfo (e : Exc) : Option Value :=
  match e with
  | .busError dir reg => some (.busInfo (busInfo dir reg))
  | .identityMismatch (some id) => some (.byte id)
  | .identityMismatch none => none
  | .noReferencePressure => none
  | .computationOverflow st => some (.stageCode (stageCode st))
  | .divideByZero st => some (.stageCode (stageCode st))
  | .sequenceViolation => none
  | .notInitialized => none
  | .illegalCommand cmd => some (.word cmd)
  | .numericDomain st => some (.stageCode (stageCode st))

/-- TAKING AN EXCEPTION: a raise "puts the response `(code(E), info, none)` on the host port", and nothing else happens
(R250). There is no return from one (R265). -/
def raiseExc (e : Exc) (s : State) : State :=
  pushResponse { status := excStatus e, v0 := excInfo e, v1 := none } s

/-! ## The steps of one operation

A transaction sequence gives a result or an exception, with the state it leaves; a compensation may besides stop on an
absent register (R40). -/

/-- What a sequence of bus transactions gives. -/
abbrev Tx (α : Type) := Except Exc α × State

/-- What an operation's steps give. -/
abbrev Run (α : Type) := Host.Outcome (Tx α) Fault Refusal

/-- R12: "The first check that fails raises, and no later step runs". -/
def txBind {α β : Type} (x : Tx α) (f : α → State → Tx β) : Tx β :=
  match x with
  | (.ok a, s) => f a s
  | (.error e, s) => (.error e, s)

def runBind {α β : Type} (x : Run α) (f : α → State → Run β) : Run β :=
  match x with
  | .next (.ok a, s) => f a s
  | .next (.error e, s) => .next (.error e, s)
  | .fault r => .fault r
  | .refused r => .refused r

/-- A read of an engine register for the steps `k`. R40: "A read of an absent value is then a model fault" (log 1). -/
def withReg {α β : Type} (r : Reg) (held : Option α) (k : α → Host.Outcome β Fault Refusal) :
    Host.Outcome β Fault Refusal :=
  match held with
  | none => .fault (.absentRead r)
  | some v => k v

/-- The two values of a response. -/
abbrev Values := Option Value × Option Value

/-- The end of an operation (R250): its response, or its exception. R254: on a raise every engine register is as it was when
the operation began (`s0`), but for the operation's abort writes. Bus and sensor stay as the steps left them. -/
def conclude (abort : Exc → Engine → Engine) (s0 : State) (x : Tx Values) : State :=
  match x with
  | (.ok v, s1) => respond v.1 v.2 s1
  | (.error e, s1) => raiseExc e { s1 with eng := abort e s0.eng }

/-- `conclude` of an operation whose steps may stop on an absent register. -/
def concludeRun (abort : Exc → Engine → Engine) (s0 : State) (x : Run Values) : Host.Outcome State Fault Refusal :=
  match x with
  | .next tx => .next (conclude abort s0 tx)
  | .fault r => .fault r
  | .refused r => .refused r

/-! ## Abort writes and session writes (R254) -/

/-- Operations with no abort writes. -/
def abortNothing (_ : Exc) (g : Engine) : Engine := g

/-- COMP_T, COMP_P, GET_DATA, CAPTURE_REF: `SEQ <- AwaitingTemperature`. -/
def abortSeq (_ : Exc) (g : Engine) : Engine := { g with seq := .awaitingTemperature }

/-- INIT's step 1 (R100). -/
def beginSession (g : Engine) : Engine :=
  { g with initState := .uninit, seq := .awaitingTemperature, pubValid := false, refValid := false }

/-- INIT: step 1, and `INIT_STATE <- IdentityFailed` if the raise is IdentityMismatch. -/
def abortInit (e : Exc) (g : Engine) : Engine :=
  match e with
  | .identityMismatch _ => { beginSession g with initState := .identityFailed }
  | _ => beginSession g

/-- RESET's writes (R107): INIT_STATE unless it is IdentityFailed, SEQ, PUB_VALID, REF_VALID. -/
def endSession (g : Engine) : Engine :=
  { g with
    initState := if g.initState = .identityFailed then .identityFailed else .uninit
    seq := .awaitingTemperature
    pubValid := false
    refValid := false }

/-- RESET: "All of the above" (R107). -/
def abortReset (_ : Exc) (g : Engine) : Engine := endSession g

/-! ## The sensor's side of the bus (20_memory.md R57) -/

/-- The sensor commands of R79. -/
inductive SensorCmd where
  | start (c : Conversion)
  | softReset
deriving DecidableEq, Repr, Inhabited

/-- The register a sensor command is written to (R79). -/
def sensorReg (c : SensorCmd) : Byte :=
  match c with
  | .start _ => 0xF4
  | .softReset => 0xE0

/-- The byte of a sensor command (R79). -/
def sensorByte (c : SensorCmd) : Byte :=
  match c with
  | .start .temperature => 0x2E
  | .start (.pressure oss) => trigPByte oss
  | .softReset => 0xB6

/-- R57: a command byte "starts a conversion of the kind the byte names"; 0xB6 "resets the sensor". -/
def sensorTake (c : SensorCmd) (s : State) : State :=
  match c with
  | .start k => { s with bus := { s.bus with conv := some k } }
  | .softReset => { s with bus := { s.bus with conv := none } }

/-! ## The bus primitives (R11, R50, R58) -/

/-- The oracle's next answer: the next listed one, else the next free one (log 3). -/
def nextAnswer (s : State) : BusAnswer × State :=
  match s.bus.answers with
  | a :: rest => (a, { s with bus := { s.bus with answers := rest } })
  | [] => (Config.busOracle s.bus.freeIdx, { s with bus := { s.bus with freeIdx := s.bus.freeIdx + 1 } })

/-- Adds an event to the bus trace. -/
def logEvent (e : BusEvent) (s : State) : State :=
  { s with bus := { s.bus with trace := s.bus.trace ++ [e] } }

/-- `BusRead(reg, n)` for n in 1, 2, 3 (R11, R54). -/
def busRead (reg : Byte) (n : Nat) (s : State) : Tx (List Byte) :=
  match nextAnswer s with
  | (.fail, s1) => (.error (.busError .read reg), logEvent (.read s.cfg.devAddr reg n none) s1)
  | (.done b0 b1 b2, s1) =>
    (.ok ([b0, b1, b2].take n), logEvent (.read s.cfg.devAddr reg n (some ([b0, b1, b2].take n))) s1)

/-- `BusWrite(reg, byte)` of a sensor command (R11, R55, R79); the sensor takes the byte of a write that completes. -/
def busWrite (c : SensorCmd) (s : State) : Tx Unit :=
  match nextAnswer s with
  | (.fail, s1) =>
    (.error (.busError .write (sensorReg c)), logEvent (.write s.cfg.devAddr (sensorReg c) (sensorByte c) false) s1)
  | (.done _ _ _, s1) =>
    (.ok (), sensorTake c (logEvent (.write s.cfg.devAddr (sensorReg c) (sensorByte c) true) s1))

/-- `Delay(ms)`: "blocks for at least `ms` milliseconds and always succeeds" (R11, D32). -/
def delay (ms : Nat) (s : State) : State := logEvent (.delay ms) s

/-- One conversion: trigger, settle delay, read of the result at 0xF6 (R201 to R204). -/
def acquire (c : Conversion) (ms n : Nat) (s : State) : Tx (List Byte) :=
  txBind (busWrite (.start c) s) fun _ s1 => busRead 0xF6 n (delay ms s1)

end Sys2Proof.Machine
end

