-- ==== Sys2Proof/Machine/Operands.lean ====
section
/-! DEFINITION. Operand forms: the assembly of bytes read from the sensor (20_memory.md R53) and the values of the calibration
constants (10_state.md R22). -/

namespace Sys2Proof.Machine

/-- `b[i]` of R54. -/
def byteAt (b : List Byte) (i : Nat) : Byte := b.getD i 0

/-- R53: `calword(b) = b[0] * 2^8 + b[1]`. -/
def calWord (b : List Byte) : Half := byteAt b 0 ++ byteAt b 1

/-- R53: `raw_T(b) = b[0] * 2^8 + b[1]`. -/
def rawTemp (b : List Byte) : BitVec 16 := byteAt b 0 ++ byteAt b 1

/-- R53: `raw_P(b, oss) = (b[0] * 2^16 + b[1] * 2^8 + b[2]) >>l (8 − oss)`, at most 19 bits. -/
def rawPress (b : List Byte) (oss : BitVec 2) : BitVec 19 :=
  ((byteAt b 0 ++ byteAt b 1 ++ byteAt b 2 : BitVec 24) >>> (8 - oss.toNat)).setWidth 19

/-- R21: the sensor addresses of the eleven constants, `0xAA + 2k`, in the fixed order. -/
def calAddrs : List Byte := [0xAA, 0xAC, 0xAE, 0xB0, 0xB2, 0xB4, 0xB6, 0xB8, 0xBA, 0xBC, 0xBE]

/-- R100: `CAL[k] <- w[k] for k = 0..10`. -/
def calOfWords (w : List Half) : Cal where
  ac1 := w.getD 0 0
  ac2 := w.getD 1 0
  ac3 := w.getD 2 0
  ac4 := w.getD 3 0
  ac5 := w.getD 4 0
  ac6 := w.getD 5 0
  b1  := w.getD 6 0
  b2  := w.getD 7 0
  mb  := w.getD 8 0
  mc  := w.getD 9 0
  md  := w.getD 10 0

/-- R8: `sext_16`. -/
def sext16 (b : Half) : Int := b.toInt

/-- R8: `zext_16`. -/
def zext16 (b : Half) : Int := b.toNat

/-! R22: each constant read by its signedness. -/

def valAC1 (c : Cal) : Int := sext16 c.ac1
def valAC2 (c : Cal) : Int := sext16 c.ac2
def valAC3 (c : Cal) : Int := sext16 c.ac3
def valAC4 (c : Cal) : Int := zext16 c.ac4
def valAC5 (c : Cal) : Int := zext16 c.ac5
def valAC6 (c : Cal) : Int := zext16 c.ac6
def valB1 (c : Cal) : Int := sext16 c.b1
def valB2 (c : Cal) : Int := sext16 c.b2
def valMB (c : Cal) : Int := sext16 c.mb
def valMC (c : Cal) : Int := sext16 c.mc
def valMD (c : Cal) : Int := sext16 c.md

/-- A signed 32-bit register holding `v` (R8). -/
def s32Of (v : Int) : S32 := BitVec.ofInt 32 v

/-- The value of a response that carries a temperature or a pressure (R78). -/
def quantityValue (q : Quantity) : Value :=
  match q with
  | .int v => .s32 v
  | .fp v => .f64 v

/-- The binary64 value of a pressure (44_derived.md R232): `f64(P)` in the INT variant, `P` in the FP variant. -/
def quantityF64 (q : Quantity) : F64 :=
  match q with
  | .int v => f64OfInt v.toInt
  | .fp v => v

end Sys2Proof.Machine
end

