-- ==== Sys2Proof/Machine/Flags.lean ====
section
/-! DEFINITION. The engine has no flags (10_state.md R35): its only predicates are INIT_STATE, SEQ, PUB_VALID and REF_VALID. This
file holds the gates that test them (60_exceptions.md R253, R255, R258, R259, R263) and the arithmetic checks of the integer
datapaths (00_scope.md R8, R9). -/

namespace Sys2Proof.Machine

/-! ## Gates: the exception that refuses the operation, if any -/

/-- The gate of MEASURE_T and MEASURE_P (R201, R202). -/
def gateIdentity (g : Engine) : Option Exc :=
  if g.initState = .identityFailed then some (.identityMismatch none) else none

/-- The gate of COMP_T, GET_DATA and CAPTURE_REF: IdentityMismatch, then NotInitialized (R132, R204, R231). -/
def gateCalibrated (g : Engine) : Option Exc :=
  if g.initState = .identityFailed then some (.identityMismatch none)
  else if g.initState = .uninit then some .notInitialized
  else none

/-- The gate of COMP_P: IdentityMismatch, NotInitialized, SequenceViolation (R138). -/
def gatePressure (g : Engine) : Option Exc :=
  if g.initState = .identityFailed then some (.identityMismatch none)
  else if g.initState = .uninit then some .notInitialized
  else if g.seq ≠ .awaitingPressure then some .sequenceViolation
  else none

/-- The gate of GET_ALT (R230). -/
def gateReference (g : Engine) : Option Exc :=
  if g.refValid = false then some .noReferencePressure else none

/-- R263: a gate that raises ends the operation with nothing written; else the operation runs. -/
def gated (gate : Option Exc) (s : State) (op : Host.Outcome State Fault Refusal) : Host.Outcome State Fault Refusal :=
  match gate with
  | some e => .next (raiseExc e s)
  | none => op

/-! ## Arithmetic checks (R8, R9): exact integers, checked, never wrapped -/

/-- `chk_s32(v, stage)`. -/
def chkS32 (v : Int) (st : Stage) : Except Exc Int :=
  if -2147483648 ≤ v ∧ v ≤ 2147483647 then .ok v else .error (.computationOverflow st)

/-- `chk_u32(v, stage)`. -/
def chkU32 (v : Int) (st : Stage) : Except Exc Int :=
  if 0 ≤ v ∧ v ≤ 4294967295 then .ok v else .error (.computationOverflow st)

/-- `v >>a n`, and `v >>l n` of a value that is not negative: `floor(v / 2^n)`. -/
def shiftR (v : Int) (n : Nat) : Int := v / 2 ^ n

/-- `a tdiv b`, truncating toward zero; "Either division with `b = 0` raises `DivideByZero(stage)`". -/
def tdivChk (a b : Int) (st : Stage) : Except Exc Int :=
  if b = 0 then .error (.divideByZero st) else .ok (a.tdiv b)

/-- `a udiv b` of values that are not negative. -/
def udivChk (a b : Int) (st : Stage) : Except Exc Int :=
  if b = 0 then .error (.divideByZero st) else .ok (a / b)

end Sys2Proof.Machine
end

