-- ==== Sys2Proof/Machine/FpComp.lean ====
section
/-! DEFINITION. The floating-point compensation (42_fp_compensation.md R170 to R174): the derived coefficients and the two
datapaths, every operation one binary64 operation in the order the rules write. -/

namespace Sys2Proof.Machine

/-- R172: `FIN(v, stage)`. -/
def fin (v : F64) (st : Stage) : Except Exc F64 :=
  if f64IsFinite v then .ok v else .error (.numericDomain st)

/-! ## Literals of R171, R174 -/

/-- `n` as a binary64 literal. -/
def lit (n : Int) : F64 := f64OfInt n

/-- "the binary64 nearest 10^-3" (R171). -/
def litMilli : F64 := 0x3F50624DD2F1A9FC
/-- 2^-13 -/
def litTwoM13 : F64 := 0x3F20000000000000
/-- 2^-15 -/
def litTwoM15 : F64 := 0x3F00000000000000
/-- 2^-20 -/
def litTwoM20 : F64 := 0x3EB0000000000000
/-- 2^-25 -/
def litTwoM25 : F64 := 0x3E60000000000000
/-- 2^-30 -/
def litTwoM30 : F64 := 0x3E10000000000000
/-- 2^-36 -/
def litTwoM36 : F64 := 0x3DB0000000000000

/-! ## DERIVE_FN (R171; log 6): the constant factors, then the sixteen lines -/

def facC3 : F64 := fmul (lit 160) litTwoM15
def facC4 : F64 := fmul litMilli litTwoM15
def facB1 : F64 := fmul (fmul (lit 160) (lit 160)) litTwoM30
def facC5 : F64 := fdiv litTwoM15 (lit 160)
def facMC : F64 := fdiv (lit 2048) (fmul (lit 160) (lit 160))
def facX1 : F64 := fmul (lit 160) litTwoM13
def facX2 : F64 := fmul (fmul (lit 160) (lit 160)) litTwoM25
def facP0 : F64 := fdiv (fsub (lit 3791) (lit 8)) (lit 1600)
def facP1 : F64 := fsub (lit 1) (fmul (lit 7357) litTwoM20)
def facP2 : F64 := fmul (fmul (lit 3038) (lit 100)) litTwoM36

/-- R171: `DC <- DERIVE_FN(CAL)`. -/
def deriveFn (c : Cal) : Coeffs :=
  let c3 := fmul facC3 (f64OfInt (valAC3 c))
  let c4 := fmul facC4 (f64OfInt (valAC4 c))
  let b1 := fmul facB1 (f64OfInt (valB1 c))
  { c3 := c3
    c4 := c4
    b1 := b1
    c5 := fmul facC5 (f64OfInt (valAC5 c))
    c6 := f64OfInt (valAC6 c)
    mc := fmul facMC (f64OfInt (valMC c))
    md := fdiv (f64OfInt (valMD c)) (lit 160)
    x0 := f64OfInt (valAC1 c)
    x1 := fmul facX1 (f64OfInt (valAC2 c))
    x2 := fmul facX2 (f64OfInt (valB2 c))
    y0 := fmul c4 (lit 32768)
    y1 := fmul c4 c3
    y2 := fmul c4 b1
    p0 := fmul facP0 (lit 100)
    p1 := fmul facP1 (lit 100)
    p2 := fmul facP2 (lit 100) }

/-! ## The datapaths -/

/-- R173, up to the register writes: the temperature in °C. -/
def tcompFp (k : Coeffs) (rawT : BitVec 16) : Except Exc F64 := do
  let a := fmul k.c5 (fsub (f64OfInt rawT.toNat) k.c6)
  let den := fadd a k.md
  let q ← fin (fdiv k.mc den) .ftQ
  fin (fadd a q) .ftT

/-- A polynomial of degree two in the order R174 writes it: `(k2 × s2 + k1 × s) + k0`. -/
def poly2 (k2 k1 k0 s2 s : F64) : F64 := fadd (fadd (fmul k2 s2) (fmul k1 s)) k0

/-- R174, up to the register writes: the pressure in Pa from the cached TC. -/
def pcompFp (k : Coeffs) (tc : F64) (rawP : BitVec 19) (oss : BitVec 2) : Except Exc F64 := do
  let s := fsub tc (lit 25)
  let s2 := fmul s s
  let x ← fin (poly2 k.x2 k.x1 k.x0 s2 s) .fpX
  let y ← fin (poly2 k.y2 k.y1 k.y0 s2 s) .fpY
  let u := fdiv (f64OfInt rawP.toNat) (f64OfInt (2 ^ oss.toNat))
  let z ← fin (fdiv (fsub u x) y) .fpZ
  fin (poly2 k.p2 k.p1 k.p0 (fmul z z) z) .fpP

end Sys2Proof.Machine
end

