-- ==== Sys2Proof/Machine/IntComp.lean ====
section
/-! DEFINITION. The integer compensation datapaths (41_int_compensation.md R130 to R137), one formula at a time; the stages are
those of R270. -/

namespace Sys2Proof.Machine

/-- R131, up to the register writes: the B5 term and the temperature in 0.1 °C. -/
def tcompInt (c : Cal) (rawT : BitVec 16) : Except Exc (Int × Int) := do
  let d ← chkS32 (rawT.toNat - valAC6 c) .tD
  let m ← chkS32 (d * valAC5 c) .tM
  let x1 := shiftR m 15
  let num ← chkS32 (valMC c * 2 ^ 11) .tNum
  let den ← chkS32 (x1 + valMD c) .tDen
  let x2 ← tdivChk num den .tX2
  let b5 ← chkS32 (x1 + x2) .tB5
  let r ← chkS32 (b5 + 8) .tR
  return (b5, shiftR r 4)

/-- R134. -/
def partB3 (c : Cal) (b6 q : Int) (oss : BitVec 2) : Except Exc Int := do
  let x1a ← chkS32 (valB2 c * q) .pX1a
  let x1 := shiftR x1a 11
  let x2a ← chkS32 (valAC2 c * b6) .pX2a
  let x2 := shiftR x2a 11
  let x3 ← chkS32 (x1 + x2) .pX3a
  let t1 ← chkS32 (valAC1 c * 4) .pB3a
  let t2 ← chkS32 (t1 + x3) .pB3b
  let t3 ← chkS32 (t2 * 2 ^ oss.toNat) .pB3c
  let t4 ← chkS32 (t3 + 2) .pB3d
  return shiftR t4 2

/-- R135. -/
def partB4 (c : Cal) (b6 q : Int) : Except Exc Int := do
  let x1b ← chkS32 (valAC3 c * b6) .pX1b
  let x1 := shiftR x1b 13
  let x2b ← chkS32 (valB1 c * q) .pX2b
  let x2 := shiftR x2b 16
  let x3b ← chkS32 (x1 + x2) .pX3b
  let x3c ← chkS32 (x3b + 2) .pX3c
  let x3 := shiftR x3c 2
  let u ← chkU32 (x3 + 32768) .pB4a
  let b4 ← chkU32 (valAC4 c * u) .pB4b
  return shiftR b4 15

/-- R136: the two arms of the branch on `B7 < 0x8000_0000` are kept apart. -/
def partQuot (b7 b4 : Int) : Except Exc Int :=
  if b7 < 0x80000000 then do
    let t ← chkU32 (b7 * 2) .pPa
    udivChk t b4 .pPdiv
  else do
    let h ← udivChk b7 b4 .pPdiv
    chkU32 (h * 2) .pPb

/-- R136. -/
def partDiv (rawP : BitVec 19) (oss : BitVec 2) (b3 b4 : Int) : Except Exc Int := do
  let dd ← chkU32 (rawP.toNat - b3) .pB7a
  let b7 ← chkU32 (dd * shiftR 50000 oss.toNat) .pB7b
  if b4 = 0 then .error (.divideByZero .pPdiv)
  else do
    let p ← partQuot b7 b4
    chkS32 p .pP

/-- R137. -/
def partFinal (p : Int) : Except Exc Int := do
  let h := shiftR p 8
  let x1c ← chkS32 (h * h) .pX1c
  let x1d ← chkS32 (x1c * 3038) .pX1d
  let x1 := shiftR x1d 16
  let x2c ← chkS32 (-7357 * p) .pX2c
  let x2 := shiftR x2c 16
  let t1 ← chkS32 (x1 + x2) .pFa
  let t2 ← chkS32 (t1 + 3791) .pFb
  chkS32 (p + shiftR t2 4) .pFc

/-- R133, up to the register writes: the pressure in Pa from the cached B5. -/
def pcompInt (c : Cal) (b5 : Int) (rawP : BitVec 19) (oss : BitVec 2) : Except Exc Int := do
  let b6 ← chkS32 (b5 - 4000) .pB6
  let b6sq ← chkS32 (b6 * b6) .pB6sq
  let q := shiftR b6sq 12
  let b3 ← partB3 c b6 q oss
  let b4 ← partB4 c b6 q
  let p ← partDiv rawP oss b3 b4
  partFinal p

end Sys2Proof.Machine
end

