-- ==== Sys2Proof/Machine/Compensation.lean ====
section
/-! DEFINITION. The temperature and pressure steps with their register writes in both variants, and COMP_T and COMP_P
(41_int_compensation.md R131 to R133, R138; 42_fp_compensation.md R173, R174). -/

namespace Sys2Proof.Machine

/-- The end of R131: `B5 <- b5`, `SEQ <- AwaitingPressure`. -/
def commitB5 (r : Except Exc (Int × Int)) (s : State) : Tx Quantity :=
  match r with
  | .ok (b5, t) =>
    (.ok (.int (s32Of t)), { s with eng := { s.eng with b5 := some (s32Of b5), seq := .awaitingPressure } })
  | .error e => (.error e, s)

/-- The end of R173: `TC <- T`, `SEQ <- AwaitingPressure`. -/
def commitTC (r : Except Exc F64) (s : State) : Tx Quantity :=
  match r with
  | .ok t => (.ok (.fp t), { s with eng := { s.eng with tc := some t, seq := .awaitingPressure } })
  | .error e => (.error e, s)

/-- `TCOMP_INT(rawT)` or `TCOMP_FP(rawT)`, by VARIANT (R131, R173). -/
def tcompStep (rawT : BitVec 16) (s : State) : Run Quantity :=
  match s.cfg.variant with
  | .int => withReg .cal s.eng.cal fun c => .next (commitB5 (tcompInt c rawT) s)
  | .fp => withReg .dc s.eng.dc fun k => .next (commitTC (tcompFp k rawT) s)

/-- The end of R133 and R174: `SEQ <- Ready`; the cached temperature is consumed. -/
def commitPressure {α : Type} (wrap : α → Quantity) (r : Except Exc α) (s : State) : Tx Quantity :=
  match r with
  | .ok p => (.ok (wrap p), { s with eng := { s.eng with seq := .ready } })
  | .error e => (.error e, s)

/-- `PCOMP_INT(rawP, oss)` or `PCOMP_FP(rawP, oss)`, by VARIANT (R133, R174). -/
def pcompStep (rawP : BitVec 19) (oss : BitVec 2) (s : State) : Run Quantity :=
  match s.cfg.variant with
  | .int =>
    withReg .b5 s.eng.b5 fun b5 =>
      withReg .cal s.eng.cal fun c => .next (commitPressure (fun p => .int (s32Of p)) (pcompInt c b5.toInt rawP oss) s)
  | .fp =>
    withReg .tc s.eng.tc fun tc =>
      withReg .dc s.eng.dc fun k => .next (commitPressure .fp (pcompFp k tc rawP oss) s)

/-- A response that carries one temperature or pressure. -/
def respondOne (q : Quantity) (s : State) : Run Values := .next (.ok (some (quantityValue q), none), s)

/-- COMP_T (R132). -/
def execCompT (raw : BitVec 16) (s : State) : Host.Outcome State Fault Refusal :=
  gated (gateCalibrated s.eng) s (concludeRun abortSeq s (runBind (tcompStep raw s) respondOne))

/-- COMP_P (R138). -/
def execCompP (oss : BitVec 2) (raw : BitVec 19) (s : State) : Host.Outcome State Fault Refusal :=
  gated (gatePressure s.eng) s (concludeRun abortSeq s (runBind (pcompStep raw oss s) respondOne))

end Sys2Proof.Machine
end

