-- ==== Sys2Proof/Machine/Sequencer.lean ====
section
/-! DEFINITION. The acquisition sequencer (43_sequencer.md R200 to R206): SET_OSS, MEASURE_T, MEASURE_P, the cycle and
GET_DATA. -/

namespace Sys2Proof.Machine

/-- SET_OSS (R200). -/
def execSetOss (oss : BitVec 2) (s : State) : Host.Outcome State Fault Refusal :=
  .next (respond none none { s with eng := { s.eng with oss := oss } })

/-- The temperature conversion (R201): 0x2E, T_SETTLE_MS, two bytes. -/
def acquireT (s : State) : Tx (List Byte) := acquire .temperature Config.tSettleMs 2 s

/-- The pressure conversion (R202): `0x34 OR (oss << 6)`, P_SETTLE_MS[oss], three bytes. -/
def acquireP (oss : BitVec 2) (s : State) : Tx (List Byte) := acquire (.pressure oss) (Config.pSettleMs oss) 3 s

/-- MEASURE_T (R201). -/
def execMeasureT (s : State) : Host.Outcome State Fault Refusal :=
  gated (gateIdentity s.eng) s
    (.next (conclude abortNothing s
      (txBind (acquireT s) fun b s1 => (.ok (some (.u16 (rawTemp b)), none), s1))))

/-- MEASURE_P (R202). -/
def execMeasureP (oss : BitVec 2) (s : State) : Host.Outcome State Fault Refusal :=
  gated (gateIdentity s.eng) s
    (.next (conclude abortNothing s
      (txBind (acquireP oss s) fun b s1 => (.ok (some (.u19 (rawPress b oss)), none), s1))))

/-- `CYCLE()` (R204). The oversampling is read once, before step 1. -/
def cycleStep (s : State) : Run (Quantity × Quantity) :=
  runBind (.next (acquireT s)) fun bt s1 =>
    runBind (tcompStep (rawTemp bt) s1) fun t s2 =>
      runBind (.next (acquireP s.eng.oss s2)) fun bp s3 =>
        runBind (pcompStep (rawPress bp s.eng.oss) s.eng.oss s3) fun p s4 => .next (.ok (t, p), s4)

/-- `PUBLISH(T, P)` (R205), one step. -/
def publish (t p : Quantity) (g : Engine) : Engine := { g with tPub := some t, pPub := some p, pubValid := true }

/-- The response (OK, T, P) of a cycle, after the register writes `post` (R204, R231). -/
def respondPair (post : Quantity → Quantity → Engine → Engine) (x : Quantity × Quantity) (s : State) : Run Values :=
  .next (.ok (some (quantityValue x.1), some (quantityValue x.2)), { s with eng := post x.1 x.2 s.eng })

/-- GET_DATA (R204). -/
def execGetData (s : State) : Host.Outcome State Fault Refusal :=
  gated (gateCalibrated s.eng) s (concludeRun abortSeq s (runBind (cycleStep s) (respondPair publish)))

end Sys2Proof.Machine
end

