-- ==== Sys2Proof/Machine/Derived.lean ====
section
/-! DEFINITION. Derived quantities (44_derived.md R230 to R233): GET_ALT and CAPTURE_REF. -/

namespace Sys2Proof.Machine

/-- `ALT(P, R)` on binary64 operands (R232). -/
def altitude (pf rf : F64) : Except Exc F64 :=
  if flt f64PosZero rf then
    let r := fdiv pf rf
    if flt r f64PosZero then .error (.numericDomain .altRatio)
    else fin (fmul Config.altScale (fsub f64One (Config.pow64 r Config.altExp))) .altRes
  else .error (.numericDomain .altRef)

/-- The end of GET_ALT: its response, or its exception; no state is written (R230). -/
def altResponse (r : Except Exc F64) (s : State) : Tx Values :=
  match r with
  | .ok a => (.ok (some (.f64 a), none), s)
  | .error e => (.error e, s)

/-- GET_ALT (R230). -/
def execGetAlt (s : State) : Host.Outcome State Fault Refusal :=
  gated (gateReference s.eng) s
    (withReg .pPub s.eng.pPub fun p =>
      withReg .refP s.eng.refP fun r =>
        .next (conclude abortNothing s (altResponse (altitude (quantityF64 p) (quantityF64 r)) s)))

/-- R231: the publication and the new reference are one step. -/
def publishRef (t p : Quantity) (g : Engine) : Engine := { publish t p g with refP := some p, refValid := true }

/-- CAPTURE_REF (R231). -/
def execCaptureRef (s : State) : Host.Outcome State Fault Refusal :=
  gated (gateCalibrated s.eng) s (concludeRun abortSeq s (runBind (cycleStep s) (respondPair publishRef)))

end Sys2Proof.Machine
end

