-- ==== Sys2Proof/Machine/Sensor.lean ====
section
/-! DEFINITION. The sensor command bytes as the sensor takes them (20_memory.md R57, 30_encoding.md R79): the DEVCMD8 rows of
spec/opcode_table.json. They put no response on the host port and touch no engine register. -/

namespace Sys2Proof.Machine

/-- TRIG_T: starts a temperature conversion (R57, R79). -/
def execTrigT (s : State) : Host.Outcome State Fault Refusal := .next (sensorTake (.start .temperature) s)

/-- TRIG_P: starts a pressure conversion tagged with the oversampling level (R57, R79, R80). -/
def execTrigP (oss : BitVec 2) (s : State) : Host.Outcome State Fault Refusal :=
  .next (sensorTake (.start (.pressure oss)) s)

/-- SOFT_RESET: resets the sensor (R57, R79). -/
def execSoftReset (s : State) : Host.Outcome State Fault Refusal := .next (sensorTake .softReset s)

end Sys2Proof.Machine
end

