-- ==== Sys2Proof/Machine/Session.lean ====
section
/-! DEFINITION. The session operations INIT, GET_ID, HAS_VALID_ID and RESET (40_calibration.md R100 to R107). -/

namespace Sys2Proof.Machine

/-- `IDENT()` (R102). -/
def ident (s : State) : Tx Byte :=
  txBind (busRead 0xD0 1 s) fun b s1 => (.ok (byteAt b 0), s1)

/-- R102: "A byte is a valid identity if and only if it equals `CHIP_ID_EXPECTED`". -/
def validId (id : Byte) : Bool := id == Config.chipIdExpected

/-- The loop of R101 over the addresses still to read: one 2-byte read per constant. -/
def loadWords (addrs : List Byte) (s : State) : Tx (List Half) :=
  match addrs with
  | [] => (.ok [], s)
  | a :: rest =>
    txBind (busRead a 2 s) fun b s1 =>
      txBind (loadWords rest s1) fun ws s2 => (.ok (calWord b :: ws), s2)

/-- `LOAD_CAL()` (R101). -/
def loadCal (s : State) : Tx Cal :=
  txBind (loadWords calAddrs s) fun ws s1 => (.ok (calOfWords ws), s1)

/-- INIT's commit (R100, R103): CAL, and DC in the FP variant, in one step, and `INIT_STATE <- Ready`. -/
def commitCal (v : Variant) (c : Cal) (g : Engine) : Engine :=
  match v with
  | .int => { g with cal := some c, initState := .ready }
  | .fp => { g with cal := some c, dc := some (deriveFn c), initState := .ready }

/-- The steps of INIT (R100). -/
def initSteps (s : State) : Tx Values :=
  txBind (ident { s with eng := beginSession s.eng }) fun id s1 =>
    if validId id then
      txBind (loadCal s1) fun c s2 => (.ok (none, none), { s2 with eng := commitCal s2.cfg.variant c s2.eng })
    else (.error (.identityMismatch (some id)), s1)

/-- INIT (R100): no gate. -/
def execInit (s : State) : Host.Outcome State Fault Refusal := .next (conclude abortInit s (initSteps s))

/-- GET_ID (R105). -/
def execGetId (s : State) : Host.Outcome State Fault Refusal :=
  .next (conclude abortNothing s (txBind (ident s) fun id s1 => (.ok (some (.byte id), none), s1)))

/-- HAS_VALID_ID (R106). -/
def execHasValidId (s : State) : Host.Outcome State Fault Refusal :=
  .next (conclude abortNothing s
    (txBind (ident s) fun id s1 => (.ok (some (.bit (if validId id then 1 else 0)), none), s1)))

/-- RESET (R107): the session ends whether or not the write completes. -/
def execReset (s : State) : Host.Outcome State Fault Refusal :=
  .next (conclude abortReset s
    (txBind (busWrite .softReset { s with eng := endSession s.eng }) fun _ s1 => (.ok (none, none), s1)))

end Sys2Proof.Machine
end

