-- ==== Sys2Proof/Machine/Dispatch.lean ====
section
/-! DEFINITION. One arm per constructor of Instr, each one direct call of that instruction's meaning. -/

namespace Sys2Proof.Machine

def exec (i : Instr) (s : State) : Host.Outcome State Fault Refusal :=
  match i with
  | .init => Sys2Proof.Machine.execInit s
  | .getId => Sys2Proof.Machine.execGetId s
  | .hasValidId => Sys2Proof.Machine.execHasValidId s
  | .reset => Sys2Proof.Machine.execReset s
  | .measureT => Sys2Proof.Machine.execMeasureT s
  | .measureP oss => Sys2Proof.Machine.execMeasureP oss s
  | .compT raw => Sys2Proof.Machine.execCompT raw s
  | .compP oss raw => Sys2Proof.Machine.execCompP oss raw s
  | .setOss oss => Sys2Proof.Machine.execSetOss oss s
  | .getData => Sys2Proof.Machine.execGetData s
  | .getAlt => Sys2Proof.Machine.execGetAlt s
  | .captureRef => Sys2Proof.Machine.execCaptureRef s
  | .trigT => Sys2Proof.Machine.execTrigT s
  | .trigP oss => Sys2Proof.Machine.execTrigP oss s
  | .softReset => Sys2Proof.Machine.execSoftReset s

end Sys2Proof.Machine
end

