-- ==== Sys2Proof/Machine/Fetch.lean ====
section
/-! DEFINITION. What the machine does next (30_encoding.md R70, R83; 70_reset_and_hazards.md R288): the sensor takes a command byte
that stands on the bus; else the engine takes the host's next command word; else it idles. -/

namespace Sys2Proof.Machine

/-- What a fetch gives, with the state in which it runs. -/
inductive Fetched where
  /-- An instruction to execute. -/
  | run (i : Instr) (s : State)
  /-- A command word that matches no row (R74, R75). -/
  | illegal (cmd : Word) (s : State)
  /-- A byte on the bus that is no sensor command (R80). -/
  | unknownByte (b : Byte)
  /-- No command waits: "It idles between commands and keeps all state" (R267). -/
  | idle (s : State)
deriving DecidableEq, Repr

/-- The sensor takes the byte that stands on the bus (R57). -/
def fetchByte (b : Byte) (s : State) : Fetched :=
  match decodeSensor b with
  | .ok i => .run i { s with bus := { s.bus with pending := none } }
  | .error _ => .unknownByte b

/-- The engine takes a command word off the host port and decodes it (R70, R83). -/
def fetchWord (cmd : Word) (rest : List Word) (s : State) : Fetched :=
  match decode cmd with
  | .ok i => .run i { s with port := { s.port with cmds := rest } }
  | .error _ => .illegal cmd { s with port := { s.port with cmds := rest } }

/-- What runs next. -/
def fetch (s : State) : Fetched :=
  match s.bus.pending with
  | some b => fetchByte b s
  | none =>
    match s.port.cmds with
    | cmd :: rest => fetchWord cmd rest s
    | [] => .idle s

/-- R260: `IllegalCommand(cmd)` writes no state and issues no bus transaction. -/
def illegalWord (cmd : Word) (s : State) : State := raiseExc (.illegalCommand cmd) s

/-- Puts an instruction's bits where `fetch` takes the next one from: a sensor command byte on the bus, or a command word at
the head of the host port, with no byte left on the bus before it. -/
def placeBits (s : State) (nbits w : Nat) : State :=
  if isSensorRow nbits then { s with bus := { s.bus with pending := some (BitVec.ofNat 8 w) } }
  else
    { s with
      bus := { s.bus with pending := none }
      port := { s.port with cmds := BitVec.ofNat 32 w :: s.port.cmds } }

end Sys2Proof.Machine
end

