-- ==== Sys2Proof/Machine/Step.lean ====
section
/-! DEFINITION. One step of the machine: one command word or one sensor command byte, to completion (20_memory.md R60). -/

namespace Sys2Proof.Machine

/-- R60, R70, R83, R260, R267. -/
def step (s : State) : Host.Outcome State Fault Refusal :=
  match fetch s with
  | .run i s1 => exec i s1
  | .illegal cmd s1 => .next (illegalWord cmd s1)
  | .unknownByte b => .refused (.unknownSensorByte b)
  | .idle s1 => .next s1

/-- The state with an instruction of the host's table placed where `step` takes its next one from. -/
def State.withFetchWord (s : State) (nbits w : Nat) : State := placeBits s nbits w

end Sys2Proof.Machine
end

