-- ==== Sys2Proof/Safety.lean ====
section
/-! DEFINITION. What holds of every state a run from reset reaches (10_state.md R38, R20, R31; 42_fp_compensation.md R172), and what
counts as a safe step (10_state.md R40). -/

namespace Sys2Proof.Machine

/-- R38, items 1 to 4. -/
def SessionInv (s : State) : Prop :=
  (s.eng.seq = .awaitingPressure → s.eng.initState = .ready) ∧
  (s.eng.refValid = true → s.eng.pubValid = true ∧ s.eng.initState = .ready) ∧
  (s.eng.pubValid = true → s.eng.initState = .ready) ∧
  (s.eng.initState = .identityFailed →
    s.eng.seq = .awaitingTemperature ∧ s.eng.pubValid = false ∧ s.eng.refValid = false)

/-- R38, item 5: in Ready, CAL holds a calibration set, and DC in the FP variant is `DERIVE_FN(CAL)`. -/
def CalInv (s : State) : Prop :=
  s.eng.initState = .ready →
    ∃ c, s.eng.cal = some c ∧ (s.cfg.variant = .fp → s.eng.dc = some (deriveFn c))

/-- R39, R40: what SEQ, PUB_VALID and REF_VALID guard is present. -/
def PresentInv (s : State) : Prop :=
  (s.eng.seq = .awaitingPressure →
    match s.cfg.variant with
    | .int => s.eng.b5.isSome = true
    | .fp => s.eng.tc.isSome = true) ∧
  (s.eng.pubValid = true → s.eng.tPub.isSome = true ∧ s.eng.pPub.isSome = true) ∧
  (s.eng.refValid = true → s.eng.refP.isSome = true)

/-- A quantity has the type of the variant (R31). -/
def Quantity.hasVariant (v : Variant) (q : Quantity) : Bool :=
  match v, q with
  | .int, .int _ => true
  | .fp, .fp _ => true
  | .int, .fp _ => false
  | .fp, .int _ => false

/-- Every value an optional register holds meets `p`. -/
def heldAll {α : Type} (p : α → Prop) (o : Option α) : Prop := ∀ v, o = some v → p v

/-- R20, R31, R32: DC and TC exist only in the FP variant and B5 only in the INT variant, and the published pair and the
reference have the variant's type. -/
def TypeInv (s : State) : Prop :=
  (s.cfg.variant = .int → s.eng.dc = none ∧ s.eng.tc = none) ∧
  (s.cfg.variant = .fp → s.eng.b5 = none) ∧
  heldAll (fun q => q.hasVariant s.cfg.variant = true) s.eng.tPub ∧
  heldAll (fun q => q.hasVariant s.cfg.variant = true) s.eng.pPub ∧
  heldAll (fun q => q.hasVariant s.cfg.variant = true) s.eng.refP

/-- A quantity that is no infinity and no NaN. -/
def Quantity.isFinite (q : Quantity) : Bool :=
  match q with
  | .int _ => true
  | .fp v => f64IsFinite v

/-- Sixteen coefficients that are no infinity and no NaN. -/
def Coeffs.isFinite (k : Coeffs) : Bool :=
  [k.c3, k.c4, k.b1, k.c5, k.c6, k.mc, k.md, k.x0, k.x1, k.x2, k.y0, k.y1, k.y2, k.p0, k.p1, k.p2].all f64IsFinite

/-- R172: "An infinity or a NaN is never stored in `TC`, `T_PUB`, `P_PUB` or `REF_P`"; R171: nor in DC, "Every value is finite
for every calibration set". -/
def FiniteInv (s : State) : Prop :=
  heldAll (fun k => k.isFinite = true) s.eng.dc ∧
  heldAll (fun v => f64IsFinite v = true) s.eng.tc ∧
  heldAll (fun q => q.isFinite = true) s.eng.tPub ∧
  heldAll (fun q => q.isFinite = true) s.eng.pPub ∧
  heldAll (fun q => q.isFinite = true) s.eng.refP

/-- R231 (c): an s32 pressure is at least 1. -/
def Quantity.isPositiveInt (q : Quantity) : Prop :=
  match q with
  | .int v => 1 ≤ v.toInt
  | .fp _ => True

/-- R231 (c): every pressure the INT variant has published or captured is at least 1. -/
def PressureInv (s : State) : Prop :=
  heldAll Quantity.isPositiveInt s.eng.pPub ∧ heldAll Quantity.isPositiveInt s.eng.refP

/-- What keeps every read of a register inside what has been written (R38, R40). -/
def EngineInv (s : State) : Prop := SessionInv s ∧ CalInv s ∧ PresentInv s

/-- A step that meets no model fault (R40). -/
def SafeStep (s : State) : Prop := ∀ r, step s ≠ .fault r

/-! ## The bus trace (20_memory.md R55, R50; 43_sequencer.md R203; 60_exceptions.md R252) -/

/-- A command byte on its register (R55, R79). -/
def allowedWrite (reg byte : Byte) : Bool :=
  (reg == 0xF4 && (byte == 0x2E || byte == 0x34 || byte == 0x74 || byte == 0xB4 || byte == 0xF4)) ||
  (reg == 0xE0 && byte == 0xB6)

/-- A read form of R55: the identity byte, a calibration word at `0xAA + 2k` for k = 0..10, a result of two or three bytes. -/
def allowedRead (reg : Byte) (n : Nat) : Bool :=
  (reg == 0xD0 && n == 1) ||
  (decide (0xAA ≤ reg.toNat) && decide (reg.toNat ≤ 0xBE) && reg.toNat % 2 == 0 && n == 2) ||
  (reg == 0xF6 && (n == 2 || n == 3))

/-- A delay of R203. -/
def allowedDelay (ms : Nat) : Bool := ms == 5 || ms == 8 || ms == 14 || ms == 26

/-- R55: "exactly three forms of bus access, and nothing else", to the engine's own device (R50), and the delays of R203. -/
def allowedEvent (dev : BitVec 7) (e : BusEvent) : Bool :=
  match e with
  | .write d reg byte _ => d == dev && allowedWrite reg byte
  | .read d reg n bytes => d == dev && allowedRead reg n && (match bytes with | none => true | some b => b.length == n)
  | .delay ms => allowedDelay ms

/-- A transaction that did not complete. -/
def eventFailed (e : BusEvent) : Bool :=
  match e with
  | .write _ _ _ completed => !completed
  | .read _ _ _ bytes => bytes.isNone
  | .delay _ => false

/-- R252: "The raising transaction is the first that fails, and no later transaction of that operation is issued". -/
def failsOnlyLast (evs : List BusEvent) : Bool :=
  match evs with
  | [] => true
  | e :: rest => if eventFailed e then rest.isEmpty else failsOnlyLast rest

end Sys2Proof.Machine
end

