-- ==== Sys2Proof/Certificates/Slice0/Obligations.lean ====
section
/-! DEFINITION. The statements for the provers, from the spec's numbered rules, in the order of OBLIGATIONS.json. A response is written
(status, v0, v1); a next state is written `after`, which names everything an operation may change. -/

open Sys2Proof Sys2Proof.Machine

namespace Sys2Proof.Claims

/-- The state after an operation of `s`: the engine registers `g`, the events `evs` added to the bus trace, the oracle's
answers `left` still listed, the sensor's conversion `conv`, and one response added. The parameters, the free-answer counter,
the byte pending on the bus and the waiting command words are those of `s`. -/
def after (s : State) (g : Engine) (evs : List BusEvent) (left : List BusAnswer) (conv : Option Conversion)
    (status : Status) (v0 v1 : Option Value) : State :=
  { s with
    eng := g
    bus := { s.bus with answers := left, trace := s.bus.trace ++ evs, conv := conv }
    port := { s.port with responses := s.port.responses ++ [{ status := status, v0 := v0, v1 := v1 }] } }

/-- The state after an operation of `s` that uses neither the bus nor the oracle. -/
def afterQuiet (s : State) (g : Engine) (status : Status) (v0 v1 : Option Value) : State :=
  after s g [] s.bus.answers s.bus.conv status v0 v1

/-- The status of the last response on the host port. -/
def lastStatus (s : State) : Option Status := (s.port.responses.getLast?).map fun r => r.status

/-- A bus event of this engine: a completed or failed write of `byte` to `reg`. -/
def wr (s : State) (reg byte : Byte) (completed : Bool) : BusEvent := .write s.cfg.devAddr reg byte completed

/-- A bus event of this engine: a read of `n` bytes at `reg`. -/
def rd (s : State) (reg : Byte) (n : Nat) (bytes : Option (List Byte)) : BusEvent := .read s.cfg.devAddr reg n bytes

/-- `0x34 | (oss << 6)`, evaluated for each oss (R79). -/
def trigger (oss : BitVec 2) : Byte := if oss = 0 then 0x34 else if oss = 1 then 0x74 else if oss = 2 then 0xB4 else 0xF4

/-- 5, 8, 14, 26 ms (R203). -/
def settle (oss : BitVec 2) : Nat := if oss = 0 then 5 else if oss = 1 then 8 else if oss = 2 then 14 else 26

/-- INIT's step 1 (R100) and RESET's validity writes (R107). -/
def sessionEnded (g : Engine) (st : InitState) : Engine :=
  { g with initState := st, seq := .awaitingTemperature, pubValid := false, refValid := false }

/-- `SEQ <- AwaitingTemperature`, the abort write of the compensations and cycles (R254). -/
def seqCleared (g : Engine) : Engine := { g with seq := .awaitingTemperature }

/-- The eleven entries of CAL in the order of R21. -/
def calEntries (c : Cal) : List Half := [c.ac1, c.ac2, c.ac3, c.ac4, c.ac5, c.ac6, c.b1, c.b2, c.mb, c.mc, c.md]

/-- The events of the calibration reads `0xAA + 2k` from index `k` on (R101). -/
def calEvents (s : State) (k : Nat) (bs : List (Byte × Byte × Byte)) : List BusEvent :=
  match bs with
  | [] => []
  | b :: rest => rd s (BitVec.ofNat 8 (0xAA + 2 * k)) 2 (some [b.1, b.2.1]) :: calEvents s (k + 1) rest

/-- The oracle completes with these bytes. -/
def done (b : Byte × Byte × Byte) : BusAnswer := .done b.1 b.2.1 b.2.2

/-- The value of an s32 in range is kept by the register (R8). -/
def inS32 (v : Int) : Prop := -2147483648 ≤ v ∧ v ≤ 2147483647

/-- A response value that is no infinity and no NaN. -/
def valueFinite (v : Option Value) : Prop := ∀ w, v = some (.f64 w) → f64IsFinite w = true

/-- The type R78 gives a temperature or a pressure of the variant. -/
def isQuantity (vr : Variant) (v : Option Value) : Prop :=
  match vr with
  | .int => ∃ w, v = some (.s32 w)
  | .fp => ∃ w, v = some (.f64 w)

/-- R78: the values of a successful response, by operation. -/
def okShape (i : Instr) (vr : Variant) (v0 v1 : Option Value) : Prop :=
  match i with
  | .init | .reset | .setOss _ => v0 = none ∧ v1 = none
  | .getId => (∃ w, v0 = some (.byte w)) ∧ v1 = none
  | .hasValidId => (∃ w, v0 = some (.bit w)) ∧ v1 = none
  | .measureT => (∃ w, v0 = some (.u16 w)) ∧ v1 = none
  | .measureP _ => (∃ w, v0 = some (.u19 w)) ∧ v1 = none
  | .compT _ | .compP _ _ => isQuantity vr v0 ∧ v1 = none
  | .getData | .captureRef => isQuantity vr v0 ∧ isQuantity vr v1
  | .getAlt => (∃ w, v0 = some (.f64 w)) ∧ v1 = none
  | .trigT | .trigP _ | .softReset => False

/-- R251, R78: on failure v0 is the exception's info and v1 is none. -/
def failShape (st : Status) (v0 v1 : Option Value) : Prop :=
  v1 = none ∧
  match st with
  | .ok => False
  | .busError => ∃ w, v0 = some (.busInfo w)
  | .identityMismatch => v0 = none ∨ ∃ w, v0 = some (.byte w)
  | .noReferencePressure | .sequenceViolation | .notInitialized => v0 = none
  | .computationOverflow | .divideByZero | .numericDomain => ∃ w, v0 = some (.stageCode w)
  | .illegalCommand => ∃ w, v0 = some (.word w)

/-- R251's column "raised by". -/
def mayRaise (i : Instr) (vr : Variant) (st : Status) : Prop :=
  match i with
  | .init => st = .busError ∨ st = .identityMismatch
  | .getId | .hasValidId | .reset => st = .busError
  | .measureT | .measureP _ => st = .busError ∨ st = .identityMismatch
  | .compT _ =>
    st = .identityMismatch ∨ st = .notInitialized ∨
    (vr = .int ∧ (st = .computationOverflow ∨ st = .divideByZero)) ∨ (vr = .fp ∧ st = .numericDomain)
  | .compP _ _ =>
    st = .identityMismatch ∨ st = .notInitialized ∨ st = .sequenceViolation ∨
    (vr = .int ∧ (st = .computationOverflow ∨ st = .divideByZero)) ∨ (vr = .fp ∧ st = .numericDomain)
  | .getData | .captureRef =>
    st = .busError ∨ st = .identityMismatch ∨ st = .notInitialized ∨
    (vr = .int ∧ (st = .computationOverflow ∨ st = .divideByZero)) ∨ (vr = .fp ∧ st = .numericDomain)
  | .getAlt => st = .noReferencePressure ∨ st = .numericDomain
  | .setOss _ | .trigT | .trigP _ | .softReset => False

/-- The host commands: the twelve rows with a mnemonic in R72. -/
def hostCommand (i : Instr) : Bool :=
  match i with
  | .trigT | .trigP _ | .softReset => false
  | .init | .getId | .hasValidId | .reset | .measureT | .measureP _ | .compT _ | .compP _ _ | .setOss _ | .getData
  | .getAlt | .captureRef => true

/-- The assembler line of a command (R77). A sensor command byte has none; its line here is one no command has. -/
def lineOf (i : Instr) : AsmLine :=
  match i with
  | .init => { mnemonic := .init }
  | .getId => { mnemonic := .getId }
  | .hasValidId => { mnemonic := .hasValidId }
  | .reset => { mnemonic := .reset }
  | .measureT => { mnemonic := .measureT }
  | .measureP oss => { mnemonic := .measureP, oss := some oss.toNat }
  | .compT raw => { mnemonic := .compT, raw := some raw.toNat }
  | .compP oss raw => { mnemonic := .compP, raw := some raw.toNat, oss := some oss.toNat }
  | .setOss oss => { mnemonic := .setOss, oss := some oss.toNat }
  | .getData => { mnemonic := .getData }
  | .getAlt => { mnemonic := .getAlt }
  | .captureRef => { mnemonic := .captureRef }
  | .trigT | .trigP _ | .softReset => { mnemonic := .init, oss := some 0, raw := some 0 }

/-- The temperature step succeeds in `s` on the raw count `raw` (R131, R173). -/
def tempSucceeds (s : State) (raw : BitVec 16) : Prop :=
  (s.cfg.variant = .int ∧ ∃ c b5 t, s.eng.cal = some c ∧ tcompInt c raw = .ok (b5, t)) ∨
  (s.cfg.variant = .fp ∧ ∃ k t, s.eng.dc = some k ∧ tcompFp k raw = .ok t)

/-- The temperature step raises `e` in `s` on the raw count `raw`. -/
def tempRaises (s : State) (raw : BitVec 16) (e : Exc) : Prop :=
  (s.cfg.variant = .int ∧ ∃ c, s.eng.cal = some c ∧ tcompInt c raw = .error e) ∨
  (s.cfg.variant = .fp ∧ ∃ k, s.eng.dc = some k ∧ tcompFp k raw = .error e)

/-- In a cycle of `s`, the temperature step succeeds on `rawT` and the pressure step after it raises `e` on `rawP`. -/
def pressRaises (s : State) (rawT : BitVec 16) (rawP : BitVec 19) (e : Exc) : Prop :=
  (s.cfg.variant = .int ∧ ∃ c b5 t, s.eng.cal = some c ∧ tcompInt c rawT = .ok (b5, t) ∧
    pcompInt c b5 rawP s.eng.oss = .error e) ∨
  (s.cfg.variant = .fp ∧ ∃ k t, s.eng.dc = some k ∧ tcompFp k rawT = .ok t ∧ pcompFp k t rawP s.eng.oss = .error e)

/-- An operation that runs a full cycle. -/
def isCycle (i : Instr) : Bool :=
  match i with
  | .getData | .captureRef => true
  | .init | .getId | .hasValidId | .reset | .measureT | .measureP _ | .compT _ | .compP _ _ | .setOss _ | .getAlt
  | .trigT | .trigP _ | .softReset => false

/-- COMP_T. -/
def isCompT (i : Instr) : Bool :=
  match i with
  | .compT _ => true
  | .init | .getId | .hasValidId | .reset | .measureT | .measureP _ | .compP _ _ | .setOss _ | .getData | .getAlt
  | .captureRef | .trigT | .trigP _ | .softReset => false

/-- SET_OSS. -/
def isSetOss (i : Instr) : Bool :=
  match i with
  | .setOss _ => true
  | .init | .getId | .hasValidId | .reset | .measureT | .measureP _ | .compT _ | .compP _ _ | .getData | .getAlt
  | .captureRef | .trigT | .trigP _ | .softReset => false

/-- An operation that touches neither the bus nor the sensor (R287). -/
def isQuiet (i : Instr) : Bool :=
  match i with
  | .compT _ | .compP _ _ | .setOss _ | .getAlt => true
  | .init | .getId | .hasValidId | .reset | .measureT | .measureP _ | .getData | .captureRef | .trigT | .trigP _
  | .softReset => false

/-- An operation whose rule says "State written: none" (R105, R106, R201, R202, R230), and the sensor's own steps. -/
def writesNothing (i : Instr) : Bool :=
  match i with
  | .getId | .hasValidId | .measureT | .measureP _ | .getAlt | .trigT | .trigP _ | .softReset => true
  | .init | .reset | .compT _ | .compP _ _ | .setOss _ | .getData | .captureRef => false

/-- R28: SEQ after an operation that has ended, from its status and what it was before. -/
def seqAfter (i : Instr) (ok refused : Bool) (q : Seq) : Seq :=
  match i with
  | .init | .reset => .awaitingTemperature
  | .compT _ => if refused then q else if ok then .awaitingPressure else .awaitingTemperature
  | .compP _ _ | .getData | .captureRef => if refused then q else if ok then .ready else .awaitingTemperature
  | .getId | .hasValidId | .measureT | .measureP _ | .setOss _ | .getAlt | .trigT | .trigP _ | .softReset => q

/-- R254: the engine registers after a raise, by operation: unchanged after a refusal by the gate, else the abort writes. -/
def abortedEngine (i : Instr) (st : Status) (g : Engine) : Engine :=
  match i with
  | .init => sessionEnded g (if st = .identityMismatch then .identityFailed else .uninit)
  | .reset => sessionEnded g (if g.initState = .identityFailed then .identityFailed else .uninit)
  | .compT _ | .compP _ _ | .getData | .captureRef =>
    if st = .identityMismatch ∨ st = .notInitialized ∨ st = .sequenceViolation then g else seqCleared g
  | .getId | .hasValidId | .measureT | .measureP _ | .setOss _ | .getAlt | .trigT | .trigP _ | .softReset => g

/-- R270: the number of each stage, in the order of its table. -/
def stageNumber (st : Stage) : BitVec 8 :=
  match st with
  | .tD => 0x01 | .tM => 0x02 | .tNum => 0x03 | .tDen => 0x04 | .tX2 => 0x05 | .tB5 => 0x06 | .tR => 0x07
  | .pB6 => 0x10 | .pB6sq => 0x11 | .pX1a => 0x12 | .pX2a => 0x13 | .pX3a => 0x14 | .pB3a => 0x15 | .pB3b => 0x16
  | .pB3c => 0x17 | .pB3d => 0x18 | .pX1b => 0x19 | .pX2b => 0x1A | .pX3b => 0x1B | .pX3c => 0x1C | .pB4a => 0x1D
  | .pB4b => 0x1E | .pB7a => 0x1F | .pB7b => 0x20 | .pPa => 0x21 | .pPdiv => 0x22 | .pPb => 0x23 | .pP => 0x24
  | .pX1c => 0x25 | .pX1d => 0x26 | .pX2c => 0x27 | .pFa => 0x28 | .pFb => 0x29 | .pFc => 0x2A
  | .ftQ => 0x40 | .ftT => 0x41 | .fpX => 0x48 | .fpY => 0x49 | .fpZ => 0x4A | .fpP => 0x4B
  | .altRef => 0x60 | .altRatio => 0x61 | .altRes => 0x62

/-- R251, R270: the status and the info of an exception that an arithmetic check raises; none for any other exception. -/
def datapathAnswer (e : Exc) : Option (Status × Value) :=
  match e with
  | .computationOverflow st => some (.computationOverflow, .stageCode (stageNumber st))
  | .divideByZero st => some (.divideByZero, .stageCode (stageNumber st))
  | .numericDomain st => some (.numericDomain, .stageCode (stageNumber st))
  | .busError _ _ | .identityMismatch _ | .noReferencePressure | .sequenceViolation | .notInitialized
  | .illegalCommand _ => none

/-- `r` is as near to `x` as `p` is. -/
def nearer (x r p : ℚ) : Prop := |r - x| ≤ |p - x|

/-- The least magnitude that rounds to nearest even to an infinity: halfway from the greatest finite value to 2^1024 (R10). -/
def overflowLimit : ℚ := 2 ^ 1024 - 2 ^ 970

/-- `w` is a finite value nearest to `x` among all finite values (R10, round to nearest). -/
def isNearest (x : ℚ) (w : F64) : Prop := ∀ p : F64, f64IsFinite p = true → nearer x (f64Rat w) (f64Rat p)

/-- `w` is `x` rounded to nearest (R10): finite exactly for `x` below the overflow limit, and then a nearest value. -/
def roundsTo (x : ℚ) (w : F64) : Prop :=
  (f64IsFinite w = true ↔ |x| < overflowLimit) ∧ (f64IsFinite w = true → isNearest x w)

end Sys2Proof.Claims

open Sys2Proof.Claims

/-! ## Encoding -/

/-- R71 to R73, R79, R80: decoding an instruction's encoding gives the instruction, with every operand value. -/
def Obligations.DecodeOfEncodeIsTheInstruction : Prop :=
  ∀ i : Instr, decodeEncoded (encode i) = .ok i

/-- R71, R72, R79: a word or byte that decodes is the encoding of what it decodes to, so no bit is ignored. -/
def Obligations.EveryLegalWordIsItsEncoding : Prop :=
  (∀ (w : Word) (i : Instr), decode w = .ok i → encode i = .cmd w) ∧
  (∀ (b : Byte) (i : Instr), decodeSensor b = .ok i → encode i = .sensor b)

/-- R74, R75, R83: exactly these words are illegal. -/
def Obligations.IllegalWordsAreReservedOpOrReservedBits : Prop :=
  ∀ w : Word,
    let op := w.toNat / 2 ^ 28
    let oss := w.toNat / 2 ^ 24 % 4
    let rawHigh := w.toNat / 2 ^ 16 % 8
    let rawLow := w.toNat % 2 ^ 16
    decode w = .error (.illegalCommand w) ↔
      (op = 0 ∨ 13 ≤ op) ∨
      w.toNat / 2 ^ 26 % 4 ≠ 0 ∨ w.toNat / 2 ^ 19 % 32 ≠ 0 ∨
      (oss ≠ 0 ∧ op ≠ 6 ∧ op ≠ 8 ∧ op ≠ 9) ∨
      (rawHigh ≠ 0 ∧ op ≠ 8) ∨
      (rawLow ≠ 0 ∧ op ≠ 7 ∧ op ≠ 8)

/-- Words of 95_test_vectors.md 2.1, and the sensor command bytes of R79. -/
def Obligations.WrittenOutWordsDecode : Prop :=
  decode 0x10000000 = .ok .init ∧
  decode 0x61000000 = .ok (.measureP 1) ∧
  decode 0x70006CFA = .ok (.compT 27898) ∧
  decode 0x8307FFFF = .ok (.compP 3 524287) ∧
  decode 0x93000000 = .ok (.setOss 3) ∧
  decode 0xA0000000 = .ok .getData ∧
  decode 0xB0000000 = .ok .getAlt ∧
  decode 0x84005D23 = .error (.illegalCommand 0x84005D23) ∧
  decodeSensor 0x2E = .ok .trigT ∧
  decodeSensor 0xB4 = .ok (.trigP 2) ∧
  decodeSensor 0xB6 = .ok .softReset

/-- R77: the assembler takes exactly the lines of the twelve commands with their operands in range, encodes a line as
`OP << 28 | oss << 24 | raw`, and never emits an illegal word. -/
def Obligations.AssemblerEmitsOnlyLegalWords : Prop :=
  ∀ (l : AsmLine) (w : Word),
    (assemble l = some w ↔ ∃ i, hostCommand i = true ∧ l = lineOf i ∧ encode i = .cmd w) ∧
    (assemble l = some w →
      w.toNat = l.mnemonic.opcode.toNat * 2 ^ 28 + l.oss.getD 0 * 2 ^ 24 + l.raw.getD 0 ∧
      ∃ i, decode w = .ok i)

/-! ## The step -/

/-- R60, R70, R83: a step takes the next command word and is the execution of what it decodes to. That a byte the sensor has
not taken goes first is the model's choice (DESIGN CHOICE, log 4): no rule of the spec orders the two. -/
def Obligations.StepRunsTheDecodedInstruction : Prop :=
  (∀ (s : State) (w : Word) (rest : List Word) (i : Instr), s.bus.pending = none → s.port.cmds = w :: rest →
    decode w = .ok i → step s = exec i { s with port := { s.port with cmds := rest } }) ∧
  (∀ (s : State) (b : Byte) (i : Instr), s.bus.pending = some b → decodeSensor b = .ok i →
    step s = exec i { s with bus := { s.bus with pending := none } })

/-- R260, R74: an illegal word writes no state, issues no bus transaction, and answers with the whole word; R267: with no
word waiting the engine keeps all state. -/
def Obligations.IllegalWordAnswersWithTheWord : Prop :=
  (∀ (s : State) (w : Word) (rest : List Word), s.bus.pending = none → s.port.cmds = w :: rest →
    decode w = .error (.illegalCommand w) →
    step s = .next (afterQuiet { s with port := { s.port with cmds := rest } } s.eng .illegalCommand (some (.word w)) none)) ∧
  (∀ s : State, s.bus.pending = none → s.port.cmds = [] → step s = .next s)

/-! ## Session operations -/

/-- R105: GET_ID, word 0x20000000, answers the byte it reads, whatever it is, and writes no state. -/
def Obligations.GetIdAnswersTheByteRead : Prop :=
  encode .getId = .cmd 0x20000000 ∧
  ∀ (s : State) (left : List BusAnswer),
    (∀ b : Byte × Byte × Byte, s.bus.answers = done b :: left →
      exec .getId s = .next (after s s.eng [rd s 0xD0 1 (some [b.1])] left s.bus.conv .ok (some (.byte b.1)) none)) ∧
    (s.bus.answers = .fail :: left →
      exec .getId s = .next (after s s.eng [rd s 0xD0 1 none] left s.bus.conv .busError (some (.busInfo 0x00D0)) none))

/-- R106: HAS_VALID_ID, word 0x30000000, answers 1 for 0x55 and 0 for every other byte. -/
def Obligations.HasValidIdComparesWith0x55 : Prop :=
  encode .hasValidId = .cmd 0x30000000 ∧
  ∀ (s : State) (left : List BusAnswer),
    (∀ b : Byte × Byte × Byte, s.bus.answers = done b :: left →
      exec .hasValidId s = .next (after s s.eng [rd s 0xD0 1 (some [b.1])] left s.bus.conv .ok
        (some (.bit (if b.1 = 0x55 then 1 else 0))) none)) ∧
    (s.bus.answers = .fail :: left →
      exec .hasValidId s = .next (after s s.eng [rd s 0xD0 1 none] left s.bus.conv .busError
        (some (.busInfo 0x00D0)) none))

/-- R100, R101, R103, R104: INIT with the identity 0x55 and eleven completed reads starts a session on exactly the words
read, in the order of R21, and in the FP variant derives DC from them. -/
def Obligations.InitLoadsTheCalibrationRead : Prop :=
  ∀ (s : State) (id : Byte × Byte × Byte) (bs : List (Byte × Byte × Byte)) (left : List BusAnswer),
    bs.length = 11 → id.1 = 0x55 → s.bus.answers = done id :: (bs.map done ++ left) →
    ∃ c : Cal, calEntries c = bs.map (fun b => b.1 ++ b.2.1) ∧
      exec .init s = .next (after s
        { sessionEnded s.eng .ready with
          cal := some c
          dc := if s.cfg.variant = .fp then some (deriveFn c) else s.eng.dc }
        (rd s 0xD0 1 (some [0x55]) :: calEvents s 0 bs) left s.bus.conv .ok none none)

/-- R100, R102, R253: INIT with another identity raises IdentityMismatch with the byte and leaves IdentityFailed; a failed
identity read raises BusError and leaves Uninit. CAL and DC keep their contents. -/
def Obligations.InitStopsOnAForeignIdentity : Prop :=
  ∀ (s : State) (left : List BusAnswer),
    (∀ id : Byte × Byte × Byte, id.1 ≠ 0x55 → s.bus.answers = done id :: left →
      exec .init s = .next (after s (sessionEnded s.eng .identityFailed) [rd s 0xD0 1 (some [id.1])] left s.bus.conv
        .identityMismatch (some (.byte id.1)) none)) ∧
    (s.bus.answers = .fail :: left →
      exec .init s = .next (after s (sessionEnded s.eng .uninit) [rd s 0xD0 1 none] left s.bus.conv
        .busError (some (.busInfo 0x00D0)) none))

/-- R100 corner (b), R101: a failure of calibration read k raises BusError(read, 0xAA + 2k), leaves Uninit, and commits
nothing of the words read before. -/
def Obligations.InitFailedReadLeavesUninit : Prop :=
  ∀ (s : State) (id : Byte × Byte × Byte) (bs : List (Byte × Byte × Byte)) (left : List BusAnswer),
    bs.length < 11 → id.1 = 0x55 → s.bus.answers = done id :: (bs.map done ++ .fail :: left) →
    let reg : Nat := 0xAA + 2 * bs.length
    exec .init s = .next (after s (sessionEnded s.eng .uninit)
      (rd s 0xD0 1 (some [0x55]) :: (calEvents s 0 bs ++ [rd s (BitVec.ofNat 8 reg) 2 none])) left s.bus.conv
      .busError (some (.busInfo (BitVec.ofNat 16 reg))) none)

/-- R107, R281: RESET, word 0x40000000, clears the session, keeps IdentityFailed and OSS, and writes 0xB6 to 0xE0; a failed
write leaves the same registers. The sensor's conversion record after either write (none after a completed one, unchanged
after a failed one) is the model's choice (DESIGN CHOICE, log 4). -/
def Obligations.ResetEndsTheSession : Prop :=
  encode .reset = .cmd 0x40000000 ∧
  ∀ (s : State) (left : List BusAnswer),
    let g := sessionEnded s.eng (if s.eng.initState = .identityFailed then .identityFailed else .uninit)
    (∀ b : Byte × Byte × Byte, s.bus.answers = done b :: left →
      exec .reset s = .next (after s g [wr s 0xE0 0xB6 true] left none .ok none none)) ∧
    (s.bus.answers = .fail :: left →
      exec .reset s = .next (after s g [wr s 0xE0 0xB6 false] left s.bus.conv .busError (some (.busInfo 0x01E0)) none))

/-! ## Oversampling and raw measurements -/

/-- R200: SET_OSS is 0x90000000 with `oss` in bits 25:24; it writes OSS and nothing else, in every state. -/
def Obligations.SetOssWritesOnlyOss : Prop :=
  ∀ (s : State) (oss : BitVec 2),
    encode (.setOss oss) = .cmd (0x90000000 + oss.setWidth 32 * 0x1000000) ∧
    exec (.setOss oss) s = .next (afterQuiet s { s.eng with oss := oss } .ok none none)

/-- R201, R203: MEASURE_T, word 0x50000000, triggers with 0x2E, waits 5 ms, reads two bytes at 0xF6, and answers them; what
each failure leaves out. That a failed trigger leaves the sensor's conversion record is the model's choice (DESIGN CHOICE,
log 4). -/
def Obligations.MeasureTTriggersWaitsReads : Prop :=
  encode .measureT = .cmd 0x50000000 ∧
  ∀ (s : State) (left : List BusAnswer) (a b : Byte × Byte × Byte),
    (s.eng.initState = .identityFailed → exec .measureT s = .next (afterQuiet s s.eng .identityMismatch none none)) ∧
    (s.eng.initState ≠ .identityFailed →
      (s.bus.answers = .fail :: left →
        exec .measureT s = .next (after s s.eng [wr s 0xF4 0x2E false] left s.bus.conv .busError
          (some (.busInfo 0x01F4)) none)) ∧
      (s.bus.answers = done a :: .fail :: left →
        exec .measureT s = .next (after s s.eng [wr s 0xF4 0x2E true, .delay 5, rd s 0xF6 2 none] left
          (some .temperature) .busError (some (.busInfo 0x00F6)) none)) ∧
      (s.bus.answers = done a :: done b :: left →
        ∃ ut : BitVec 16, ut.toNat = b.1.toNat * 256 + b.2.1.toNat ∧
          exec .measureT s = .next (after s s.eng
            [wr s 0xF4 0x2E true, .delay 5, rd s 0xF6 2 (some [b.1, b.2.1])] left
            (some .temperature) .ok (some (.u16 ut)) none)))

/-- R202, R203, R79: MEASURE_P oss, 0x60000000 with `oss` in bits 25:24, triggers with `0x34 | oss << 6`, waits 5, 8, 14 or
26 ms, reads three bytes and shifts them right by 8 - oss. That a failed trigger leaves the sensor's conversion record is the
model's choice (DESIGN CHOICE, log 4). -/
def Obligations.MeasurePTriggersWaitsReads : Prop :=
  ∀ (s : State) (oss : BitVec 2) (left : List BusAnswer) (a b : Byte × Byte × Byte),
    encode (.measureP oss) = .cmd (0x60000000 + oss.setWidth 32 * 0x1000000) ∧
    (s.eng.initState = .identityFailed →
      exec (.measureP oss) s = .next (afterQuiet s s.eng .identityMismatch none none)) ∧
    (s.eng.initState ≠ .identityFailed →
      (s.bus.answers = .fail :: left →
        exec (.measureP oss) s = .next (after s s.eng [wr s 0xF4 (trigger oss) false] left s.bus.conv .busError
          (some (.busInfo 0x01F4)) none)) ∧
      (s.bus.answers = done a :: .fail :: left →
        exec (.measureP oss) s = .next (after s s.eng
          [wr s 0xF4 (trigger oss) true, .delay (settle oss), rd s 0xF6 3 none] left
          (some (.pressure oss)) .busError (some (.busInfo 0x00F6)) none)) ∧
      (s.bus.answers = done a :: done b :: left →
        ∃ up : BitVec 19,
          up.toNat = (b.1.toNat * 65536 + b.2.1.toNat * 256 + b.2.2.toNat) / 2 ^ (8 - oss.toNat) ∧
          exec (.measureP oss) s = .next (after s s.eng
            [wr s 0xF4 (trigger oss) true, .delay (settle oss), rd s 0xF6 3 (some [b.1, b.2.1, b.2.2])] left
            (some (.pressure oss)) .ok (some (.u19 up)) none)))

/-- R53: the big-endian assembly of the bytes, and the width of a raw pressure, at most 16 + oss bits. -/
def Obligations.BytesAssembleBigEndian : Prop :=
  ∀ (b0 b1 b2 : Byte) (oss : BitVec 2),
    (calWord [b0, b1]).toNat = b0.toNat * 2 ^ 8 + b1.toNat ∧
    (rawTemp [b0, b1]).toNat = b0.toNat * 2 ^ 8 + b1.toNat ∧
    (rawPress [b0, b1, b2] oss).toNat = (b0.toNat * 2 ^ 16 + b1.toNat * 2 ^ 8 + b2.toNat) / 2 ^ (8 - oss.toNat) ∧
    (rawPress [b0, b1, b2] oss).toNat < 2 ^ (16 + oss.toNat)

/-- R22: each constant's value is its pattern read by its signedness. -/
def Obligations.CalibrationConstantsBySignedness : Prop :=
  ∀ c : Cal,
    let s16 : Half → Int := fun b => if b.toNat < 32768 then b.toNat else (b.toNat : Int) - 65536
    valAC1 c = s16 c.ac1 ∧ valAC2 c = s16 c.ac2 ∧ valAC3 c = s16 c.ac3 ∧
    valAC4 c = (c.ac4.toNat : Int) ∧ valAC5 c = (c.ac5.toNat : Int) ∧ valAC6 c = (c.ac6.toNat : Int) ∧
    valB1 c = s16 c.b1 ∧ valB2 c = s16 c.b2 ∧ valMB c = s16 c.mb ∧ valMC c = s16 c.mc ∧ valMD c = s16 c.md

/-! ## The integer datapaths -/

/-- R131: only `T.m` and `T.X2` can raise; else B5 is X1 + X2, with X1 floored and X2 truncated, and T is (B5 + 8) floored
by 16. -/
def Obligations.IntTemperatureClosedForm : Prop :=
  ∀ (c : Cal) (rawT : BitVec 16),
    let m : Int := (rawT.toNat - valAC6 c) * valAC5 c
    let x1 : Int := Int.fdiv m (2 ^ 15)
    let x2 : Int := Int.tdiv (valMC c * 2 ^ 11) (x1 + valMD c)
    (¬ inS32 m → tcompInt c rawT = .error (.computationOverflow .tM)) ∧
    (inS32 m → x1 + valMD c = 0 → tcompInt c rawT = .error (.divideByZero .tX2)) ∧
    (inS32 m → x1 + valMD c ≠ 0 → tcompInt c rawT = .ok (x1 + x2, Int.fdiv (x1 + x2 + 8) 16))

/-- R131, R133: a B5 the temperature step gives lies within ±(2^26 + 2^16) and fits its register, so `P.B6` never raises on
it. -/
def Obligations.IntB5StaysWithinBounds : Prop :=
  ∀ (c : Cal) (rawT : BitVec 16) (b5 t : Int), tcompInt c rawT = .ok (b5, t) →
    -(2 ^ 26 + 2 ^ 16) ≤ b5 ∧ b5 ≤ 2 ^ 26 + 2 ^ 16 ∧ (s32Of b5).toInt = b5 ∧ (s32Of t).toInt = t ∧
    ∀ (rawP : BitVec 19) (oss : BitVec 2), pcompInt c b5 rawP oss ≠ .error (.computationOverflow .pB6)

/-- R134: once |B6| ≤ 46340, only `P.X1a` can raise. -/
def Obligations.IntB3ClosedForm : Prop :=
  ∀ (c : Cal) (b6 : Int) (oss : BitVec 2), -46340 ≤ b6 → b6 ≤ 46340 →
    let q : Int := Int.fdiv (b6 * b6) (2 ^ 12)
    let x1 : Int := Int.fdiv (valB2 c * q) (2 ^ 11)
    let x2 : Int := Int.fdiv (valAC2 c * b6) (2 ^ 11)
    (¬ inS32 (valB2 c * q) → partB3 c b6 q oss = .error (.computationOverflow .pX1a)) ∧
    (inS32 (valB2 c * q) →
      partB3 c b6 q oss = .ok (Int.fdiv ((valAC1 c * 4 + (x1 + x2)) * 2 ^ oss.toNat + 2) (2 ^ 2)))

/-- R135: once |B6| ≤ 46340, only `P.X2b`, `P.B4a` and `P.B4b` can raise, in that order. -/
def Obligations.IntB4ClosedForm : Prop :=
  ∀ (c : Cal) (b6 : Int), -46340 ≤ b6 → b6 ≤ 46340 →
    let q : Int := Int.fdiv (b6 * b6) (2 ^ 12)
    let x1 : Int := Int.fdiv (valAC3 c * b6) (2 ^ 13)
    let x2 : Int := Int.fdiv (valB1 c * q) (2 ^ 16)
    let u : Int := Int.fdiv (x1 + x2 + 2) (2 ^ 2) + 32768
    (¬ inS32 (valB1 c * q) → partB4 c b6 q = .error (.computationOverflow .pX2b)) ∧
    (inS32 (valB1 c * q) → u < 0 → partB4 c b6 q = .error (.computationOverflow .pB4a)) ∧
    (inS32 (valB1 c * q) → 0 ≤ u → 4294967295 < valAC4 c * u →
      partB4 c b6 q = .error (.computationOverflow .pB4b)) ∧
    (inS32 (valB1 c * q) → 0 ≤ u → valAC4 c * u ≤ 4294967295 →
      partB4 c b6 q = .ok (Int.fdiv (valAC4 c * u) (2 ^ 15)))

/-- R136: B7 is checked as unsigned, then B4 = 0, then the two arms on `B7 < 0x8000_0000`; `P.pa` never raises and `P.pb`
raises only when B4 = 1. -/
def Obligations.IntQuotientKeepsBothArms : Prop :=
  ∀ (rawP : BitVec 19) (oss : BitVec 2) (b3 b4 : Int), 0 ≤ b4 → b3 ≤ 2147483647 → -2147483648 ≤ b3 →
    let dd : Int := rawP.toNat - b3
    let scale : Int := if oss = 0 then 50000 else if oss = 1 then 25000 else if oss = 2 then 12500 else 6250
    let b7 : Int := dd * scale
    let p : Int := if b7 < 0x80000000 then b7 * 2 / b4 else b7 / b4 * 2
    (dd < 0 → partDiv rawP oss b3 b4 = .error (.computationOverflow .pB7a)) ∧
    (0 ≤ dd → 4294967295 < b7 → partDiv rawP oss b3 b4 = .error (.computationOverflow .pB7b)) ∧
    (0 ≤ dd → b7 ≤ 4294967295 → b4 = 0 → partDiv rawP oss b3 b4 = .error (.divideByZero .pPdiv)) ∧
    (0 ≤ dd → b7 ≤ 4294967295 → b4 = 1 → 0x80000000 ≤ b7 →
      partDiv rawP oss b3 b4 = .error (.computationOverflow .pPb)) ∧
    (0 ≤ dd → b7 ≤ 4294967295 → 1 ≤ b4 → (b4 = 1 → b7 < 0x80000000) → 2147483647 < p →
      partDiv rawP oss b3 b4 = .error (.computationOverflow .pP)) ∧
    (0 ≤ dd → b7 ≤ 4294967295 → 1 ≤ b4 → p ≤ 2147483647 → partDiv rawP oss b3 b4 = .ok p)

/-- R137: the final correction succeeds exactly for p ≤ 215295, where the three last checks never raise; above, `P.X1d`
raises, and `P.X1c` from 46341 × 256 on. -/
def Obligations.IntFinalCorrectionClosedForm : Prop :=
  ∀ p : Int, 0 ≤ p → p ≤ 2147483647 →
    let h : Int := Int.fdiv p (2 ^ 8)
    let x1 : Int := Int.fdiv (h * h * 3038) (2 ^ 16)
    let x2 : Int := Int.fdiv (-7357 * p) (2 ^ 16)
    (p ≤ 215295 → partFinal p = .ok (p + Int.fdiv (x1 + x2 + 3791) (2 ^ 4))) ∧
    (215295 < p → p < 46341 * 256 → partFinal p = .error (.computationOverflow .pX1d)) ∧
    (46341 * 256 ≤ p → partFinal p = .error (.computationOverflow .pX1c))

/-- R231 (c): "every pressure the datapath returns is at least 1", and the s32 register holds it. -/
def Obligations.IntPressureIsAtLeastOne : Prop :=
  ∀ (c : Cal) (b5 : Int) (rawP : BitVec 19) (oss : BitVec 2) (p : Int),
    pcompInt c b5 rawP oss = .ok p → 1 ≤ p ∧ (s32Of p).toInt = p

/-! ## COMP_T and COMP_P -/

/-- R132: COMP_T in the INT variant: the gates in their order, the result with B5 and SEQ written, and a raise with SEQ
cleared. -/
def Obligations.CompTInt : Prop :=
  ∀ (s : State) (raw : BitVec 16) (c : Cal),
    (s.eng.initState = .identityFailed →
      exec (.compT raw) s = .next (afterQuiet s s.eng .identityMismatch none none)) ∧
    (s.eng.initState = .uninit → exec (.compT raw) s = .next (afterQuiet s s.eng .notInitialized none none)) ∧
    (s.eng.initState = .ready → s.cfg.variant = .int → s.eng.cal = some c →
      (∀ b5 t, tcompInt c raw = .ok (b5, t) →
        exec (.compT raw) s = .next (afterQuiet s
          { s.eng with b5 := some (BitVec.ofInt 32 b5), seq := .awaitingPressure } .ok
          (some (.s32 (BitVec.ofInt 32 t))) none)) ∧
      (tcompInt c raw = .error (.computationOverflow .tM) →
        exec (.compT raw) s = .next (afterQuiet s (seqCleared s.eng) .computationOverflow (some (.stageCode 0x02)) none)) ∧
      (tcompInt c raw = .error (.divideByZero .tX2) →
        exec (.compT raw) s = .next (afterQuiet s (seqCleared s.eng) .divideByZero (some (.stageCode 0x05)) none)))

/-- R132, R173: COMP_T in the FP variant. -/
def Obligations.CompTFp : Prop :=
  ∀ (s : State) (raw : BitVec 16) (k : Coeffs), s.eng.initState = .ready → s.cfg.variant = .fp → s.eng.dc = some k →
    let a := fmul k.c5 (fsub (f64OfInt raw.toNat) k.c6)
    let q := fdiv k.mc (fadd a k.md)
    let t := fadd a q
    (f64IsFinite q = true → f64IsFinite t = true →
      exec (.compT raw) s = .next (afterQuiet s { s.eng with tc := some t, seq := .awaitingPressure } .ok
        (some (.f64 t)) none)) ∧
    (f64IsFinite q = false →
      exec (.compT raw) s = .next (afterQuiet s (seqCleared s.eng) .numericDomain (some (.stageCode 0x40)) none)) ∧
    (f64IsFinite q = true → f64IsFinite t = false →
      exec (.compT raw) s = .next (afterQuiet s (seqCleared s.eng) .numericDomain (some (.stageCode 0x41)) none))

/-- R138, R133, R270: COMP_P in the INT variant: the gates in their order, the result with the cache consumed, and a raise
with SEQ cleared and its stage's number; and PCOMP_INT itself: its two checks, then its four parts in their order, each on
the results of those before it. -/
def Obligations.CompPInt : Prop :=
  (∀ st : Stage, stageCode st = stageNumber st) ∧
  (∀ (c : Cal) (b5 : Int) (raw : BitVec 19) (oss : BitVec 2),
    let b6 := b5 - 4000
    let q := Int.fdiv (b6 * b6) (2 ^ 12)
    (¬ inS32 b6 → pcompInt c b5 raw oss = .error (.computationOverflow .pB6)) ∧
    (inS32 b6 → b6 < -46340 ∨ 46340 < b6 → pcompInt c b5 raw oss = .error (.computationOverflow .pB6sq)) ∧
    (-46340 ≤ b6 → b6 ≤ 46340 →
      (∀ e, partB3 c b6 q oss = .error e → pcompInt c b5 raw oss = .error e) ∧
      (∀ b3, partB3 c b6 q oss = .ok b3 →
        (∀ e, partB4 c b6 q = .error e → pcompInt c b5 raw oss = .error e) ∧
        (∀ b4, partB4 c b6 q = .ok b4 →
          (∀ e, partDiv raw oss b3 b4 = .error e → pcompInt c b5 raw oss = .error e) ∧
          (∀ p, partDiv raw oss b3 b4 = .ok p → pcompInt c b5 raw oss = partFinal p))))) ∧
  ∀ (s : State) (oss : BitVec 2) (raw : BitVec 19) (c : Cal) (b5 : S32),
    (s.eng.initState = .identityFailed →
      exec (.compP oss raw) s = .next (afterQuiet s s.eng .identityMismatch none none)) ∧
    (s.eng.initState = .uninit → exec (.compP oss raw) s = .next (afterQuiet s s.eng .notInitialized none none)) ∧
    (s.eng.initState = .ready → s.eng.seq ≠ .awaitingPressure →
      exec (.compP oss raw) s = .next (afterQuiet s s.eng .sequenceViolation none none)) ∧
    (s.eng.initState = .ready → s.eng.seq = .awaitingPressure → s.cfg.variant = .int → s.eng.cal = some c →
      s.eng.b5 = some b5 →
      (∀ p, pcompInt c b5.toInt raw oss = .ok p →
        exec (.compP oss raw) s = .next (afterQuiet s { s.eng with seq := .ready } .ok
          (some (.s32 (BitVec.ofInt 32 p))) none)) ∧
      (∀ st, pcompInt c b5.toInt raw oss = .error (.computationOverflow st) →
        exec (.compP oss raw) s = .next (afterQuiet s (seqCleared s.eng) .computationOverflow
          (some (.stageCode (stageNumber st))) none)) ∧
      (pcompInt c b5.toInt raw oss = .error (.divideByZero .pPdiv) →
        exec (.compP oss raw) s = .next (afterQuiet s (seqCleared s.eng) .divideByZero (some (.stageCode 0x22)) none)))

/-- R138, R174: COMP_P in the FP variant. -/
def Obligations.CompPFp : Prop :=
  ∀ (s : State) (oss : BitVec 2) (raw : BitVec 19) (k : Coeffs) (tc : F64), s.eng.initState = .ready →
    s.eng.seq = .awaitingPressure → s.cfg.variant = .fp → s.eng.dc = some k → s.eng.tc = some tc →
    let d := fsub tc (f64OfInt 25)
    let d2 := fmul d d
    let x := fadd (fadd (fmul k.x2 d2) (fmul k.x1 d)) k.x0
    let y := fadd (fadd (fmul k.y2 d2) (fmul k.y1 d)) k.y0
    let z := fdiv (fsub (fdiv (f64OfInt raw.toNat) (f64OfInt (2 ^ oss.toNat))) x) y
    let p := fadd (fadd (fmul k.p2 (fmul z z)) (fmul k.p1 z)) k.p0
    let raised : BitVec 8 → State := fun code =>
      afterQuiet s (seqCleared s.eng) .numericDomain (some (.stageCode code)) none
    exec (.compP oss raw) s = .next
      (if f64IsFinite x = false then raised 0x48
       else if f64IsFinite y = false then raised 0x49
       else if f64IsFinite z = false then raised 0x4A
       else if f64IsFinite p = false then raised 0x4B
       else afterQuiet s { s.eng with seq := .ready } .ok (some (.f64 p)) none)

/-- R138, R206: a temperature result is consumed once: after a COMP_P that got past its gate, a second COMP_P is refused with
SequenceViolation and changes no register. -/
def Obligations.CompPConsumesTheTemperature : Prop :=
  ∀ (s t : State) (oss oss' : BitVec 2) (raw raw' : BitVec 19), s.eng.initState = .ready →
    s.eng.seq = .awaitingPressure → exec (.compP oss raw) s = .next t →
    exec (.compP oss' raw') t = .next (afterQuiet t t.eng .sequenceViolation none none)

/-! ## Cycles -/

/-- R204, R205: GET_DATA in both variants with every transaction completed: the six bus events in order, with one value of
OSS throughout, the response (OK, T, P), and the pair published. -/
def Obligations.GetDataPublishesThePair : Prop :=
  ∀ (s : State) (a b d e : Byte × Byte × Byte) (left : List BusAnswer),
    s.eng.initState = .ready → s.bus.answers = done a :: done b :: done d :: done e :: left →
    let evs := [wr s 0xF4 0x2E true, BusEvent.delay 5, rd s 0xF6 2 (some [b.1, b.2.1]),
      wr s 0xF4 (trigger s.eng.oss) true, BusEvent.delay (settle s.eng.oss), rd s 0xF6 3 (some [e.1, e.2.1, e.2.2])]
    (∀ (c : Cal) (b5 t p : Int), s.cfg.variant = .int → s.eng.cal = some c →
      tcompInt c (rawTemp [b.1, b.2.1]) = .ok (b5, t) →
      pcompInt c b5 (rawPress [e.1, e.2.1, e.2.2] s.eng.oss) s.eng.oss = .ok p →
      exec .getData s = .next (after s
        { s.eng with
          b5 := some (BitVec.ofInt 32 b5)
          seq := .ready
          tPub := some (.int (BitVec.ofInt 32 t))
          pPub := some (.int (BitVec.ofInt 32 p))
          pubValid := true }
        evs left (some (.pressure s.eng.oss)) .ok (some (.s32 (BitVec.ofInt 32 t))) (some (.s32 (BitVec.ofInt 32 p))))) ∧
    (∀ (k : Coeffs) (t p : F64), s.cfg.variant = .fp → s.eng.dc = some k →
      tcompFp k (rawTemp [b.1, b.2.1]) = .ok t →
      pcompFp k t (rawPress [e.1, e.2.1, e.2.2] s.eng.oss) s.eng.oss = .ok p →
      exec .getData s = .next (after s
        { s.eng with
          tc := some t
          seq := .ready
          tPub := some (.fp t)
          pPub := some (.fp p)
          pubValid := true }
        evs left (some (.pressure s.eng.oss)) .ok (some (.f64 t)) (some (.f64 p))))

/-- R204, R252, R254: a bus failure in GET_DATA at each of its four transactions, in either variant: BusError with that
register and direction, no later event, and of the registers only SEQ written. That a failed trigger leaves the sensor's
conversion record is the model's choice (DESIGN CHOICE, log 4). -/
def Obligations.GetDataBusFailures : Prop :=
  ∀ (s : State) (a b d : Byte × Byte × Byte) (left : List BusAnswer), s.eng.initState = .ready →
    let first := [wr s 0xF4 0x2E true, BusEvent.delay 5, rd s 0xF6 2 (some [b.1, b.2.1])]
    let second := [wr s 0xF4 (trigger s.eng.oss) true, BusEvent.delay (settle s.eng.oss)]
    (s.bus.answers = .fail :: left →
      exec .getData s = .next (after s (seqCleared s.eng) [wr s 0xF4 0x2E false] left s.bus.conv .busError
        (some (.busInfo 0x01F4)) none)) ∧
    (s.bus.answers = done a :: .fail :: left →
      exec .getData s = .next (after s (seqCleared s.eng)
        [wr s 0xF4 0x2E true, .delay 5, rd s 0xF6 2 none] left (some .temperature) .busError
        (some (.busInfo 0x00F6)) none)) ∧
    (tempSucceeds s (rawTemp [b.1, b.2.1]) → s.bus.answers = done a :: done b :: .fail :: left →
      exec .getData s = .next (after s (seqCleared s.eng)
        (first ++ [wr s 0xF4 (trigger s.eng.oss) false]) left (some .temperature) .busError
        (some (.busInfo 0x01F4)) none)) ∧
    (tempSucceeds s (rawTemp [b.1, b.2.1]) → s.bus.answers = done a :: done b :: done d :: .fail :: left →
      exec .getData s = .next (after s (seqCleared s.eng)
        (first ++ second ++ [rd s 0xF6 3 none]) left (some (.pressure s.eng.oss)) .busError
        (some (.busInfo 0x00F6)) none))

/-- R204, R254, R263, R270: a datapath exception in GET_DATA, in either variant: after a temperature exception the pressure
conversion is not started; after either, nothing is published and of the registers only SEQ is written. Only the arithmetic
exceptions can be raised there, each with its status and its stage's number. -/
def Obligations.GetDataDatapathExceptions : Prop :=
  ∀ (s : State) (a b d e : Byte × Byte × Byte) (left : List BusAnswer) (x : Exc), s.eng.initState = .ready →
    let first := [wr s 0xF4 0x2E true, BusEvent.delay 5, rd s 0xF6 2 (some [b.1, b.2.1])]
    let second := [wr s 0xF4 (trigger s.eng.oss) true, BusEvent.delay (settle s.eng.oss),
      rd s 0xF6 3 (some [e.1, e.2.1, e.2.2])]
    (tempRaises s (rawTemp [b.1, b.2.1]) x → s.bus.answers = done a :: done b :: left →
      ∃ st v, datapathAnswer x = some (st, v) ∧
        exec .getData s = .next (after s (seqCleared s.eng) first left (some .temperature) st (some v) none)) ∧
    (pressRaises s (rawTemp [b.1, b.2.1]) (rawPress [e.1, e.2.1, e.2.2] s.eng.oss) x →
      s.bus.answers = done a :: done b :: done d :: done e :: left →
      ∃ st v, datapathAnswer x = some (st, v) ∧
        exec .getData s = .next (after s (seqCleared s.eng) (first ++ second) left (some (.pressure s.eng.oss))
          st (some v) none))

/-- R231: CAPTURE_REF does what GET_DATA does, and on success also sets REF_P to the pressure published and REF_VALID. -/
def Obligations.CaptureRefIsGetDataPlusReference : Prop :=
  ∀ s : State,
    (∀ t, exec .getData s = .next t →
      exec .captureRef s = .next
        (if lastStatus t = some .ok then { t with eng := { t.eng with refP := t.eng.pPub, refValid := true } } else t)) ∧
    (∀ r, exec .getData s = .fault r → exec .captureRef s = .fault r)

/-- R231: CAPTURE_REF in both variants with every transaction completed: the response (OK, T, P), the pair published, and P
kept as the reference. -/
def Obligations.CaptureRefKeepsThePressure : Prop :=
  ∀ (s : State) (a b d e : Byte × Byte × Byte) (left : List BusAnswer),
    s.eng.initState = .ready → s.bus.answers = done a :: done b :: done d :: done e :: left →
    let evs := [wr s 0xF4 0x2E true, BusEvent.delay 5, rd s 0xF6 2 (some [b.1, b.2.1]),
      wr s 0xF4 (trigger s.eng.oss) true, BusEvent.delay (settle s.eng.oss), rd s 0xF6 3 (some [e.1, e.2.1, e.2.2])]
    (∀ (c : Cal) (b5 t p : Int), s.cfg.variant = .int → s.eng.cal = some c →
      tcompInt c (rawTemp [b.1, b.2.1]) = .ok (b5, t) →
      pcompInt c b5 (rawPress [e.1, e.2.1, e.2.2] s.eng.oss) s.eng.oss = .ok p →
      exec .captureRef s = .next (after s
        { s.eng with
          b5 := some (BitVec.ofInt 32 b5)
          seq := .ready
          tPub := some (.int (BitVec.ofInt 32 t))
          pPub := some (.int (BitVec.ofInt 32 p))
          pubValid := true
          refP := some (.int (BitVec.ofInt 32 p))
          refValid := true }
        evs left (some (.pressure s.eng.oss)) .ok (some (.s32 (BitVec.ofInt 32 t))) (some (.s32 (BitVec.ofInt 32 p))))) ∧
    (∀ (k : Coeffs) (t p : F64), s.cfg.variant = .fp → s.eng.dc = some k →
      tcompFp k (rawTemp [b.1, b.2.1]) = .ok t →
      pcompFp k t (rawPress [e.1, e.2.1, e.2.2] s.eng.oss) s.eng.oss = .ok p →
      exec .captureRef s = .next (after s
        { s.eng with
          tc := some t
          seq := .ready
          tPub := some (.fp t)
          pPub := some (.fp p)
          pubValid := true
          refP := some (.fp p)
          refValid := true }
        evs left (some (.pressure s.eng.oss)) .ok (some (.f64 t)) (some (.f64 p))))

/-! ## Altitude -/

/-- R230, R255, R270: without a captured reference GET_ALT raises NoReferencePressure in every INIT_STATE; with one it answers
`ALT(P_PUB, REF_P)`, or the number of the stage that raised, and writes nothing. -/
def Obligations.GetAltAnswersFromPublishedAndReference : Prop :=
  ∀ (s : State) (p r : Quantity),
    (s.eng.refValid = false → exec .getAlt s = .next (afterQuiet s s.eng .noReferencePressure none none)) ∧
    (s.eng.refValid = true → s.eng.pPub = some p → s.eng.refP = some r →
      (∀ a, altitude (quantityF64 p) (quantityF64 r) = .ok a →
        exec .getAlt s = .next (afterQuiet s s.eng .ok (some (.f64 a)) none)) ∧
      (∀ st, altitude (quantityF64 p) (quantityF64 r) = .error (.numericDomain st) →
        exec .getAlt s = .next (afterQuiet s s.eng .numericDomain (some (.stageCode (stageNumber st))) none)))

/-- R230 (b), R233 property 1: with the published pressure equal to a finite positive reference, GET_ALT answers exactly
0.0. -/
def Obligations.GetAltAtTheReferenceIsZero : Prop :=
  ∀ (s : State) (p : Quantity), s.eng.refValid = true → s.eng.pPub = some p → s.eng.refP = some p →
    f64IsFinite (quantityF64 p) = true → 0 < f64Rat (quantityF64 p) →
    exec .getAlt s = .next (afterQuiet s s.eng .ok (some (.f64 0)) none)

/-- R232: the domain checks in their order, the altitude of a zero pressure, and the formula with its last check. -/
def Obligations.AltitudeDomainAndFormula : Prop :=
  ∀ p r : F64, f64IsFinite p = true → f64IsFinite r = true →
    let ratio := fdiv p r
    let alt := fmul 0x40E5A54000000000 (fsub 0x3FF0000000000000 (Config.pow64 ratio 0x3FC85B95CCE244A4))
    (f64Rat r ≤ 0 → altitude p r = .error (.numericDomain .altRef)) ∧
    (0 < f64Rat r → flt ratio 0 = true → altitude p r = .error (.numericDomain .altRatio)) ∧
    (0 < f64Rat r → f64Rat p = 0 → altitude p r = .ok 0x40E5A54000000000) ∧
    (0 < f64Rat r → flt ratio 0 = false →
      altitude p r = if f64IsFinite alt = true then .ok alt else .error (.numericDomain .altRes))

/-- R230 (c), R233 property 4: a pressure at or above the reference gives no positive altitude, and one at or below gives no
negative altitude, whatever admissible power function the engine has. That this holds also where the ratio overflows to an
infinity rests on the model's reading of property 4 at +∞ (DEDUCED, log 5). -/
def Obligations.AltitudeSignFollowsThePressure : Prop :=
  ∀ p r a : F64, f64IsFinite p = true → f64IsFinite r = true → 0 < f64Rat r → altitude p r = .ok a →
    (f64Rat r ≤ f64Rat p → f64Rat a ≤ 0) ∧ (f64Rat p ≤ f64Rat r → 0 ≤ f64Rat a)

/-! ## Binary64 -/

/-- R10, R170: on finite operands each operation gives a finite value exactly when the exact result lies below the overflow
limit, and that value is then nearest to the exact result; a divisor of zero gives no finite value. -/
def Obligations.FloatOperationsRoundToNearest : Prop :=
  ∀ a b : F64, f64IsFinite a = true → f64IsFinite b = true →
    roundsTo (f64Rat a + f64Rat b) (fadd a b) ∧
    roundsTo (f64Rat a - f64Rat b) (fsub a b) ∧
    roundsTo (f64Rat a * f64Rat b) (fmul a b) ∧
    (f64Rat b ≠ 0 → roundsTo (f64Rat a / f64Rat b) (fdiv a b)) ∧
    (f64Rat b = 0 → f64IsFinite (fdiv a b) = false)

/-- R10: "ties to even": where two finite values of neighbouring magnitudes are equally near to an exact product, the one
with the even pattern results. -/
def Obligations.FloatTiesGoToEven : Prop :=
  ∀ (num den m : Nat), 0 < den → m + 1 < magInf →
    2 * num = (magUnits m + magUnits (m + 1)) * den →
    roundMag num den = if m % 2 = 0 then m else m + 1

/-- R10: `f64(n)` is exact for |n| < 2^53; R174: the division of a raw pressure by a power of two is exact. -/
def Obligations.FloatConversionsAreExact : Prop :=
  (∀ n : Int, -(2 ^ 53) < n → n < 2 ^ 53 → f64IsFinite (f64OfInt n) = true ∧ f64Rat (f64OfInt n) = n) ∧
  (∀ (rawP : BitVec 19) (oss : BitVec 2),
    f64Rat (fdiv (f64OfInt rawP.toNat) (f64OfInt (2 ^ oss.toNat))) = (rawP.toNat : ℚ) / 2 ^ oss.toNat)

/-! ## The sensor's side -/

/-- R57, R79: the sensor command bytes start the conversion they name or reset the sensor, and touch nothing else; they are
the bytes, at the registers, of the engine's own sensor commands. That SOFT_RESET leaves no conversion is the model's choice
(DESIGN CHOICE, log 4). -/
def Obligations.SensorCommandsStartConversions : Prop :=
  ∀ (s : State) (oss : BitVec 2),
    exec .trigT s = .next { s with bus := { s.bus with conv := some .temperature } } ∧
    exec (.trigP oss) s = .next { s with bus := { s.bus with conv := some (.pressure oss) } } ∧
    exec .softReset s = .next { s with bus := { s.bus with conv := none } } ∧
    (sensorReg (.start .temperature) = 0xF4 ∧ encode .trigT = .sensor (sensorByte (.start .temperature))) ∧
    (sensorReg (.start (.pressure oss)) = 0xF4 ∧ encode (.trigP oss) = .sensor (sensorByte (.start (.pressure oss)))) ∧
    (sensorReg .softReset = 0xE0 ∧ encode .softReset = .sensor (sensorByte .softReset)) ∧
    sensorByte (.start (.pressure oss)) = trigger oss

/-! ## Rules over all operations -/

/-- R39, R280: what engine reset leaves, for every choice of the parameters. -/
def Obligations.ResetStateOfTheEngine : Prop :=
  ∀ p : Params,
    let s := State.resetWith p
    s.cfg = p ∧ s.eng.seq = .awaitingTemperature ∧ s.eng.initState = .uninit ∧ s.eng.oss = 0 ∧
    s.eng.pubValid = false ∧ s.eng.refValid = false ∧
    s.eng.cal = none ∧ s.eng.dc = none ∧ s.eng.b5 = none ∧ s.eng.tc = none ∧ s.eng.tPub = none ∧ s.eng.pPub = none ∧
    s.eng.refP = none ∧ s.bus.trace = [] ∧ s.port.cmds = [] ∧ s.port.responses = []

/-- R38, R172, R20: every invariant holds after reset, for every choice of the parameters. -/
def Obligations.ResetMeetsTheInvariants : Prop :=
  ∀ p : Params, EngineInv (State.resetWith p) ∧ TypeInv (State.resetWith p) ∧ FiniteInv (State.resetWith p) ∧
    PressureInv (State.resetWith p)

/-- R38 items 1 to 4: every step keeps the session invariant. -/
def Obligations.StepKeepsSessionInvariant : Prop :=
  ∀ s t : State, SessionInv s → step s = .next t → SessionInv t

/-- R38 item 5, R103: every step keeps it that in Ready CAL is loaded and DC is `DERIVE_FN(CAL)`. -/
def Obligations.StepKeepsCalibrationInvariant : Prop :=
  ∀ s t : State, CalInv s → step s = .next t → CalInv t

/-- R40: from a state with the invariant, a step meets no model fault and keeps the whole invariant. -/
def Obligations.StepNeverReadsAnAbsentRegister : Prop :=
  ∀ s : State, EngineInv s → SafeStep s ∧ ∀ t, step s = .next t → EngineInv t

/-- R20, R31, R32: every step keeps each register at its variant's type. -/
def Obligations.StepKeepsVariantTypes : Prop :=
  ∀ s t : State, TypeInv s → step s = .next t → TypeInv t

/-- R172, R171: no infinity and no NaN is ever stored in TC, T_PUB, P_PUB, REF_P or a coefficient of DC, nor returned in a
response. For DC this rests on the model's DERIVE_FN (PRESUMED, log 6). -/
def Obligations.NoNonFiniteValueStoredOrReturned : Prop :=
  ∀ s t : State, FiniteInv s → step s = .next t →
    FiniteInv t ∧ ∀ r, t.port.responses = s.port.responses ++ [r] → valueFinite r.v0 ∧ valueFinite r.v1

/-- R231 (c): every step keeps it that a published or captured INT pressure is at least 1. -/
def Obligations.StepKeepsPressuresPositive : Prop :=
  ∀ s t : State, PressureInv s → step s = .next t → PressureInv t

/-- R70, R78, R250, R251: every host command that answers a next state puts exactly one response on the host port, of the
shape R78 gives it, and leaves the waiting words. -/
def Obligations.OneResponsePerCommand : Prop :=
  ∀ (i : Instr) (s t : State), hostCommand i = true → exec i s = .next t →
    t.port.cmds = s.port.cmds ∧ t.cfg = s.cfg ∧ t.bus.pending = s.bus.pending ∧
    ∃ r : Response, t.port.responses = s.port.responses ++ [r] ∧
      ((r.status = .ok ∧ okShape i s.cfg.variant r.v0 r.v1) ∨
       (r.status ≠ .ok ∧ failShape r.status r.v0 r.v1 ∧ mayRaise i s.cfg.variant r.status))

/-- R254, R264: when a host command raises, every engine register is as it was, but for the operation's abort writes. -/
def Obligations.RaiseLeavesOnlyAbortWrites : Prop :=
  ∀ (i : Instr) (s t : State) (r : Response), hostCommand i = true → exec i s = .next t →
    t.port.responses = s.port.responses ++ [r] → r.status ≠ .ok → t.eng = abortedEngine i r.status s.eng

/-- R28: SEQ after every operation. -/
def Obligations.SeqFollowsTheTable : Prop :=
  ∀ (i : Instr) (s t : State) (r : Response), hostCommand i = true → exec i s = .next t →
    t.port.responses = s.port.responses ++ [r] →
    t.eng.seq = seqAfter i (decide (r.status = .ok))
      (decide (r.status = .identityMismatch ∨ r.status = .notInitialized ∨ r.status = .sequenceViolation)) s.eng.seq

/-- R3, R23 to R26, R29 to R32: which instructions can write which registers; the parameters are never written. -/
def Obligations.RegistersHaveTheirWriters : Prop :=
  ∀ (i : Instr) (s t : State), exec i s = .next t →
    t.cfg = s.cfg ∧
    (i ≠ .init → t.eng.cal = s.eng.cal ∧ t.eng.dc = s.eng.dc) ∧
    (isSetOss i = false → t.eng.oss = s.eng.oss) ∧
    (isCycle i = false → isCompT i = false → t.eng.b5 = s.eng.b5 ∧ t.eng.tc = s.eng.tc) ∧
    (isCycle i = false → t.eng.tPub = s.eng.tPub ∧ t.eng.pPub = s.eng.pPub) ∧
    (i ≠ .captureRef → t.eng.refP = s.eng.refP) ∧
    (i ≠ .init → i ≠ .reset → t.eng.initState = s.eng.initState) ∧
    (i ≠ .init → i ≠ .reset → isCycle i = false → t.eng.pubValid = s.eng.pubValid) ∧
    (i ≠ .init → i ≠ .reset → i ≠ .captureRef → t.eng.refValid = s.eng.refValid) ∧
    (writesNothing i = true → t.eng = s.eng)

/-- R55, R50, R252: an operation adds to the trace only allowed events of its own device, and a failed transaction only as
the last; R287: COMP_T, COMP_P, SET_OSS and GET_ALT leave the bus as it is. -/
def Obligations.BusTraceHoldsOnlyAllowedEvents : Prop :=
  ∀ (i : Instr) (s t : State), exec i s = .next t →
    (∃ evs, t.bus.trace = s.bus.trace ++ evs ∧ evs.all (allowedEvent s.cfg.devAddr) = true ∧
      failsOnlyLast evs = true) ∧
    (isQuiet i = true → t.bus = s.bus)

/-- R263, R253, R258, R259: the gates, in their order, before anything else. -/
def Obligations.GatesComeFirstInOrder : Prop :=
  ∀ (s : State) (oss : BitVec 2) (rawT : BitVec 16) (rawP : BitVec 19),
    (s.eng.initState = .identityFailed →
      ∀ i ∈ [Instr.measureT, .measureP oss, .compT rawT, .compP oss rawP, .getData, .captureRef],
        exec i s = .next (afterQuiet s s.eng .identityMismatch none none)) ∧
    (s.eng.initState = .uninit →
      ∀ i ∈ [Instr.compT rawT, .compP oss rawP, .getData, .captureRef],
        exec i s = .next (afterQuiet s s.eng .notInitialized none none)) ∧
    (s.eng.initState = .ready → s.eng.seq ≠ .awaitingPressure →
      exec (.compP oss rawP) s = .next (afterQuiet s s.eng .sequenceViolation none none))

/-- R250, R288: from every state with the invariant, every host command completes with a next state and one response. -/
def Obligations.EveryCommandIsAnswered : Prop :=
  ∀ (i : Instr) (s : State), hostCommand i = true → EngineInv s →
    ∃ (t : State) (r : Response), exec i s = .next t ∧ t.port.responses = s.port.responses ++ [r]

/-- R288, R70, R268: a run over any finite list of command words, legal or not, on any bus answers, serves every word with
one response and meets no fault and no refusal. -/
def Obligations.EveryRunServesItsCommands : Prop :=
  ∀ s : State, EngineInv s → s.bus.pending = none →
    ∃ t : State, Host.Core.run Sys2Proof.core s.port.cmds.length s = .next t ∧ t.port.cmds = [] ∧
      t.port.responses.length = s.port.responses.length + s.port.cmds.length ∧ EngineInv t

/-! ## DERIVE_FN -/

/-- R171: the sixteen coefficients, with the constant factors at the patterns of R171's table of them and p0, p1, p2 at those of
its example; and "Every value is finite for every calibration set". The formulas are the spec's default, taken from general
knowledge (PRESUMED, log 6). -/
def Obligations.DeriveFnFollowsTheFormulas : Prop :=
  ∀ c : Cal,
    let k := deriveFn c
    k.c3 = fmul 0x3F74000000000000 (f64OfInt (valAC3 c)) ∧
    k.c4 = fmul 0x3E60624DD2F1A9FC (f64OfInt (valAC4 c)) ∧
    k.b1 = fmul 0x3EF9000000000000 (f64OfInt (valB1 c)) ∧
    k.c5 = fmul 0x3E8999999999999A (f64OfInt (valAC5 c)) ∧
    k.c6 = f64OfInt (valAC6 c) ∧
    k.mc = fmul 0x3FB47AE147AE147B (f64OfInt (valMC c)) ∧
    k.md = fdiv (f64OfInt (valMD c)) 0x4064000000000000 ∧
    k.x0 = f64OfInt (valAC1 c) ∧
    k.x1 = fmul 0x3F94000000000000 (f64OfInt (valAC2 c)) ∧
    k.x2 = fmul 0x3F49000000000000 (f64OfInt (valB2 c)) ∧
    k.y0 = fmul k.c4 0x40E0000000000000 ∧
    k.y1 = fmul k.c4 k.c3 ∧
    k.y2 = fmul k.c4 k.b1 ∧
    k.p0 = 0x406D8E0000000000 ∧ k.p1 = 0x4058D318B0000000 ∧ k.p2 = 0x3F3CF8FE00000000 ∧
    k.isFinite = true
end

