-- ==== Sys2Proof/Laws/State.lean ====
section
/-! SUPPORT. What each update of the state leaves in each part of it, one simp lemma per part per operation. -/

namespace Sys2Proof.Machine

/-! ## pushResponse, respond, raiseExc -/

@[simp] theorem pushResponse_cfg (r : Response) (s : State) : (pushResponse r s).cfg = s.cfg := rfl
@[simp] theorem pushResponse_eng (r : Response) (s : State) : (pushResponse r s).eng = s.eng := rfl
@[simp] theorem pushResponse_bus (r : Response) (s : State) : (pushResponse r s).bus = s.bus := rfl
@[simp] theorem pushResponse_cmds (r : Response) (s : State) : (pushResponse r s).port.cmds = s.port.cmds := rfl
@[simp] theorem pushResponse_responses (r : Response) (s : State) :
    (pushResponse r s).port.responses = s.port.responses ++ [r] := rfl

@[simp] theorem respond_cfg (v0 v1 : Option Value) (s : State) : (respond v0 v1 s).cfg = s.cfg := rfl
@[simp] theorem respond_eng (v0 v1 : Option Value) (s : State) : (respond v0 v1 s).eng = s.eng := rfl
@[simp] theorem respond_bus (v0 v1 : Option Value) (s : State) : (respond v0 v1 s).bus = s.bus := rfl
@[simp] theorem respond_cmds (v0 v1 : Option Value) (s : State) : (respond v0 v1 s).port.cmds = s.port.cmds := rfl
@[simp] theorem respond_responses (v0 v1 : Option Value) (s : State) :
    (respond v0 v1 s).port.responses = s.port.responses ++ [{ status := .ok, v0 := v0, v1 := v1 }] := rfl

@[simp] theorem raiseExc_cfg (e : Exc) (s : State) : (raiseExc e s).cfg = s.cfg := rfl
@[simp] theorem raiseExc_eng (e : Exc) (s : State) : (raiseExc e s).eng = s.eng := rfl
@[simp] theorem raiseExc_bus (e : Exc) (s : State) : (raiseExc e s).bus = s.bus := rfl
@[simp] theorem raiseExc_cmds (e : Exc) (s : State) : (raiseExc e s).port.cmds = s.port.cmds := rfl
@[simp] theorem raiseExc_responses (e : Exc) (s : State) :
    (raiseExc e s).port.responses = s.port.responses ++ [{ status := excStatus e, v0 := excInfo e, v1 := none }] := rfl

/-! ## logEvent, delay -/

@[simp] theorem logEvent_cfg (e : BusEvent) (s : State) : (logEvent e s).cfg = s.cfg := rfl
@[simp] theorem logEvent_eng (e : BusEvent) (s : State) : (logEvent e s).eng = s.eng := rfl
@[simp] theorem logEvent_port (e : BusEvent) (s : State) : (logEvent e s).port = s.port := rfl
@[simp] theorem logEvent_answers (e : BusEvent) (s : State) : (logEvent e s).bus.answers = s.bus.answers := rfl
@[simp] theorem logEvent_freeIdx (e : BusEvent) (s : State) : (logEvent e s).bus.freeIdx = s.bus.freeIdx := rfl
@[simp] theorem logEvent_trace (e : BusEvent) (s : State) : (logEvent e s).bus.trace = s.bus.trace ++ [e] := rfl
@[simp] theorem logEvent_pending (e : BusEvent) (s : State) : (logEvent e s).bus.pending = s.bus.pending := rfl
@[simp] theorem logEvent_conv (e : BusEvent) (s : State) : (logEvent e s).bus.conv = s.bus.conv := rfl

/-! ## sensorTake -/

@[simp] theorem sensorTake_cfg (c : SensorCmd) (s : State) : (sensorTake c s).cfg = s.cfg := by cases c <;> rfl
@[simp] theorem sensorTake_eng (c : SensorCmd) (s : State) : (sensorTake c s).eng = s.eng := by cases c <;> rfl
@[simp] theorem sensorTake_port (c : SensorCmd) (s : State) : (sensorTake c s).port = s.port := by cases c <;> rfl
@[simp] theorem sensorTake_answers (c : SensorCmd) (s : State) : (sensorTake c s).bus.answers = s.bus.answers := by
  cases c <;> rfl
@[simp] theorem sensorTake_freeIdx (c : SensorCmd) (s : State) : (sensorTake c s).bus.freeIdx = s.bus.freeIdx := by
  cases c <;> rfl
@[simp] theorem sensorTake_trace (c : SensorCmd) (s : State) : (sensorTake c s).bus.trace = s.bus.trace := by
  cases c <;> rfl
@[simp] theorem sensorTake_pending (c : SensorCmd) (s : State) : (sensorTake c s).bus.pending = s.bus.pending := by
  cases c <;> rfl
@[simp] theorem sensorTake_start_conv (k : Conversion) (s : State) : (sensorTake (.start k) s).bus.conv = some k := rfl
@[simp] theorem sensorTake_softReset_conv (s : State) : (sensorTake .softReset s).bus.conv = none := rfl

/-! ## nextAnswer -/

@[simp] theorem nextAnswer_cfg (s : State) : (nextAnswer s).2.cfg = s.cfg := by unfold nextAnswer; split <;> rfl
@[simp] theorem nextAnswer_eng (s : State) : (nextAnswer s).2.eng = s.eng := by unfold nextAnswer; split <;> rfl
@[simp] theorem nextAnswer_port (s : State) : (nextAnswer s).2.port = s.port := by unfold nextAnswer; split <;> rfl
@[simp] theorem nextAnswer_trace (s : State) : (nextAnswer s).2.bus.trace = s.bus.trace := by
  unfold nextAnswer; split <;> rfl
@[simp] theorem nextAnswer_pending (s : State) : (nextAnswer s).2.bus.pending = s.bus.pending := by
  unfold nextAnswer; split <;> rfl
@[simp] theorem nextAnswer_conv (s : State) : (nextAnswer s).2.bus.conv = s.bus.conv := by
  unfold nextAnswer; split <;> rfl

/-- With an answer listed, the oracle gives it and takes it off the list. -/
theorem nextAnswer_listed (s : State) (a : BusAnswer) (rest : List BusAnswer) (h : s.bus.answers = a :: rest) :
    nextAnswer s = (a, { s with bus := { s.bus with answers := rest } }) := by
  unfold nextAnswer; rw [h]

/-- With none listed, the answer is the next free value and the counter advances. -/
theorem nextAnswer_free (s : State) (h : s.bus.answers = []) :
    nextAnswer s =
      (Config.busOracle s.bus.freeIdx, { s with bus := { s.bus with freeIdx := s.bus.freeIdx + 1 } }) := by
  unfold nextAnswer; rw [h]

end Sys2Proof.Machine
end

