-- ==== Sys2Proof/Laws/Bus.lean ====
section
/-! SUPPORT. What bus transactions can do: the spec lemmas of the oracle, of `busRead`, `busWrite`, `acquire` and of the loads built
from them. -/

namespace Sys2Proof.Machine

/-! ## Scripted transactions: the answer is listed -/

theorem busRead_done (reg : Byte) (n : Nat) (s : State) (b0 b1 b2 : Byte) (rest : List BusAnswer)
    (h : s.bus.answers = .done b0 b1 b2 :: rest) :
    busRead reg n s =
      (.ok ([b0, b1, b2].take n),
       { s with bus := { s.bus with
          answers := rest
          trace := s.bus.trace ++ [.read s.cfg.devAddr reg n (some ([b0, b1, b2].take n))] } }) := by
  unfold busRead; rw [nextAnswer_listed s _ _ h]; rfl

theorem busRead_fail (reg : Byte) (n : Nat) (s : State) (rest : List BusAnswer)
    (h : s.bus.answers = .fail :: rest) :
    busRead reg n s =
      (.error (.busError .read reg),
       { s with bus := { s.bus with
          answers := rest
          trace := s.bus.trace ++ [.read s.cfg.devAddr reg n none] } }) := by
  unfold busRead; rw [nextAnswer_listed s _ _ h]; rfl

theorem busWrite_done (c : SensorCmd) (s : State) (b0 b1 b2 : Byte) (rest : List BusAnswer)
    (h : s.bus.answers = .done b0 b1 b2 :: rest) :
    busWrite c s =
      (.ok (), sensorTake c { s with bus := { s.bus with
          answers := rest
          trace := s.bus.trace ++ [.write s.cfg.devAddr (sensorReg c) (sensorByte c) true] } }) := by
  unfold busWrite; rw [nextAnswer_listed s _ _ h]; rfl

theorem busWrite_fail (c : SensorCmd) (s : State) (rest : List BusAnswer)
    (h : s.bus.answers = .fail :: rest) :
    busWrite c s =
      (.error (.busError .write (sensorReg c)),
       { s with bus := { s.bus with
          answers := rest
          trace := s.bus.trace ++ [.write s.cfg.devAddr (sensorReg c) (sensorByte c) false] } }) := by
  unfold busWrite; rw [nextAnswer_listed s _ _ h]; rfl

/-! ## Any answer: what a sequence of transactions leaves -/

/-- From `s` to `t` only bus transactions and delays happened, all of an allowed form; with `ok`, all completed; else only
the last one may have failed. -/
structure BusRun (ok : Bool) (s t : State) : Prop where
  cfg     : t.cfg = s.cfg
  port    : t.port = s.port
  pending : t.bus.pending = s.bus.pending
  trace   : ∃ evs, t.bus.trace = s.bus.trace ++ evs ∧ evs.all (allowedEvent s.cfg.devAddr) = true ∧
    failsOnlyLast evs = true ∧ (ok = true → evs.all (fun e => !eventFailed e) = true)

theorem failsOnlyLast_append (a b : List BusEvent) (ha : a.all (fun e => !eventFailed e) = true)
    (hb : failsOnlyLast b = true) : failsOnlyLast (a ++ b) = true := by
  induction a with
  | nil => exact hb
  | cons e a ih =>
    simp only [List.all_cons, Bool.and_eq_true, Bool.not_eq_true'] at ha
    simp only [List.cons_append, failsOnlyLast, ha.1]
    exact ih ha.2

theorem busRun_refl (ok : Bool) (s : State) : BusRun ok s s :=
  ⟨rfl, rfl, rfl, [], by simp [failsOnlyLast]⟩

theorem busRun_trans {ok : Bool} {s t u : State} (h1 : BusRun true s t) (h2 : BusRun ok t u) : BusRun ok s u := by
  obtain ⟨e1, t1, a1, _, o1⟩ := h1.trace
  obtain ⟨e2, t2, a2, f2, o2⟩ := h2.trace
  refine ⟨h2.cfg.trans h1.cfg, h2.port.trans h1.port, h2.pending.trans h1.pending, e1 ++ e2, ?_, ?_, ?_, ?_⟩
  · rw [t2, t1, List.append_assoc]
  · rw [List.all_append, a1, ← h1.cfg, a2]; rfl
  · exact failsOnlyLast_append _ _ (o1 rfl) f2
  · intro ho; rw [List.all_append, o1 rfl, o2 ho]; rfl

/-- A state that differs from `t` in the engine registers only ends the same bus run. -/
theorem busRun_withEng {ok : Bool} {s t : State} (g : Engine) (h : BusRun ok s t) : BusRun ok s { t with eng := g } :=
  ⟨h.cfg, h.port, h.pending, h.trace⟩

theorem busRun_fromEng {ok : Bool} {s t : State} (g : Engine) (h : BusRun ok { s with eng := g } t) : BusRun ok s t :=
  ⟨h.cfg, h.port, h.pending, h.trace⟩

/-- One more event after a run that completed. -/
theorem busRun_event (ok : Bool) (s t : State) (e : BusEvent) (hc : t.cfg = s.cfg) (hp : t.port = s.port)
    (hq : t.bus.pending = s.bus.pending) (ht : t.bus.trace = s.bus.trace ++ [e])
    (ha : allowedEvent s.cfg.devAddr e = true) (ho : ok = true → eventFailed e = false) : BusRun ok s t :=
  ⟨hc, hp, hq, [e], ht, by simp [ha], by cases h : eventFailed e <;> simp [failsOnlyLast, h],
    fun h => by simp [ho h]⟩

/-- A result that is no exception. -/
def isOk {α : Type} (r : Except Exc α) : Bool :=
  match r with
  | .ok _ => true
  | .error _ => false

@[simp] theorem isOk_ok {α : Type} (a : α) : isOk (.ok a : Except Exc α) = true := rfl
@[simp] theorem isOk_error {α : Type} (e : Exc) : isOk (.error e : Except Exc α) = false := rfl

/-- The bus sequence `x` begun in `s`: it is a bus run, leaves the engine registers, and can only raise BusError. -/
structure BusTx {α : Type} (s : State) (x : Tx α) : Prop where
  run : BusRun (isOk x.1) s x.2
  eng : x.2.eng = s.eng
  err : ∀ e, x.1 = .error e → ∃ d r, e = .busError d r

theorem busTx_ok {α : Type} (s : State) (a : α) : BusTx s (.ok a, s) :=
  ⟨busRun_refl _ s, rfl, by simp⟩

theorem busTx_bind {α β : Type} {s : State} {x : Tx α} {f : α → State → Tx β} (hx : BusTx s x)
    (hf : ∀ a t, x = (.ok a, t) → BusTx t (f a t)) : BusTx s (txBind x f) := by
  rcases x with ⟨r, t⟩
  cases r with
  | ok a =>
    have h := hf a t rfl
    exact ⟨busRun_trans hx.run h.run, h.eng.trans hx.eng, h.err⟩
  | error e => exact ⟨hx.run, hx.eng, fun e' he => hx.err e (by simp)|>.imp fun d ⟨r, hr⟩ => ⟨r, by cases he; exact hr⟩⟩

/-- `busRead` of an allowed form. -/
theorem busRead_busTx (reg : Byte) (n : Nat) (s : State) (hr : allowedRead reg n = true) (hn : n ≤ 3) :
    BusTx s (busRead reg n s) := by
  have hlen : ∀ b0 b1 b2 : Byte, ([b0, b1, b2].take n).length = n := fun b0 b1 b2 => by
    simp; omega
  unfold busRead
  split
  · rename_i s1 heq
    have h : s1 = (nextAnswer s).2 := by rw [heq]
    subst h
    exact ⟨busRun_event _ _ _ (.read s.cfg.devAddr reg n none) (by simp) (by simp) (by simp) (by simp)
      (by simp [allowedEvent, hr]) (by simp), by simp, by simp⟩
  · rename_i b0 b1 b2 s1 heq
    have h : s1 = (nextAnswer s).2 := by rw [heq]
    subst h
    exact ⟨busRun_event _ _ _ (.read s.cfg.devAddr reg n (some ([b0, b1, b2].take n))) (by simp) (by simp) (by simp)
      (by simp) (by simp only [allowedEvent, hr, hlen]; simp) (by simp [eventFailed]), by simp, by simp⟩

theorem busWrite_busTx (c : SensorCmd) (s : State) : BusTx s (busWrite c s) := by
  have hw : allowedWrite (sensorReg c) (sensorByte c) = true := by
    cases c with
    | softReset => rfl
    | start k =>
      cases k with
      | temperature => rfl
      | pressure oss => revert oss; decide
  unfold busWrite
  split
  · rename_i s1 heq
    have h : s1 = (nextAnswer s).2 := by rw [heq]
    subst h
    exact ⟨busRun_event _ _ _ (.write s.cfg.devAddr (sensorReg c) (sensorByte c) false) (by simp) (by simp) (by simp)
      (by simp) (by simp [allowedEvent, hw]) (by simp), by simp, by simp⟩
  · rename_i b0 b1 b2 s1 heq
    have h : s1 = (nextAnswer s).2 := by rw [heq]
    subst h
    exact ⟨busRun_event _ _ _ (.write s.cfg.devAddr (sensorReg c) (sensorByte c) true) (by simp) (by simp) (by simp)
      (by simp) (by simp [allowedEvent, hw]) (by simp [eventFailed]), by simp, by simp⟩

theorem delay_busRun (ms : Nat) (s : State) (h : allowedDelay ms = true) : BusRun true s (delay ms s) :=
  busRun_event _ _ _ (.delay ms) rfl rfl rfl rfl (by simp [allowedEvent, h]) (by simp [eventFailed])

theorem acquire_busTx (c : Conversion) (ms n : Nat) (s : State) (hr : allowedRead 0xF6 n = true) (hn : n ≤ 3)
    (hd : allowedDelay ms = true) : BusTx s (acquire c ms n s) :=
  busTx_bind (busWrite_busTx _ s) fun _ t _ => by
    have h := busRead_busTx 0xF6 n (delay ms t) hr hn
    exact ⟨busRun_trans (delay_busRun ms t hd) h.run, h.eng, h.err⟩

/-! ## One conversion, by the answers listed for it -/

theorem acquire_fail (c : Conversion) (ms n : Nat) (s : State) (rest : List BusAnswer) (h : s.bus.answers = .fail :: rest) :
    acquire c ms n s = (.error (.busError .write 0xF4),
      { s with
        bus := { s.bus with
          answers := rest
          trace := s.bus.trace ++ [.write s.cfg.devAddr 0xF4 (sensorByte (.start c)) false] } }) := by
  unfold acquire; rw [busWrite_fail _ _ _ h]; rfl

theorem acquire_done_fail (c : Conversion) (ms n : Nat) (s : State) (a0 a1 a2 : Byte) (rest : List BusAnswer)
    (h : s.bus.answers = .done a0 a1 a2 :: .fail :: rest) :
    acquire c ms n s = (.error (.busError .read 0xF6),
      { s with
        bus := { s.bus with
          answers := rest
          conv := some c
          trace := s.bus.trace ++
            [.write s.cfg.devAddr 0xF4 (sensorByte (.start c)) true, .delay ms, .read s.cfg.devAddr 0xF6 n none] } }) := by
  unfold acquire; rw [busWrite_done _ _ _ _ _ _ h]; simp only [txBind]; rw [busRead_fail _ _ _ rest rfl]
  simp [delay, logEvent, sensorTake, sensorReg]

theorem acquire_done (c : Conversion) (ms n : Nat) (s : State) (a0 a1 a2 b0 b1 b2 : Byte) (rest : List BusAnswer)
    (h : s.bus.answers = .done a0 a1 a2 :: .done b0 b1 b2 :: rest) :
    acquire c ms n s = (.ok ([b0, b1, b2].take n),
      { s with
        bus := { s.bus with
          answers := rest
          conv := some c
          trace := s.bus.trace ++
            [.write s.cfg.devAddr 0xF4 (sensorByte (.start c)) true, .delay ms,
              .read s.cfg.devAddr 0xF6 n (some ([b0, b1, b2].take n))] } }) := by
  unfold acquire; rw [busWrite_done _ _ _ _ _ _ h]; simp only [txBind]; rw [busRead_done _ _ _ _ _ _ rest rfl]
  simp [delay, logEvent, sensorTake, sensorReg]

end Sys2Proof.Machine
end

