-- ==== Sys2Proof/Laws/Encode.lean ====
section
/-! SUPPORT. The operand bounds every instruction meets, and what the encodings are as numbers and as bits. -/

namespace Sys2Proof

/-- Every instruction is well formed: the operands' types hold the bounds of R73 and R80. -/
theorem Laws.wellFormed_every (i : Instr) : i.wellFormed = true := by
  cases i <;> simp [Instr.wellFormed] <;> omega

/-- A mask test of R72, bit by bit. -/
theorem Laws.and_eq_iff (w m p : Word) :
    (w &&& m) = p ↔ ∀ i, i < 32 → (w.getLsbD i && m.getLsbD i) = p.getLsbD i := by
  constructor
  · intro h i _; rw [← h]; simp
  · intro h; apply BitVec.eq_of_getLsbD_eq; intro i hi; simpa using h i hi

/-- A field of `n` bits from bit `lo` on, bit by bit. -/
theorem Laws.field_eq (w : Word) (lo n v : Nat) (hv : v < 2 ^ n) :
    w.toNat / 2 ^ lo % 2 ^ n = v ↔ ∀ i, i < n → w.getLsbD (lo + i) = v.testBit i := by
  constructor
  · intro h i hi
    rw [← h, Nat.testBit_mod_two_pow, Nat.testBit_div_two_pow]
    simp [hi, BitVec.getLsbD, Nat.add_comm]
  · intro h
    apply Nat.eq_of_testBit_eq
    intro i
    rw [Nat.testBit_mod_two_pow, Nat.testBit_div_two_pow]
    rcases Nat.lt_or_ge i n with hi | hi
    · have := h i hi
      simp [hi, BitVec.getLsbD, Nat.add_comm] at this ⊢; exact this
    · rw [Nat.testBit_lt_two_pow (Nat.lt_of_lt_of_le hv (Nat.pow_le_pow_right (by decide) hi))]
      simp; omega

/-- R77: `OP << 28 | oss << 24 | raw` is the sum of its three fields. -/
theorem Laws.cmdWord_toNat (op : BitVec 4) (oss : BitVec 2) (raw : BitVec 19) :
    (cmdWord op oss raw).toNat = op.toNat * 2 ^ 28 + oss.toNat * 2 ^ 24 + raw.toNat := by
  have h1 : oss.toNat * 2 ^ 24 + raw.toNat = (oss.toNat * 2 ^ 24) ||| raw.toNat := by
    rw [← Nat.shiftLeft_eq, Nat.shiftLeft_add_eq_or_of_lt (by have := raw.isLt; omega)]
  have h2 : op.toNat * 2 ^ 28 + (oss.toNat * 2 ^ 24 + raw.toNat) =
      (op.toNat * 2 ^ 28) ||| (oss.toNat * 2 ^ 24 + raw.toNat) := by
    rw [← Nat.shiftLeft_eq (op.toNat), Nat.shiftLeft_add_eq_or_of_lt (by have := raw.isLt; have := oss.isLt; omega)]
  rw [Nat.add_assoc, h2, h1]
  simp only [cmdWord, BitVec.toNat_or, BitVec.toNat_shiftLeft, BitVec.toNat_setWidth, Nat.shiftLeft_eq, Nat.or_assoc]
  rw [Nat.mod_eq_of_lt (a := op.toNat) (by omega), Nat.mod_eq_of_lt (a := oss.toNat) (by omega),
    Nat.mod_eq_of_lt (a := raw.toNat) (by omega), Nat.mod_eq_of_lt (by omega), Nat.mod_eq_of_lt (by omega)]

end Sys2Proof
end

