-- ==== Sys2Proof/Laws/Operation.lean ====
section
/-! SUPPORT. What the threading of an operation can do: inversion of `txBind`, `runBind`, `conclude`, `concludeRun`, `gated`, and the
two compensation steps and the cycle built with them. -/

namespace Sys2Proof.Machine

/-! ## Inversion of the binds -/

theorem txBind_ok {α β : Type} {x : Tx α} {f : α → State → Tx β} {b : β} {t : State} (h : txBind x f = (.ok b, t)) :
    ∃ a u, x = (.ok a, u) ∧ f a u = (.ok b, t) := by
  rcases x with ⟨r, u⟩
  cases r with
  | ok a => exact ⟨a, u, rfl, h⟩
  | error e => simp [txBind] at h

theorem txBind_error {α β : Type} {x : Tx α} {f : α → State → Tx β} {e : Exc} {t : State}
    (h : txBind x f = (.error e, t)) : x = (.error e, t) ∨ ∃ a u, x = (.ok a, u) ∧ f a u = (.error e, t) := by
  rcases x with ⟨r, u⟩
  cases r with
  | ok a => exact .inr ⟨a, u, rfl, h⟩
  | error e' =>
    simp only [txBind, Prod.mk.injEq, Except.error.injEq] at h
    exact .inl (by rw [h.1, h.2])

theorem runBind_ok {α β : Type} {x : Run α} {f : α → State → Run β} {b : β} {t : State}
    (h : runBind x f = .next (.ok b, t)) : ∃ a u, x = .next (.ok a, u) ∧ f a u = .next (.ok b, t) := by
  rcases x with ⟨r, u⟩ | r | r
  · cases r with
    | ok a => exact ⟨a, u, rfl, h⟩
    | error e => simp [runBind] at h
  · simp [runBind] at h
  · simp [runBind] at h

theorem runBind_error {α β : Type} {x : Run α} {f : α → State → Run β} {e : Exc} {t : State}
    (h : runBind x f = .next (.error e, t)) :
    x = .next (.error e, t) ∨ ∃ a u, x = .next (.ok a, u) ∧ f a u = .next (.error e, t) := by
  rcases x with ⟨r, u⟩ | r | r
  · cases r with
    | ok a => exact .inr ⟨a, u, rfl, h⟩
    | error e' =>
      simp only [runBind, Host.Outcome.next.injEq, Prod.mk.injEq, Except.error.injEq] at h
      exact .inl (by rw [h.1, h.2])
  · simp [runBind] at h
  · simp [runBind] at h

theorem runBind_fault {α β : Type} {x : Run α} {f : α → State → Run β} {r : Fault} (h : runBind x f = .fault r) :
    x = .fault r ∨ ∃ a u, x = .next (.ok a, u) ∧ f a u = .fault r := by
  rcases x with ⟨q, u⟩ | q | q
  · cases q with
    | ok a => exact .inr ⟨a, u, rfl, h⟩
    | error e => simp [runBind] at h
  · exact .inl (by simpa [runBind] using h)
  · simp [runBind] at h

theorem runBind_refused {α β : Type} {x : Run α} {f : α → State → Run β} {r : Refusal} (h : runBind x f = .refused r) :
    x = .refused r ∨ ∃ a u, x = .next (.ok a, u) ∧ f a u = .refused r := by
  rcases x with ⟨q, u⟩ | q | q
  · cases q with
    | ok a => exact .inr ⟨a, u, rfl, h⟩
    | error e => simp [runBind] at h
  · simp [runBind] at h
  · exact .inl (by simpa [runBind] using h)

/-! ## Reading a register (R40) -/

@[simp] theorem withReg_some {α β : Type} (r : Reg) (v : α) (k : α → Host.Outcome β Fault Refusal) :
    withReg r (some v) k = k v := rfl

@[simp] theorem withReg_none {α β : Type} (r : Reg) (k : α → Host.Outcome β Fault Refusal) :
    withReg r none k = .fault (.absentRead r) := rfl

/-- A read that answers a next state met a value. -/
theorem withReg_next {α β : Type} {r : Reg} {held : Option α} {k : α → Host.Outcome β Fault Refusal} {b : β}
    (h : withReg r held k = .next b) : ∃ v, held = some v ∧ k v = .next b := by
  cases held with
  | none => cases h
  | some v => exact ⟨v, rfl, h⟩

/-- A read that stops met no value, or the steps after it stop. -/
theorem withReg_fault {α β : Type} {r : Reg} {held : Option α} {k : α → Host.Outcome β Fault Refusal} {f : Fault}
    (h : withReg r held k = .fault f) : held = none ∨ ∃ v, held = some v ∧ k v = .fault f := by
  cases held with
  | none => exact .inl rfl
  | some v => exact .inr ⟨v, rfl, h⟩

/-- A read is never refused; only the steps after it can be. -/
theorem withReg_refused {α β : Type} {r : Reg} {held : Option α} {k : α → Host.Outcome β Fault Refusal} {q : Refusal}
    (h : withReg r held k = .refused q) : ∃ v, held = some v ∧ k v = .refused q := by
  cases held with
  | none => cases h
  | some v => exact ⟨v, rfl, h⟩

/-! ## Inversion of the ends of an operation -/

/-- An operation ends with its response, or with its exception and its abort writes (R250, R254). -/
theorem conclude_cases (abort : Exc → Engine → Engine) (s0 : State) (x : Tx Values) :
    (∃ v0 v1 t, x = (.ok (v0, v1), t) ∧ conclude abort s0 x = respond v0 v1 t) ∨
    (∃ e t, x = (.error e, t) ∧ conclude abort s0 x = raiseExc e { t with eng := abort e s0.eng }) := by
  rcases x with ⟨r, t⟩
  cases r with
  | ok v => exact .inl ⟨v.1, v.2, t, rfl, rfl⟩
  | error e => exact .inr ⟨e, t, rfl, rfl⟩

theorem concludeRun_next {abort : Exc → Engine → Engine} {s0 t : State} {x : Run Values}
    (h : concludeRun abort s0 x = .next t) :
    (∃ v0 v1 u, x = .next (.ok (v0, v1), u) ∧ t = respond v0 v1 u) ∨
    (∃ e u, x = .next (.error e, u) ∧ t = raiseExc e { u with eng := abort e s0.eng }) := by
  rcases x with tx | r | r
  · simp only [concludeRun, Host.Outcome.next.injEq] at h
    rcases conclude_cases abort s0 tx with ⟨v0, v1, u, hx, hc⟩ | ⟨e, u, hx, hc⟩
    · exact .inl ⟨v0, v1, u, by rw [hx], by rw [← h, hc]⟩
    · exact .inr ⟨e, u, by rw [hx], by rw [← h, hc]⟩
  · simp [concludeRun] at h
  · simp [concludeRun] at h

theorem concludeRun_fault {abort : Exc → Engine → Engine} {s0 : State} {x : Run Values} {r : Fault}
    (h : concludeRun abort s0 x = .fault r) : x = .fault r := by
  rcases x with tx | q | q <;> simp [concludeRun] at h ⊢; exact h

theorem concludeRun_refused {abort : Exc → Engine → Engine} {s0 : State} {x : Run Values} {r : Refusal}
    (h : concludeRun abort s0 x = .refused r) : x = .refused r := by
  rcases x with tx | q | q <;> simp [concludeRun] at h ⊢; exact h

/-- A gate refuses with nothing written but the response, or the operation runs (R254, R263). -/
theorem gated_next {gate : Option Exc} {s t : State} {op : Host.Outcome State Fault Refusal}
    (h : gated gate s op = .next t) : (∃ e, gate = some e ∧ t = raiseExc e s) ∨ (gate = none ∧ op = .next t) := by
  cases gate with
  | some e => exact .inl ⟨e, rfl, by simpa [gated] using h.symm⟩
  | none => exact .inr ⟨rfl, h⟩

theorem gated_fault {gate : Option Exc} {s : State} {op : Host.Outcome State Fault Refusal} {r : Fault}
    (h : gated gate s op = .fault r) : gate = none ∧ op = .fault r := by
  cases gate with
  | some e => simp [gated] at h
  | none => exact ⟨rfl, h⟩

/-! ## The gates -/

theorem gateCalibrated_none {g : Engine} (h : gateCalibrated g = none) : g.initState = .ready := by
  unfold gateCalibrated at h
  split at h
  · simp at h
  · split at h
    · simp at h
    · cases hi : g.initState <;> simp_all

theorem gatePressure_none {g : Engine} (h : gatePressure g = none) :
    g.initState = .ready ∧ g.seq = .awaitingPressure := by
  unfold gatePressure at h
  split at h
  · simp at h
  · split at h
    · simp at h
    · split at h
      · simp at h
      · rename_i h3
        refine ⟨?_, not_not.mp h3⟩
        cases hi : g.initState <;> simp_all

theorem gateReference_none {g : Engine} (h : gateReference g = none) : g.refValid = true := by
  unfold gateReference at h
  split at h
  · simp at h
  · cases hr : g.refValid <;> simp_all

theorem gateIdentity_some {g : Engine} {e : Exc} (h : gateIdentity g = some e) : e = .identityMismatch none := by
  unfold gateIdentity at h; split at h <;> simp_all

theorem gateCalibrated_some {g : Engine} {e : Exc} (h : gateCalibrated g = some e) :
    e = .identityMismatch none ∨ e = .notInitialized := by
  unfold gateCalibrated at h; split at h
  · simp_all
  · split at h <;> simp_all

theorem gatePressure_some {g : Engine} {e : Exc} (h : gatePressure g = some e) :
    e = .identityMismatch none ∨ e = .notInitialized ∨ e = .sequenceViolation := by
  unfold gatePressure at h; split at h
  · simp_all
  · split at h
    · simp_all
    · split at h <;> simp_all

theorem gateReference_some {g : Engine} {e : Exc} (h : gateReference g = some e) : e = .noReferencePressure := by
  unfold gateReference at h; split at h <;> simp_all

/-! ## The temperature step (R131, R173) -/

/-- What a temperature step that succeeds has done to the registers. -/
structure TempDone (raw : BitVec 16) (s : State) (q : Quantity) (g : Engine) : Prop where
  done : (s.cfg.variant = .int ∧ ∃ c b5 t, s.eng.cal = some c ∧ tcompInt c raw = .ok (b5, t) ∧ q = .int (s32Of t) ∧
            g = { s.eng with b5 := some (s32Of b5), seq := .awaitingPressure }) ∨
         (s.cfg.variant = .fp ∧ ∃ k t, s.eng.dc = some k ∧ tcompFp k raw = .ok t ∧ q = .fp t ∧
            g = { s.eng with tc := some t, seq := .awaitingPressure })

/-- What a pressure step that succeeds has done to the registers. -/
structure PressDone (raw : BitVec 19) (oss : BitVec 2) (s : State) (q : Quantity) (g : Engine) : Prop where
  seq  : g = { s.eng with seq := .ready }
  done : (s.cfg.variant = .int ∧ ∃ b5 c p, s.eng.b5 = some b5 ∧ s.eng.cal = some c ∧
            pcompInt c b5.toInt raw oss = .ok p ∧ q = .int (s32Of p)) ∨
         (s.cfg.variant = .fp ∧ ∃ tc k p, s.eng.tc = some tc ∧ s.eng.dc = some k ∧
            pcompFp k tc raw oss = .ok p ∧ q = .fp p)

/-- A temperature step succeeds with its writes, or raises and leaves the state. -/
theorem tcompStep_next {raw : BitVec 16} {s t : State} {r : Except Exc Quantity} (h : tcompStep raw s = .next (r, t)) :
    (∃ q, r = .ok q ∧ TempDone raw s q t.eng ∧ t = { s with eng := t.eng }) ∨
    (∃ e, r = .error e ∧ t = s ∧
      ((s.cfg.variant = .int ∧ ∃ c, s.eng.cal = some c ∧ tcompInt c raw = .error e) ∨
       (s.cfg.variant = .fp ∧ ∃ k, s.eng.dc = some k ∧ tcompFp k raw = .error e))) := by
  unfold tcompStep at h
  split at h <;> rename_i hv
  · obtain ⟨c, hc, h⟩ := withReg_next h
    simp only [Host.Outcome.next.injEq] at h
    cases hr : tcompInt c raw with
    | ok p =>
      rw [hr] at h; cases h
      exact .inl ⟨_, rfl, ⟨.inl ⟨hv, c, p.1, p.2, hc, hr, rfl, rfl⟩⟩, rfl⟩
    | error e =>
      rw [hr] at h; cases h
      exact .inr ⟨e, rfl, rfl, .inl ⟨hv, c, hc, hr⟩⟩
  · obtain ⟨k, hk, h⟩ := withReg_next h
    simp only [Host.Outcome.next.injEq] at h
    cases hr : tcompFp k raw with
    | ok p =>
      rw [hr] at h; cases h
      exact .inl ⟨_, rfl, ⟨.inr ⟨hv, k, p, hk, hr, rfl, rfl⟩⟩, rfl⟩
    | error e =>
      rw [hr] at h; cases h
      exact .inr ⟨e, rfl, rfl, .inr ⟨hv, k, hk, hr⟩⟩

/-- A pressure step succeeds with its write, or raises and leaves the state. -/
theorem pcompStep_next {raw : BitVec 19} {oss : BitVec 2} {s t : State} {r : Except Exc Quantity}
    (h : pcompStep raw oss s = .next (r, t)) :
    (∃ q, r = .ok q ∧ PressDone raw oss s q t.eng ∧ t = { s with eng := t.eng }) ∨
    (∃ e, r = .error e ∧ t = s ∧
      ((s.cfg.variant = .int ∧ ∃ b5 c, s.eng.b5 = some b5 ∧ s.eng.cal = some c ∧ pcompInt c b5.toInt raw oss = .error e) ∨
       (s.cfg.variant = .fp ∧ ∃ tc k, s.eng.tc = some tc ∧ s.eng.dc = some k ∧ pcompFp k tc raw oss = .error e))) := by
  unfold pcompStep at h
  split at h <;> rename_i hv
  · obtain ⟨b5, hb, h⟩ := withReg_next h
    obtain ⟨c, hc, h⟩ := withReg_next h
    simp only [Host.Outcome.next.injEq] at h
    cases hr : pcompInt c b5.toInt raw oss with
    | ok p =>
      rw [hr] at h; cases h
      exact .inl ⟨_, rfl, ⟨rfl, .inl ⟨hv, b5, c, p, hb, hc, hr, rfl⟩⟩, rfl⟩
    | error e =>
      rw [hr] at h; cases h
      exact .inr ⟨e, rfl, rfl, .inl ⟨hv, b5, c, hb, hc, hr⟩⟩
  · obtain ⟨tc, ht, h⟩ := withReg_next h
    obtain ⟨k, hk, h⟩ := withReg_next h
    simp only [Host.Outcome.next.injEq] at h
    cases hr : pcompFp k tc raw oss with
    | ok p =>
      rw [hr] at h; cases h
      exact .inl ⟨_, rfl, ⟨rfl, .inr ⟨hv, tc, k, p, ht, hk, hr, rfl⟩⟩, rfl⟩
    | error e =>
      rw [hr] at h; cases h
      exact .inr ⟨e, rfl, rfl, .inr ⟨hv, tc, k, ht, hk, hr⟩⟩

/-- A temperature step stops only where its coefficients are absent. -/
theorem tcompStep_fault {raw : BitVec 16} {s : State} {r : Fault} (h : tcompStep raw s = .fault r) :
    (s.cfg.variant = .int ∧ s.eng.cal = none) ∨ (s.cfg.variant = .fp ∧ s.eng.dc = none) := by
  unfold tcompStep at h
  split at h <;> rename_i hv <;> rcases withReg_fault h with hn | ⟨_, _, h⟩
  · exact .inl ⟨hv, hn⟩
  · cases h
  · exact .inr ⟨hv, hn⟩
  · cases h

/-- A pressure step stops only where its cache or its coefficients are absent. -/
theorem pcompStep_fault {raw : BitVec 19} {oss : BitVec 2} {s : State} {r : Fault} (h : pcompStep raw oss s = .fault r) :
    (s.cfg.variant = .int ∧ (s.eng.b5 = none ∨ s.eng.cal = none)) ∨
    (s.cfg.variant = .fp ∧ (s.eng.tc = none ∨ s.eng.dc = none)) := by
  unfold pcompStep at h
  split at h <;> rename_i hv <;> rcases withReg_fault h with hn | ⟨_, _, h⟩
  · exact .inl ⟨hv, .inl hn⟩
  · rcases withReg_fault h with hn | ⟨_, _, h⟩
    · exact .inl ⟨hv, .inr hn⟩
    · cases h
  · exact .inr ⟨hv, .inl hn⟩
  · rcases withReg_fault h with hn | ⟨_, _, h⟩
    · exact .inr ⟨hv, .inr hn⟩
    · cases h

theorem tcompStep_not_refused (raw : BitVec 16) (s : State) (r : Refusal) : tcompStep raw s ≠ .refused r := by
  intro h
  unfold tcompStep at h
  split at h <;> obtain ⟨_, _, h⟩ := withReg_refused h <;> cases h

theorem pcompStep_not_refused (raw : BitVec 19) (oss : BitVec 2) (s : State) (r : Refusal) :
    pcompStep raw oss s ≠ .refused r := by
  intro h
  unfold pcompStep at h
  split at h <;> obtain ⟨_, _, h⟩ := withReg_refused h <;> obtain ⟨_, _, h⟩ := withReg_refused h <;> cases h

/-! ## The cycle (R204) -/

theorem acquireT_busTx (s : State) : BusTx s (acquireT s) :=
  acquire_busTx _ _ _ _ (by decide) (by decide) (by decide)

theorem acquireP_busTx (oss : BitVec 2) (s : State) : BusTx s (acquireP oss s) :=
  acquire_busTx _ _ _ _ (by decide) (by decide) (by revert oss; decide)

/-- A cycle that succeeds: the registers after the temperature step, then after the pressure step. -/
theorem cycleStep_ok {s t : State} {q p : Quantity} (h : cycleStep s = .next (.ok (q, p), t)) :
    BusRun true s t ∧ ∃ bt s1 g1 bp s3,
      s1.cfg = s.cfg ∧ s1.eng = s.eng ∧ TempDone (rawTemp bt) s1 q g1 ∧ s3.cfg = s.cfg ∧ s3.eng = g1 ∧
      PressDone (rawPress bp s.eng.oss) s.eng.oss s3 p t.eng := by
  obtain ⟨bt, s1, h1, h⟩ := runBind_ok h
  obtain ⟨q', s2, h2, h⟩ := runBind_ok h
  obtain ⟨bp, s3, h3, h⟩ := runBind_ok h
  obtain ⟨p', s4, h4, h⟩ := runBind_ok h
  simp only [Host.Outcome.next.injEq, Prod.mk.injEq, Except.ok.injEq] at h
  obtain ⟨⟨rfl, rfl⟩, rfl⟩ := h
  simp only [Host.Outcome.next.injEq] at h1 h3
  have b1 := acquireT_busTx s
  have b3 := acquireP_busTx s.eng.oss s2
  rw [h1] at b1
  rw [h3] at b3
  rcases tcompStep_next h2 with ⟨q2, hq, ht, hs⟩ | ⟨e, he, _⟩
  · rcases pcompStep_next h4 with ⟨p2, hp, hpd, hs4⟩ | ⟨e, he, _⟩
    · cases hq; cases hp
      have r2 : BusRun true s s2 := by rw [hs]; exact busRun_withEng _ b1.run
      refine ⟨?_, bt, s1, s2.eng, bp, s3, b1.run.cfg, b1.eng, ht, ?_, b3.eng, hpd⟩
      · rw [hs4]; exact busRun_withEng _ (busRun_trans r2 b3.run)
      · exact b3.run.cfg.trans r2.cfg
    · cases he
  · cases he

/-- A cycle that raises did allowed bus transactions only; the exception is a bus error or a datapath's. -/
theorem cycleStep_error {s t : State} {e : Exc} (h : cycleStep s = .next (.error e, t)) :
    BusRun false s t ∧
    ((∃ d r, e = .busError d r) ∨
     (s.cfg.variant = .int ∧ ∃ c, s.eng.cal = some c ∧ ((∃ raw, tcompInt c raw = .error e) ∨
        ∃ b5 raw oss, pcompInt c b5 raw oss = .error e)) ∨
     (s.cfg.variant = .fp ∧ ∃ k, s.eng.dc = some k ∧ ((∃ raw, tcompFp k raw = .error e) ∨
        ∃ tc raw oss, pcompFp k tc raw oss = .error e))) := by
  rcases runBind_error h with h1 | ⟨bt, s1, h1, h⟩
  · simp only [Host.Outcome.next.injEq] at h1
    have b1 := acquireT_busTx s
    rw [h1] at b1
    exact ⟨b1.run, .inl (b1.err e rfl)⟩
  simp only [Host.Outcome.next.injEq] at h1
  have b1 := acquireT_busTx s
  rw [h1] at b1
  have weak : ∀ {u v : State}, BusRun true u v → BusRun false u v := fun {u v} r =>
    busRun_trans r (busRun_refl false v)
  rcases runBind_error h with h2 | ⟨q, s2, h2, h⟩
  · rcases tcompStep_next h2 with ⟨q2, hq, _⟩ | ⟨e', he, hs, hd⟩
    · cases hq
    · cases he; subst hs
      refine ⟨weak b1.run, .inr ?_⟩
      rw [b1.run.cfg, b1.eng] at hd
      rcases hd with ⟨hv, c, hc, hx⟩ | ⟨hv, k, hk, hx⟩
      · exact .inl ⟨hv, c, hc, .inl ⟨_, hx⟩⟩
      · exact .inr ⟨hv, k, hk, .inl ⟨_, hx⟩⟩
  rcases tcompStep_next h2 with ⟨q2, hq, ht, hs⟩ | ⟨e', he, _⟩
  case inr => cases he
  have r2 : BusRun true s s2 := by rw [hs]; exact busRun_withEng _ b1.run
  rcases runBind_error h with h3 | ⟨bp, s3, h3, h⟩
  · simp only [Host.Outcome.next.injEq] at h3
    have b3 := acquireP_busTx s.eng.oss s2
    rw [h3] at b3
    exact ⟨busRun_trans r2 b3.run, .inl (b3.err e rfl)⟩
  simp only [Host.Outcome.next.injEq] at h3
  have b3 := acquireP_busTx s.eng.oss s2
  rw [h3] at b3
  have hcal : s2.eng.cal = s.eng.cal ∧ s2.eng.dc = s.eng.dc := by
    rcases ht.done with ⟨_, c, b, u, _, _, _, hg⟩ | ⟨_, k, u, _, _, _, hg⟩ <;> rw [hg, b1.eng] <;> exact ⟨rfl, rfl⟩
  have hv3 : s3.cfg = s.cfg := b3.run.cfg.trans r2.cfg
  have he3 : s3.eng = s2.eng := b3.eng
  rcases runBind_error h with h4 | ⟨p, s4, h4, h⟩
  · rcases pcompStep_next h4 with ⟨q2, hq, _⟩ | ⟨e', he, hs4, hd⟩
    · cases hq
    · cases he; subst hs4
      refine ⟨weak (busRun_trans r2 b3.run), .inr ?_⟩
      rw [hv3, he3, hcal.1, hcal.2] at hd
      rcases hd with ⟨hv, b5, c, _, hc, hx⟩ | ⟨hv, tc, k, _, hk, hx⟩
      · exact .inl ⟨hv, c, hc, .inr ⟨_, _, _, hx⟩⟩
      · exact .inr ⟨hv, k, hk, .inr ⟨_, _, _, hx⟩⟩
  · simp at h

/-- A cycle stops only where the coefficients of its variant are absent: its own temperature step writes the cache. -/
theorem cycleStep_fault {s : State} {r : Fault} (h : cycleStep s = .fault r) :
    (s.cfg.variant = .int ∧ s.eng.cal = none) ∨ (s.cfg.variant = .fp ∧ s.eng.dc = none) := by
  rcases runBind_fault h with h1 | ⟨bt, s1, h1, h⟩
  · simp at h1
  simp only [Host.Outcome.next.injEq] at h1
  have b1 := acquireT_busTx s
  rw [h1] at b1
  rcases runBind_fault h with h2 | ⟨q, s2, h2, h⟩
  · have := tcompStep_fault h2
    rwa [b1.run.cfg, b1.eng] at this
  rcases tcompStep_next h2 with ⟨q2, hq, ht, hs⟩ | ⟨e', he, _⟩
  case inr => cases he
  rcases runBind_fault h with h3 | ⟨bp, s3, h3, h⟩
  · simp at h3
  simp only [Host.Outcome.next.injEq] at h3
  have b3 := acquireP_busTx s.eng.oss s2
  rw [h3] at b3
  have r2 : BusRun true s s2 := by rw [hs]; exact busRun_withEng _ b1.run
  have hv3 : s3.cfg = s.cfg := b3.run.cfg.trans r2.cfg
  have he3 : s3.eng = s2.eng := b3.eng
  rcases runBind_fault h with h4 | ⟨p, s4, h4, h⟩
  · have := pcompStep_fault h4
    rw [hv3, he3] at this
    rcases ht.done with ⟨hv, c, b, u, hc, _, _, hg⟩ | ⟨hv, k, u, hk, _, _, hg⟩
    · rw [b1.run.cfg] at hv; rw [b1.eng] at hc hg
      rw [hg, hv] at this
      simp [hc] at this
    · rw [b1.run.cfg] at hv; rw [b1.eng] at hk hg
      rw [hg, hv] at this
      simp [hk] at this
  · simp at h

theorem cycleStep_not_refused (s : State) (r : Refusal) : cycleStep s ≠ .refused r := by
  intro h
  rcases runBind_refused h with h1 | ⟨_, s1, _, h⟩
  · simp at h1
  rcases runBind_refused h with h2 | ⟨_, s2, _, h⟩
  · exact tcompStep_not_refused _ _ _ h2
  rcases runBind_refused h with h3 | ⟨_, s3, _, h⟩
  · simp at h3
  rcases runBind_refused h with h4 | ⟨_, s4, _, h⟩
  · exact pcompStep_not_refused _ _ _ _ h4
  · simp at h

/-! ## INIT's sequences (R101, R102) -/

theorem ident_busTx (s : State) : BusTx s (ident s) :=
  busTx_bind (busRead_busTx _ _ s (by decide) (by decide)) fun _ t _ => busTx_ok t _

theorem loadWords_busTx (addrs : List Byte) (h : ∀ a ∈ addrs, allowedRead a 2 = true) (s : State) :
    BusTx s (loadWords addrs s) := by
  induction addrs generalizing s with
  | nil => exact busTx_ok s _
  | cons a rest ih =>
    exact busTx_bind (busRead_busTx a 2 s (h a (by simp)) (by decide)) fun _ t _ =>
      busTx_bind (ih (fun x hx => h x (by simp [hx])) t) fun _ u _ => busTx_ok u _

theorem loadCal_busTx (s : State) : BusTx s (loadCal s) :=
  busTx_bind (loadWords_busTx calAddrs (by decide) s) fun _ t _ => busTx_ok t _

/-- INIT succeeds with a calibration set committed over step 1, or raises after step 1 (R100). -/
theorem initSteps_cases (s : State) :
    (∃ c t, initSteps s = (.ok (none, none), t) ∧ BusRun true s t ∧
      t.eng = commitCal s.cfg.variant c (beginSession s.eng)) ∨
    (∃ e t, initSteps s = (.error e, t) ∧ BusRun false s t ∧
      ((∃ d r, e = .busError d r) ∨ ∃ id, e = .identityMismatch (some id) ∧ validId id = false)) := by
  have weak : ∀ {u v : State}, BusRun true u v → BusRun false u v := fun {u v} r =>
    busRun_trans r (busRun_refl false v)
  have b1 := ident_busTx { s with eng := beginSession s.eng }
  unfold initSteps
  rcases hx : ident { s with eng := beginSession s.eng } with ⟨r, s1⟩
  rw [hx] at b1
  cases r with
  | error e => exact .inr ⟨e, s1, rfl, busRun_fromEng _ b1.run, .inl (b1.err e rfl)⟩
  | ok id =>
    simp only [txBind]
    have r1 : BusRun true s s1 := busRun_fromEng _ b1.run
    cases hv : validId id with
    | false => exact .inr ⟨_, s1, rfl, weak r1, .inr ⟨id, rfl, hv⟩⟩
    | true =>
      simp only [if_true]
      have b2 := loadCal_busTx s1
      rcases hy : loadCal s1 with ⟨r2, s2⟩
      rw [hy] at b2
      cases r2 with
      | error e => exact .inr ⟨e, s2, rfl, busRun_trans r1 b2.run, .inl (b2.err e rfl)⟩
      | ok c =>
        refine .inl ⟨c, _, rfl, busRun_withEng _ (busRun_trans r1 b2.run), ?_⟩
        have hc : s2.cfg = s.cfg := b2.run.cfg.trans r1.cfg
        have he : s2.eng = beginSession s.eng := b2.eng.trans b1.eng
        simp only [hc, he]

end Sys2Proof.Machine
end

