-- ==== Sys2Proof/Laws/Exec.lean ====
section
/-! SUPPORT. What each meaning can do, said once: `exec_next` says that a host command is refused by its gate, or raises with its
abort writes, or completes with the writes `OpDone` names; `step_next` says it of a step. -/

namespace Sys2Proof.Machine

/-- The host commands: the CMD32 rows. -/
def isCommand (i : Instr) : Bool :=
  match i with
  | .init | .getId | .hasValidId | .reset | .measureT | .measureP _ | .compT _ | .compP _ _ | .setOss _ | .getData
  | .getAlt | .captureRef => true
  | .trigT | .trigP _ | .softReset => false

/-- The gate of each command (R263). -/
def gateOf (i : Instr) (g : Engine) : Option Exc :=
  match i with
  | .measureT | .measureP _ => gateIdentity g
  | .compT _ | .getData | .captureRef => gateCalibrated g
  | .compP _ _ => gatePressure g
  | .getAlt => gateReference g
  | .init | .getId | .hasValidId | .reset | .setOss _ | .trigT | .trigP _ | .softReset => none

/-- The abort writes of each command (R254). -/
def abortOf (i : Instr) : Exc → Engine → Engine :=
  match i with
  | .init => abortInit
  | .reset => abortReset
  | .compT _ | .compP _ _ | .getData | .captureRef => abortSeq
  | .getId | .hasValidId | .measureT | .measureP _ | .setOss _ | .getAlt | .trigT | .trigP _ | .softReset => abortNothing

/-- An exception the body of a command can raise in state `s`, after its gate. -/
def RaisedBy (i : Instr) (s : State) (e : Exc) : Prop :=
  match i with
  | .init => (∃ d r, e = .busError d r) ∨ ∃ id, e = .identityMismatch (some id) ∧ validId id = false
  | .getId | .hasValidId | .reset | .measureT | .measureP _ => ∃ d r, e = .busError d r
  | .compT raw =>
    (s.cfg.variant = .int ∧ ∃ c, s.eng.cal = some c ∧ tcompInt c raw = .error e) ∨
    (s.cfg.variant = .fp ∧ ∃ k, s.eng.dc = some k ∧ tcompFp k raw = .error e)
  | .compP oss raw =>
    (s.cfg.variant = .int ∧ ∃ b5 c, s.eng.b5 = some b5 ∧ s.eng.cal = some c ∧ pcompInt c b5.toInt raw oss = .error e) ∨
    (s.cfg.variant = .fp ∧ ∃ tc k, s.eng.tc = some tc ∧ s.eng.dc = some k ∧ pcompFp k tc raw oss = .error e)
  | .getData | .captureRef =>
    (∃ d r, e = .busError d r) ∨
    (s.cfg.variant = .int ∧ ∃ c, s.eng.cal = some c ∧ ((∃ raw, tcompInt c raw = .error e) ∨
        ∃ b5 raw oss, pcompInt c b5 raw oss = .error e)) ∨
    (s.cfg.variant = .fp ∧ ∃ k, s.eng.dc = some k ∧ ((∃ raw, tcompFp k raw = .error e) ∨
        ∃ tc raw oss, pcompFp k tc raw oss = .error e))
  | .getAlt => ∃ p r, s.eng.pPub = some p ∧ s.eng.refP = some r ∧ altitude (quantityF64 p) (quantityF64 r) = .error e
  | .setOss _ | .trigT | .trigP _ | .softReset => False

/-- A cycle has run: the temperature `q`, the pressure `p`, and the registers it leaves. -/
def CycleDone (s : State) (q p : Quantity) (g : Engine) : Prop :=
  ∃ bt s1 g1 bp s3, s1.cfg = s.cfg ∧ s1.eng = s.eng ∧ TempDone (rawTemp bt) s1 q g1 ∧ s3.cfg = s.cfg ∧ s3.eng = g1 ∧
    PressDone (rawPress bp s.eng.oss) s.eng.oss s3 p g

/-- A command has completed in state `s`: the engine registers it leaves and its response's values. -/
def OpDone (i : Instr) (s : State) (g : Engine) (v0 v1 : Option Value) : Prop :=
  match i with
  | .init => v0 = none ∧ v1 = none ∧ ∃ c, g = commitCal s.cfg.variant c (beginSession s.eng)
  | .getId => g = s.eng ∧ v1 = none ∧ ∃ id, v0 = some (.byte id)
  | .hasValidId => g = s.eng ∧ v1 = none ∧ ∃ id, v0 = some (.bit (if validId id then 1 else 0))
  | .reset => g = endSession s.eng ∧ v0 = none ∧ v1 = none
  | .measureT => g = s.eng ∧ v1 = none ∧ ∃ b, v0 = some (.u16 (rawTemp b))
  | .measureP oss => g = s.eng ∧ v1 = none ∧ ∃ b, v0 = some (.u19 (rawPress b oss))
  | .compT raw => v1 = none ∧ ∃ q, v0 = some (quantityValue q) ∧ TempDone raw s q g
  | .compP oss raw => v1 = none ∧ ∃ q, v0 = some (quantityValue q) ∧ PressDone raw oss s q g
  | .setOss oss => g = { s.eng with oss := oss } ∧ v0 = none ∧ v1 = none
  | .getData => ∃ q p g1, v0 = some (quantityValue q) ∧ v1 = some (quantityValue p) ∧ CycleDone s q p g1 ∧ g = publish q p g1
  | .getAlt => g = s.eng ∧ v1 = none ∧ ∃ p r a, s.eng.pPub = some p ∧ s.eng.refP = some r ∧
      altitude (quantityF64 p) (quantityF64 r) = .ok a ∧ v0 = some (.f64 a)
  | .captureRef =>
    ∃ q p g1, v0 = some (quantityValue q) ∧ v1 = some (quantityValue p) ∧ CycleDone s q p g1 ∧ g = publishRef q p g1
  | .trigT | .trigP _ | .softReset => False

/-- The three ways a host command that answers a next state can end. -/
inductive Ended (i : Instr) (s t : State) : Prop where
  | refused (e : Exc) (hg : gateOf i s.eng = some e) (ht : t = raiseExc e s)
  | raised (e : Exc) (u : State) (hg : gateOf i s.eng = none) (hb : BusRun false s u) (he : RaisedBy i s e)
      (ht : t = raiseExc e { u with eng := abortOf i e s.eng })
  | done (v0 v1 : Option Value) (u : State) (hg : gateOf i s.eng = none) (hb : BusRun true s u)
      (hd : OpDone i s u.eng v0 v1) (ht : t = respond v0 v1 u)

theorem busRun_weaken {s t : State} (h : BusRun true s t) : BusRun false s t := busRun_trans h (busRun_refl false t)

/-- An operation whose steps are one bus sequence followed by its response. -/
theorem ended_of_tx {i : Instr} {s t : State} {α : Type} {x : Tx α} {f : α → Values} (hg : gateOf i s.eng = none)
    (hx : BusTx s x) (he : ∀ d r, RaisedBy i s (.busError d r)) (hd : ∀ a, OpDone i s s.eng (f a).1 (f a).2)
    (h : conclude (abortOf i) s (txBind x fun a u => (.ok (f a), u)) = t) : Ended i s t := by
  rcases x with ⟨r, u⟩
  cases r with
  | ok a =>
    have he' : u.eng = s.eng := hx.eng
    exact .done _ _ u hg hx.run (by rw [he']; exact hd a) h.symm
  | error e =>
    obtain ⟨d, r, rfl⟩ := hx.err e rfl
    exact .raised _ u hg hx.run (he d r) h.symm

/-- An operation that runs a cycle and then publishes (R204, R231). -/
theorem cycle_ended {post : Quantity → Quantity → Engine → Engine} {s t : State}
    (h : concludeRun abortSeq s (runBind (cycleStep s) (respondPair post)) = .next t) :
    (∃ e u, BusRun false s u ∧ RaisedBy .getData s e ∧ t = raiseExc e { u with eng := abortSeq e s.eng }) ∨
    (∃ q p u g1, BusRun true s u ∧ CycleDone s q p g1 ∧ u.eng = post q p g1 ∧
      t = respond (some (quantityValue q)) (some (quantityValue p)) u) := by
  rcases concludeRun_next h with ⟨v0, v1, u, hx, ht⟩ | ⟨e, u, hx, ht⟩
  · obtain ⟨⟨q, p⟩, w, hc, hr⟩ := runBind_ok hx
    obtain ⟨hb, hd⟩ := cycleStep_ok hc
    simp only [respondPair, Host.Outcome.next.injEq, Prod.mk.injEq, Except.ok.injEq] at hr
    obtain ⟨⟨rfl, rfl⟩, rfl⟩ := hr
    exact .inr ⟨q, p, _, w.eng, busRun_withEng _ hb, hd, rfl, ht⟩
  · rcases runBind_error hx with hc | ⟨⟨q, p⟩, w, _, hr⟩
    · obtain ⟨hb, he⟩ := cycleStep_error hc
      exact .inl ⟨e, u, hb, he, ht⟩
    · simp [respondPair] at hr

/-- What a host command that answers a next state has done. -/
theorem exec_next {i : Instr} {s t : State} (hi : isCommand i = true) (h : exec i s = .next t) : Ended i s t := by
  cases i with
  | init =>
    simp only [exec, execInit, Host.Outcome.next.injEq] at h
    rcases initSteps_cases s with ⟨c, u, hx, hb, hd⟩ | ⟨e, u, hx, hb, he⟩
    · rw [hx] at h
      exact .done none none u rfl hb ⟨rfl, rfl, c, hd⟩ h.symm
    · rw [hx] at h
      exact .raised e u rfl hb he h.symm
  | getId =>
    simp only [exec, execGetId, Host.Outcome.next.injEq] at h
    exact ended_of_tx rfl (ident_busTx s) (fun d r => ⟨d, r, rfl⟩) (fun id => ⟨rfl, rfl, id, rfl⟩) h
  | hasValidId =>
    simp only [exec, execHasValidId, Host.Outcome.next.injEq] at h
    exact ended_of_tx rfl (ident_busTx s) (fun d r => ⟨d, r, rfl⟩) (fun id => ⟨rfl, rfl, id, rfl⟩) h
  | reset =>
    simp only [exec, execReset, Host.Outcome.next.injEq] at h
    have hb := busWrite_busTx .softReset { s with eng := endSession s.eng }
    rcases hx : busWrite .softReset { s with eng := endSession s.eng } with ⟨r, u⟩
    rw [hx] at hb h
    cases r with
    | ok a => exact .done none none u rfl (busRun_fromEng _ hb.run) ⟨hb.eng, rfl, rfl⟩ h.symm
    | error e =>
      obtain ⟨d, r, rfl⟩ := hb.err e rfl
      exact .raised _ u rfl (busRun_fromEng _ hb.run) ⟨d, r, rfl⟩ h.symm
  | measureT =>
    rcases gated_next h with ⟨e, hg, ht⟩ | ⟨hg, h⟩
    · exact .refused e hg ht
    · simp only [Host.Outcome.next.injEq] at h
      exact ended_of_tx hg (acquireT_busTx s) (fun d r => ⟨d, r, rfl⟩) (fun b => ⟨rfl, rfl, b, rfl⟩) h
  | measureP oss =>
    rcases gated_next h with ⟨e, hg, ht⟩ | ⟨hg, h⟩
    · exact .refused e hg ht
    · simp only [Host.Outcome.next.injEq] at h
      exact ended_of_tx hg (acquireP_busTx oss s) (fun d r => ⟨d, r, rfl⟩) (fun b => ⟨rfl, rfl, b, rfl⟩) h
  | compT raw =>
    rcases gated_next h with ⟨e, hg, ht⟩ | ⟨hg, h⟩
    · exact .refused e hg ht
    · rcases concludeRun_next h with ⟨v0, v1, u, hx, ht⟩ | ⟨e, u, hx, ht⟩
      · obtain ⟨q, w, hs, hr⟩ := runBind_ok hx
        simp only [respondOne, Host.Outcome.next.injEq, Prod.mk.injEq, Except.ok.injEq] at hr
        obtain ⟨⟨rfl, rfl⟩, rfl⟩ := hr
        rcases tcompStep_next hs with ⟨q', hq, hd, hw⟩ | ⟨e, he, _⟩
        · cases hq
          exact .done _ _ w hg (by rw [hw]; exact busRun_withEng _ (busRun_refl _ s)) ⟨rfl, q, rfl, hd⟩ ht
        · cases he
      · rcases runBind_error hx with hs | ⟨q, w, _, hr⟩
        · rcases tcompStep_next hs with ⟨q', hq, _⟩ | ⟨e', he, hw, hd⟩
          · cases hq
          · cases he; subst hw
            exact .raised e u hg (busRun_refl _ u) hd ht
        · simp [respondOne] at hr
  | compP oss raw =>
    rcases gated_next h with ⟨e, hg, ht⟩ | ⟨hg, h⟩
    · exact .refused e hg ht
    · rcases concludeRun_next h with ⟨v0, v1, u, hx, ht⟩ | ⟨e, u, hx, ht⟩
      · obtain ⟨q, w, hs, hr⟩ := runBind_ok hx
        simp only [respondOne, Host.Outcome.next.injEq, Prod.mk.injEq, Except.ok.injEq] at hr
        obtain ⟨⟨rfl, rfl⟩, rfl⟩ := hr
        rcases pcompStep_next hs with ⟨q', hq, hd, hw⟩ | ⟨e, he, _⟩
        · cases hq
          exact .done _ _ w hg (by rw [hw]; exact busRun_withEng _ (busRun_refl _ s)) ⟨rfl, q, rfl, hd⟩ ht
        · cases he
      · rcases runBind_error hx with hs | ⟨q, w, _, hr⟩
        · rcases pcompStep_next hs with ⟨q', hq, _⟩ | ⟨e', he, hw, hd⟩
          · cases hq
          · cases he; subst hw
            exact .raised e u hg (busRun_refl _ u) hd ht
        · simp [respondOne] at hr
  | setOss oss =>
    simp only [exec, execSetOss, Host.Outcome.next.injEq] at h
    exact .done none none { s with eng := { s.eng with oss := oss } } rfl (busRun_withEng _ (busRun_refl _ s))
      ⟨rfl, rfl, rfl⟩ h.symm
  | getData =>
    rcases gated_next h with ⟨e, hg, ht⟩ | ⟨hg, h⟩
    · exact .refused e hg ht
    · rcases cycle_ended h with ⟨e, u, hb, he, ht⟩ | ⟨q, p, u, g1, hb, hc, hu, ht⟩
      · exact .raised e u hg hb he ht
      · exact .done _ _ u hg hb ⟨q, p, g1, rfl, rfl, hc, hu⟩ ht
  | getAlt =>
    rcases gated_next h with ⟨e, hg, ht⟩ | ⟨hg, h⟩
    · exact .refused e hg ht
    · obtain ⟨p, hp, h⟩ := withReg_next h
      obtain ⟨r, hr, h⟩ := withReg_next h
      simp only [Host.Outcome.next.injEq] at h
      cases ha : altitude (quantityF64 p) (quantityF64 r) with
      | ok a =>
        rw [ha] at h
        exact .done _ _ s hg (busRun_refl _ s) ⟨rfl, rfl, p, r, a, hp, hr, ha, rfl⟩ h.symm
      | error e =>
        rw [ha] at h
        exact .raised e s hg (busRun_refl _ s) ⟨p, r, hp, hr, ha⟩ h.symm
  | captureRef =>
    rcases gated_next h with ⟨e, hg, ht⟩ | ⟨hg, h⟩
    · exact .refused e hg ht
    · rcases cycle_ended h with ⟨e, u, hb, he, ht⟩ | ⟨q, p, u, g1, hb, hc, hu, ht⟩
      · exact .raised e u hg hb he ht
      · exact .done _ _ u hg hb ⟨q, p, g1, rfl, rfl, hc, hu⟩ ht
  | trigT => simp [isCommand] at hi
  | trigP oss => simp [isCommand] at hi
  | softReset => simp [isCommand] at hi

/-- A sensor command byte changes the sensor's conversion record and nothing else. -/
theorem exec_sensor {i : Instr} {s t : State} (hi : isCommand i = false) (h : exec i s = .next t) :
    ∃ k, t = { s with bus := { s.bus with conv := k } } := by
  cases i <;> simp [isCommand] at hi <;>
    simp only [exec, execTrigT, execTrigP, execSoftReset, Host.Outcome.next.injEq] at h <;>
    exact ⟨_, h.symm⟩

/-- What a meaning that stops on an absent register has met (R40). -/
theorem exec_fault {i : Instr} {s : State} {r : Fault} (h : exec i s = .fault r) :
    gateOf i s.eng = none ∧
    match i with
    | .compT _ | .getData | .captureRef =>
      (s.cfg.variant = .int ∧ s.eng.cal = none) ∨ (s.cfg.variant = .fp ∧ s.eng.dc = none)
    | .compP _ _ =>
      (s.cfg.variant = .int ∧ (s.eng.b5 = none ∨ s.eng.cal = none)) ∨
      (s.cfg.variant = .fp ∧ (s.eng.tc = none ∨ s.eng.dc = none))
    | .getAlt => s.eng.pPub = none ∨ s.eng.refP = none
    | _ => False := by
  cases i with
  | init => simp [exec, execInit] at h
  | getId => simp [exec, execGetId] at h
  | hasValidId => simp [exec, execHasValidId] at h
  | reset => simp [exec, execReset] at h
  | measureT => obtain ⟨_, h⟩ := gated_fault h; simp at h
  | measureP oss => obtain ⟨_, h⟩ := gated_fault h; simp at h
  | setOss oss => simp [exec, execSetOss] at h
  | trigT => simp [exec, execTrigT] at h
  | trigP oss => simp [exec, execTrigP] at h
  | softReset => simp [exec, execSoftReset] at h
  | compT raw =>
    obtain ⟨hg, h⟩ := gated_fault h
    refine ⟨hg, ?_⟩
    rcases runBind_fault (concludeRun_fault h) with hs | ⟨q, w, _, hr⟩
    · exact tcompStep_fault hs
    · simp [respondOne] at hr
  | compP oss raw =>
    obtain ⟨hg, h⟩ := gated_fault h
    refine ⟨hg, ?_⟩
    rcases runBind_fault (concludeRun_fault h) with hs | ⟨q, w, _, hr⟩
    · exact pcompStep_fault hs
    · simp [respondOne] at hr
  | getData =>
    obtain ⟨hg, h⟩ := gated_fault h
    refine ⟨hg, ?_⟩
    rcases runBind_fault (concludeRun_fault h) with hs | ⟨q, w, _, hr⟩
    · exact cycleStep_fault hs
    · simp [respondPair] at hr
  | captureRef =>
    obtain ⟨hg, h⟩ := gated_fault h
    refine ⟨hg, ?_⟩
    rcases runBind_fault (concludeRun_fault h) with hs | ⟨q, w, _, hr⟩
    · exact cycleStep_fault hs
    · simp [respondPair] at hr
  | getAlt =>
    obtain ⟨hg, h⟩ := gated_fault h
    refine ⟨hg, ?_⟩
    rcases withReg_fault h with hp | ⟨p, _, h⟩
    · exact .inl hp
    · rcases withReg_fault h with hr | ⟨r, _, h⟩
      · exact .inr hr
      · cases h

/-- No instruction is refused. -/
theorem exec_not_refused (i : Instr) (s : State) (r : Refusal) : exec i s ≠ .refused r := by
  intro h
  have gate : ∀ {g : Option Exc} {op : Host.Outcome State Fault Refusal}, gated g s op = .refused r → op = .refused r := by
    intro g op hg
    cases g with
    | some e => simp [gated] at hg
    | none => exact hg
  cases i with
  | init => simp [exec, execInit] at h
  | getId => simp [exec, execGetId] at h
  | hasValidId => simp [exec, execHasValidId] at h
  | reset => simp [exec, execReset] at h
  | measureT => have := gate h; simp at this
  | measureP oss => have := gate h; simp at this
  | setOss oss => simp [exec, execSetOss] at h
  | trigT => simp [exec, execTrigT] at h
  | trigP oss => simp [exec, execTrigP] at h
  | softReset => simp [exec, execSoftReset] at h
  | compT raw =>
    rcases runBind_refused (concludeRun_refused (gate h)) with hs | ⟨q, w, _, hr⟩
    · exact tcompStep_not_refused _ _ _ hs
    · simp [respondOne] at hr
  | compP oss raw =>
    rcases runBind_refused (concludeRun_refused (gate h)) with hs | ⟨q, w, _, hr⟩
    · exact pcompStep_not_refused _ _ _ _ hs
    · simp [respondOne] at hr
  | getData =>
    rcases runBind_refused (concludeRun_refused (gate h)) with hs | ⟨q, w, _, hr⟩
    · exact cycleStep_not_refused _ _ hs
    · simp [respondPair] at hr
  | captureRef =>
    rcases runBind_refused (concludeRun_refused (gate h)) with hs | ⟨q, w, _, hr⟩
    · exact cycleStep_not_refused _ _ hs
    · simp [respondPair] at hr
  | getAlt =>
    obtain ⟨p, _, h⟩ := withReg_refused (gate h)
    obtain ⟨r, _, h⟩ := withReg_refused h
    cases h

/-! ## A step -/

/-- The row search answers a row that selects the word. -/
theorem decodeIn_ok {rows : List CmdRow} {cmd : Word} {i : Instr} (h : decodeIn rows cmd = .ok i) :
    ∃ r ∈ rows, r.selects cmd = true ∧ i = r.build cmd := by
  induction rows with
  | nil => simp [decodeIn] at h
  | cons r rest ih =>
    simp only [decodeIn] at h
    split at h
    · rename_i hs
      exact ⟨r, by simp, hs, by simpa using h.symm⟩
    · obtain ⟨r', hm, hs, hb⟩ := ih h
      exact ⟨r', by simp [hm], hs, hb⟩

/-- The decoder of command words answers commands, and the sensor's answers sensor commands. -/
theorem decode_isCommand (cmd : Word) (i : Instr) (h : decode cmd = .ok i) : isCommand i = true := by
  obtain ⟨r, hm, _, rfl⟩ := decodeIn_ok h
  revert r
  simp [cmdRows, isCommand]

theorem decodeSensor_isSensor (b : Byte) (i : Instr) (h : decodeSensor b = .ok i) : isCommand i = false := by
  unfold decodeSensor at h
  split at h
  · cases h; rfl
  · split at h
    · cases h; rfl
    · split at h
      · cases h; rfl
      · cases h

/-- What a step that answers a next state has done: a command, an illegal word, a sensor command byte, or nothing. -/
inductive Stepped (s t : State) : Prop where
  | command (cmd : Word) (rest : List Word) (i : Instr) (hp : s.bus.pending = none) (hq : s.port.cmds = cmd :: rest)
      (hd : decode cmd = .ok i) (he : Ended i { s with port := { s.port with cmds := rest } } t)
  | illegal (cmd : Word) (rest : List Word) (hp : s.bus.pending = none) (hq : s.port.cmds = cmd :: rest)
      (hd : decode cmd = .error (.illegalCommand cmd))
      (ht : t = raiseExc (.illegalCommand cmd) { s with port := { s.port with cmds := rest } })
  | sensor (b : Byte) (i : Instr) (k : Option Conversion) (hp : s.bus.pending = some b) (hd : decodeSensor b = .ok i)
      (ht : t = { s with bus := { s.bus with pending := none, conv := k } })
  | idle (hp : s.bus.pending = none) (hq : s.port.cmds = []) (ht : t = s)

theorem decodeIn_error (rows : List CmdRow) (cmd : Word) (e : DecodeError) (h : decodeIn rows cmd = .error e) :
    e = .illegalCommand cmd := by
  induction rows with
  | nil => simpa [decodeIn] using h.symm
  | cons r rest ih =>
    simp only [decodeIn] at h
    split at h
    · cases h
    · exact ih h

theorem step_next {s t : State} (h : step s = .next t) : Stepped s t := by
  unfold step fetch at h
  cases hp : s.bus.pending with
  | some b =>
    simp only [hp, fetchByte] at h
    cases hd : decodeSensor b with
    | ok i =>
      rw [hd] at h
      obtain ⟨k, hk⟩ := exec_sensor (decodeSensor_isSensor b i hd) h
      exact .sensor b i k hp hd hk
    | error e => rw [hd] at h; simp at h
  | none =>
    simp only [hp] at h
    cases hq : s.port.cmds with
    | nil =>
      simp only [hq, Host.Outcome.next.injEq] at h
      exact .idle hp hq h.symm
    | cons cmd rest =>
      simp only [hq, fetchWord] at h
      cases hd : decode cmd with
      | ok i =>
        rw [hd] at h
        exact .command cmd rest i hp hq hd (exec_next (decode_isCommand cmd i hd) h)
      | error e =>
        rw [hd] at h
        have he := decodeIn_error _ _ _ hd
        subst he
        simp only [illegalWord, Host.Outcome.next.injEq] at h
        exact .illegal cmd rest hp hq hd h.symm

end Sys2Proof.Machine
end

