-- ==== Sys2Proof/Laws/Float.lean ====
section
/-! SUPPORT. Binary64 values compared as rationals, bounds on what an operation can give, what the checks of the floating-point
datapaths let through, and the altitude where POW64's first property decides it. -/

namespace Sys2Proof.Machine

theorem oneUnits_rat_pos : (0 : ℚ) < oneUnits := by exact_mod_cast oneUnits_pos

theorem f64Rat_le_iff (a b : F64) : f64Rat a ≤ f64Rat b ↔ f64Int a ≤ f64Int b := by
  rw [f64Rat, f64Rat, div_le_div_iff_of_pos_right oneUnits_rat_pos]; exact Int.cast_le

theorem f64Rat_lt_iff (a b : F64) : f64Rat a < f64Rat b ↔ f64Int a < f64Int b := by
  rw [f64Rat, f64Rat, div_lt_div_iff_of_pos_right oneUnits_rat_pos]; exact Int.cast_lt

theorem f64Rat_pos_iff (a : F64) : 0 < f64Rat a ↔ 0 < f64Int a := by
  rw [f64Rat, div_pos_iff_of_pos_right oneUnits_rat_pos]; exact Int.cast_pos

theorem f64Rat_nonneg_iff (a : F64) : 0 ≤ f64Rat a ↔ 0 ≤ f64Int a := by
  rw [← not_lt, ← not_lt, f64Rat, div_neg_iff]
  have := oneUnits_rat_pos
  constructor
  · intro h hn; exact h (.inr ⟨by exact_mod_cast hn, this⟩)
  · rintro h (⟨_, hn⟩ | ⟨hn, _⟩)
    · exact absurd hn (not_lt.mpr this.le)
    · exact h (by exact_mod_cast hn)

theorem f64Rat_eq_zero_iff (a : F64) : f64Rat a = 0 ↔ f64Int a = 0 := by
  rw [f64Rat, div_eq_zero_iff, or_iff_left oneUnits_rat_pos.ne']; exact Int.cast_eq_zero

/-- The sign and magnitude of a pattern order finite values as their values do. -/
theorem f64Key_lt_iff (a b : F64) : f64Key a < f64Key b ↔ f64Int a < f64Int b := by
  have hm := magUnits_strictMono.lt_iff_lt (a := f64Mag a) (b := f64Mag b)
  have hm' := magUnits_strictMono.lt_iff_lt (a := f64Mag b) (b := f64Mag a)
  have h0 : ∀ m, magUnits m = 0 ↔ m = 0 := fun m => by
    rw [← magUnits_zero]; exact magUnits_strictMono.injective.eq_iff
  have ha := h0 (f64Mag a)
  have hb := h0 (f64Mag b)
  unfold f64Key f64Int f64Units
  split <;> split <;> omega

/-- `a < b` on values that are no NaN. -/
theorem flt_iff (a b : F64) (ha : f64IsNaN a = false) (hb : f64IsNaN b = false) :
    flt a b = true ↔ f64Rat a < f64Rat b := by
  rw [f64Rat_lt_iff, ← f64Key_lt_iff, flt, ha, hb]; simp

theorem f64IsNaN_of_finite {a : F64} (h : f64IsFinite a = true) : f64IsNaN a = false := by
  rw [f64IsFinite, decide_eq_true_iff] at h
  rw [f64IsNaN, decide_eq_false_iff_not]; omega

/-- `a ≤ b` on finite values. -/
theorem fle_iff (a b : F64) (ha : f64IsFinite a = true) (hb : f64IsFinite b = true) :
    fle a b = true ↔ f64Rat a ≤ f64Rat b := by
  rw [fle, f64IsNaN_of_finite ha, f64IsNaN_of_finite hb, Bool.or_self, if_neg Bool.false_ne_true, decide_eq_true_iff,
    ← not_lt, f64Key_lt_iff, ← f64Rat_lt_iff, not_lt]

/-- R233 property 4: POW64 keeps the order of arguments at or above zero, +∞ among them. -/
theorem pow64_monotone {x z : F64} (h0 : fle f64PosZero x = true) (h : fle x z = true) :
    fle (Config.pow64 x Config.altExp) (Config.pow64 z Config.altExp) = true := Config.powerFn.monotone x z h0 h

/-! ## How far a rounded result reaches -/

theorem roundHalfEven_le (num den q : Nat) (hd : 0 < den) (h : num < q * den) : roundHalfEven num den ≤ q := by
  have hq : num / den < q := (Nat.div_lt_iff_lt_mul hd).mpr h
  unfold roundHalfEven; dsimp only
  split
  · omega
  · split
    · omega
    · split <;> omega

/-- A value below `2^k` units rounds to a finite magnitude of at most `2^k` units. -/
theorem roundMag_bound (num den k : Nat) (hd : 0 < den) (hk : 53 ≤ k) (hk' : k ≤ 2097) (h : num < 2 ^ k * den) :
    roundMag num den < magInf ∧ magUnits (roundMag num den) ≤ 2 ^ k := by
  have hn : num / den < 2 ^ k := (Nat.div_lt_iff_lt_mul hd).mpr h
  have hlog : Nat.log2 (num / den) < k := by
    rcases Nat.eq_zero_or_pos (num / den) with h0 | h0
    · rw [h0, Nat.log2_zero]; omega
    · exact (Nat.log2_lt h0.ne').mpr hn
  have hK : lastPlace (num / den) ≤ k - 53 := by unfold lastPlace; omega
  have hlt : num / den < 2 ^ (lastPlace (num / den) + 53) := by
    refine lt_of_lt_of_le Nat.lt_log2_self (Nat.pow_le_pow_right (by decide) ?_)
    unfold lastPlace; omega
  have hq : roundHalfEven num (den <<< lastPlace (num / den)) ≤ 2 ^ 53 := by
    apply roundHalfEven_le
    · rw [Nat.shiftLeft_eq]; positivity
    · rw [Nat.shiftLeft_eq]
      have := (Nat.div_lt_iff_lt_mul hd).mp hlt
      calc num < _ := this
        _ = _ := by rw [pow_add]; ring
  have hm : lastPlace (num / den) * 2 ^ 52 + roundHalfEven num (den <<< lastPlace (num / den)) ≤ (k - 51) * 2 ^ 52 := by
    omega
  have hi : magInf = 2047 * 2 ^ 52 := by decide
  have hb : roundMag num den ≤ (k - 51) * 2 ^ 52 := by
    unfold roundMag; dsimp only; split <;> omega
  refine ⟨by omega, (magUnits_strictMono.monotone hb).trans (le_of_eq ?_)⟩
  have h1 : (k - 51) * 2 ^ 52 / 2 ^ 52 = k - 51 := Nat.mul_div_cancel _ (by decide)
  have h2 : (k - 51) * 2 ^ 52 % 2 ^ 52 = 0 := Nat.mul_mod_left _ _
  rw [magUnits, h1, h2, if_neg (by omega), Nat.shiftLeft_eq, Nat.add_zero, ← pow_add]
  congr 1; omega

/-- A finite value of magnitude at most `2^k`. -/
structure F64Below (k : Nat) (w : F64) : Prop where
  finite : f64IsFinite w = true
  units  : f64Units w ≤ 2 ^ k * oneUnits

theorem f64Mag_make (sign : Bool) (m : Nat) (h : m < 2 ^ 63) : f64Mag (f64Make sign m) = m := by
  cases sign
  · exact f64Mag_make_false m h
  · rw [f64Mag, f64Make, BitVec.toNat_ofNat, if_pos rfl]; omega

theorem roundUnits_below (sign : Bool) (num den k : Nat) (hd : 0 < den) (hk : k ≤ 1023)
    (h : num < 2 ^ k * oneUnits * den) : F64Below k (roundUnits sign num den) := by
  rw [oneUnits_eq, unitExponent, ← pow_add] at h
  obtain ⟨hf, hu⟩ := roundMag_bound num den (k + 1074) hd (by omega) (by omega) h
  have hi : magInf < 2 ^ 63 := by decide
  have hm : f64Mag (roundUnits sign num den) = roundMag num den := f64Mag_make _ _ (by omega)
  refine ⟨by rw [f64IsFinite, hm]; exact decide_eq_true hf, ?_⟩
  rw [f64Units, hm, oneUnits_eq, unitExponent, ← pow_add]; exact hu

theorem F64Below.mono {i j : Nat} {w : F64} (h : F64Below i w) (hij : i ≤ j) : F64Below j w :=
  ⟨h.finite, h.units.trans (Nat.mul_le_mul_right _ (Nat.pow_le_pow_right (by decide) hij))⟩

theorem f64OfInt_below (n : Int) (k : Nat) (hk : k ≤ 1023) (h : n.natAbs < 2 ^ k) : F64Below k (f64OfInt n) := by
  unfold f64OfInt
  split
  · have hz : f64Zero false = 0 := by decide
    have hu : f64Units 0 = 0 := by decide
    rw [hz]; exact ⟨by decide, by rw [hu]; exact Nat.zero_le _⟩
  · exact roundUnits_below _ _ _ _ Nat.one_pos hk (by
      rw [Nat.mul_one]; exact Nat.mul_lt_mul_of_pos_right h oneUnits_pos)

theorem fmul_below {a b : F64} {i j : Nat} (ha : F64Below i a) (hb : F64Below j b) (hk : i + j + 1 ≤ 1023) :
    F64Below (i + j + 1) (fmul a b) := by
  have na := f64IsNaN_of_finite ha.finite
  have nb := f64IsNaN_of_finite hb.finite
  simp only [fmul, na, nb, ha.finite, hb.finite, Bool.or_self, Bool.and_self, if_true, Bool.false_eq_true, if_false]
  refine roundUnits_below _ _ _ _ oneUnits_pos hk ?_
  have hU := oneUnits_pos
  calc f64Units a * f64Units b ≤ (2 ^ i * oneUnits) * (2 ^ j * oneUnits) := Nat.mul_le_mul ha.units hb.units
    _ < 2 ^ (i + j + 1) * oneUnits * oneUnits := by
      rw [pow_succ, pow_add]
      have : 0 < 2 ^ i * 2 ^ j * oneUnits * oneUnits := by positivity
      nlinarith

/-- A quotient by a value of magnitude at least 1. -/
theorem fdiv_below {a b : F64} {i : Nat} (ha : F64Below i a) (hb : f64IsFinite b = true) (h1 : oneUnits ≤ f64Units b)
    (hk : i + 1 ≤ 1023) : F64Below (i + 1) (fdiv a b) := by
  have na := f64IsNaN_of_finite ha.finite
  have nb := f64IsNaN_of_finite hb
  have hU := oneUnits_pos
  have hz : ¬ f64Units b = 0 := by omega
  simp only [fdiv, na, nb, ha.finite, hb, hz, Bool.or_self, if_true, Bool.false_eq_true, if_false]
  refine roundUnits_below _ _ _ _ (by omega) hk ?_
  calc f64Units a * oneUnits ≤ (2 ^ i * oneUnits) * f64Units b := Nat.mul_le_mul ha.units h1
    _ < 2 ^ (i + 1) * oneUnits * f64Units b := by
      rw [pow_succ]
      have : 0 < 2 ^ i * oneUnits * f64Units b := by positivity
      nlinarith

theorem constant_below (w : F64) (hf : f64IsFinite w = true) (h : f64Units w ≤ f64Units 0x40F0000000000000) :
    F64Below 16 w := by
  have h16 : f64Units 0x40F0000000000000 = 2 ^ 16 * oneUnits := by decide +kernel
  exact ⟨hf, h16 ▸ h⟩

/-- A signed or an unsigned calibration constant is below 2^16. -/
theorem sext16_below (b : Half) : F64Below 16 (f64OfInt (sext16 b)) :=
  f64OfInt_below _ _ (by decide) (by have := b.isLt; unfold sext16; rw [BitVec.toInt_eq_toNat_cond]; split <;> omega)

theorem zext16_below (b : Half) : F64Below 16 (f64OfInt (zext16 b)) :=
  f64OfInt_below _ _ (by decide) (by have := b.isLt; unfold zext16; omega)

/-! ## FIN (R172) -/

theorem fin_ok {v w : F64} {st : Stage} (h : fin v st = .ok w) : w = v ∧ f64IsFinite v = true := by
  unfold fin at h; split at h
  · rename_i hf; exact ⟨by simpa using h.symm, hf⟩
  · cases h

theorem fin_error {v : F64} {st : Stage} {e : Exc} (h : fin v st = .error e) :
    e = .numericDomain st ∧ f64IsFinite v = false := by
  unfold fin at h; split at h
  · cases h
  · rename_i hf; exact ⟨by simpa using h.symm, by simpa using hf⟩

/-- What the floating-point temperature step can give. -/
theorem tcompFp_finite {k : Coeffs} {raw : BitVec 16} {t : F64} (h : tcompFp k raw = .ok t) : f64IsFinite t = true := by
  simp only [tcompFp, bind, Except.bind] at h
  split at h
  · cases h
  · obtain ⟨rfl, hf⟩ := fin_ok h; exact hf

theorem tcompFp_error {k : Coeffs} {raw : BitVec 16} {e : Exc} (h : tcompFp k raw = .error e) :
    ∃ st, e = .numericDomain st := by
  simp only [tcompFp, bind, Except.bind] at h
  split at h
  · rename_i hq; cases h; exact ⟨_, (fin_error hq).1⟩
  · exact ⟨_, (fin_error h).1⟩

/-- What the floating-point pressure step can give. -/
theorem pcompFp_finite {k : Coeffs} {tc : F64} {raw : BitVec 19} {oss : BitVec 2} {p : F64}
    (h : pcompFp k tc raw oss = .ok p) : f64IsFinite p = true := by
  simp only [pcompFp, bind, Except.bind] at h
  split at h
  · cases h
  · split at h
    · cases h
    · split at h
      · cases h
      · obtain ⟨rfl, hf⟩ := fin_ok h; exact hf

theorem pcompFp_error {k : Coeffs} {tc : F64} {raw : BitVec 19} {oss : BitVec 2} {e : Exc}
    (h : pcompFp k tc raw oss = .error e) : ∃ st, e = .numericDomain st := by
  simp only [pcompFp, bind, Except.bind] at h
  split at h
  · rename_i hq; cases h; exact ⟨_, (fin_error hq).1⟩
  · split at h
    · rename_i hq; cases h; exact ⟨_, (fin_error hq).1⟩
    · split at h
      · rename_i hq; cases h; exact ⟨_, (fin_error hq).1⟩
      · exact ⟨_, (fin_error h).1⟩

/-! ## ALT (R232) -/

theorem altitude_finite {p r a : F64} (h : altitude p r = .ok a) : f64IsFinite a = true := by
  unfold altitude at h
  split at h
  · dsimp only at h
    split at h
    · cases h
    · obtain ⟨rfl, hf⟩ := fin_ok h; exact hf
  · cases h

theorem altitude_error {p r : F64} {e : Exc} (h : altitude p r = .error e) : ∃ st, e = .numericDomain st := by
  unfold altitude at h
  split at h
  · dsimp only at h
    split at h
    · cases h; exact ⟨_, rfl⟩
    · exact ⟨_, (fin_error h).1⟩
  · cases h; exact ⟨_, rfl⟩

/-- R233 property 1: a ratio of exactly 1 gives the altitude 0. -/
theorem altitude_of_ratio_one (p r : F64) (hr : flt f64PosZero r = true) (h : fdiv p r = f64One) :
    altitude p r = .ok 0 := by
  have h1 : flt f64One f64PosZero = false := by decide +kernel
  have h2 : fmul Config.altScale (fsub f64One f64One) = 0 := by decide +kernel
  have h3 : Config.pow64 f64One Config.altExp = f64One := Config.powerFn.one
  have h4 : f64IsFinite (0 : F64) = true := by decide
  simp only [altitude, hr, if_true, h, h1, h3, h2, fin, h4]
  rfl

end Sys2Proof.Machine
end

