-- ==== Sys2Proof/Laws/IntComp.lean ====
section
/-! SUPPORT. What the checks of the integer datapaths let through, and the exceptions each part can raise (41_int_compensation.md). -/

namespace Sys2Proof.Machine

theorem chkS32_ok {v w : Int} {st : Stage} (h : chkS32 v st = .ok w) : w = v ∧ -2147483648 ≤ v ∧ v ≤ 2147483647 := by
  unfold chkS32 at h; split at h
  · rename_i hb; exact ⟨by simpa using h.symm, hb⟩
  · cases h

theorem chkU32_ok {v w : Int} {st : Stage} (h : chkU32 v st = .ok w) : w = v ∧ 0 ≤ v ∧ v ≤ 4294967295 := by
  unfold chkU32 at h; split at h
  · rename_i hb; exact ⟨by simpa using h.symm, hb⟩
  · cases h

theorem chkS32_of_le (v : Int) (st : Stage) (h1 : -2147483648 ≤ v) (h2 : v ≤ 2147483647) : chkS32 v st = .ok v := by
  unfold chkS32; rw [if_pos ⟨h1, h2⟩]

theorem chkU32_of_le (v : Int) (st : Stage) (h1 : 0 ≤ v) (h2 : v ≤ 4294967295) : chkU32 v st = .ok v := by
  unfold chkU32; rw [if_pos ⟨h1, h2⟩]

/-- The only exceptions of the integer arithmetic (R9, R256, R257). -/
def IsIntExc (e : Exc) : Prop := (∃ st, e = .computationOverflow st) ∨ ∃ st, e = .divideByZero st

theorem chkS32_error {v : Int} {st : Stage} {e : Exc} (h : chkS32 v st = .error e) : IsIntExc e := by
  unfold chkS32 at h; split at h
  · cases h
  · cases h; exact .inl ⟨_, rfl⟩

theorem chkU32_error {v : Int} {st : Stage} {e : Exc} (h : chkU32 v st = .error e) : IsIntExc e := by
  unfold chkU32 at h; split at h
  · cases h
  · cases h; exact .inl ⟨_, rfl⟩

theorem tdivChk_error {a b : Int} {st : Stage} {e : Exc} (h : tdivChk a b st = .error e) : IsIntExc e := by
  unfold tdivChk at h; split at h
  · cases h; exact .inr ⟨_, rfl⟩
  · cases h

theorem udivChk_error {a b : Int} {st : Stage} {e : Exc} (h : udivChk a b st = .error e) : IsIntExc e := by
  unfold udivChk at h; split at h
  · cases h; exact .inr ⟨_, rfl⟩
  · cases h

/-- A sequence raises only what its parts raise. -/
theorem isIntExc_bind {α β : Type} {x : Except Exc α} {f : α → Except Exc β} {e : Exc} (h : (x >>= f) = .error e)
    (hx : ∀ e, x = .error e → IsIntExc e) (hf : ∀ a e, f a = .error e → IsIntExc e) : IsIntExc e := by
  cases x with
  | ok a => exact hf a e h
  | error e' => cases h; exact hx _ rfl

theorem tcompInt_error {c : Cal} {raw : BitVec 16} {e : Exc} (h : tcompInt c raw = .error e) : IsIntExc e := by
  unfold tcompInt at h
  refine isIntExc_bind h (fun _ h => chkS32_error h) fun _ _ h => ?_
  refine isIntExc_bind h (fun _ h => chkS32_error h) fun _ _ h => ?_
  refine isIntExc_bind h (fun _ h => chkS32_error h) fun _ _ h => ?_
  refine isIntExc_bind h (fun _ h => chkS32_error h) fun _ _ h => ?_
  refine isIntExc_bind h (fun _ h => tdivChk_error h) fun _ _ h => ?_
  refine isIntExc_bind h (fun _ h => chkS32_error h) fun _ _ h => ?_
  refine isIntExc_bind h (fun _ h => chkS32_error h) fun _ _ h => ?_
  cases h

theorem partB3_error {c : Cal} {b6 q : Int} {oss : BitVec 2} {e : Exc} (h : partB3 c b6 q oss = .error e) :
    IsIntExc e := by
  unfold partB3 at h
  refine isIntExc_bind h (fun _ h => chkS32_error h) fun _ _ h => ?_
  refine isIntExc_bind h (fun _ h => chkS32_error h) fun _ _ h => ?_
  refine isIntExc_bind h (fun _ h => chkS32_error h) fun _ _ h => ?_
  refine isIntExc_bind h (fun _ h => chkS32_error h) fun _ _ h => ?_
  refine isIntExc_bind h (fun _ h => chkS32_error h) fun _ _ h => ?_
  refine isIntExc_bind h (fun _ h => chkS32_error h) fun _ _ h => ?_
  refine isIntExc_bind h (fun _ h => chkS32_error h) fun _ _ h => ?_
  cases h

theorem partB4_error {c : Cal} {b6 q : Int} {e : Exc} (h : partB4 c b6 q = .error e) : IsIntExc e := by
  unfold partB4 at h
  refine isIntExc_bind h (fun _ h => chkS32_error h) fun _ _ h => ?_
  refine isIntExc_bind h (fun _ h => chkS32_error h) fun _ _ h => ?_
  refine isIntExc_bind h (fun _ h => chkS32_error h) fun _ _ h => ?_
  refine isIntExc_bind h (fun _ h => chkS32_error h) fun _ _ h => ?_
  refine isIntExc_bind h (fun _ h => chkU32_error h) fun _ _ h => ?_
  refine isIntExc_bind h (fun _ h => chkU32_error h) fun _ _ h => ?_
  cases h

theorem partQuot_error {b7 b4 : Int} {e : Exc} (h : partQuot b7 b4 = .error e) : IsIntExc e := by
  unfold partQuot at h
  split at h
  · exact isIntExc_bind h (fun _ h => chkU32_error h) fun _ _ h => udivChk_error h
  · exact isIntExc_bind h (fun _ h => udivChk_error h) fun _ _ h => chkU32_error h

theorem partDiv_error {raw : BitVec 19} {oss : BitVec 2} {b3 b4 : Int} {e : Exc} (h : partDiv raw oss b3 b4 = .error e) :
    IsIntExc e := by
  unfold partDiv at h
  refine isIntExc_bind h (fun _ h => chkU32_error h) fun _ _ h => ?_
  refine isIntExc_bind h (fun _ h => chkU32_error h) fun _ _ h => ?_
  split at h
  · cases h; exact .inr ⟨_, rfl⟩
  · exact isIntExc_bind h (fun _ h => partQuot_error h) fun _ _ h => chkS32_error h

theorem partFinal_error {p : Int} {e : Exc} (h : partFinal p = .error e) : IsIntExc e := by
  unfold partFinal at h
  refine isIntExc_bind h (fun _ h => chkS32_error h) fun _ _ h => ?_
  refine isIntExc_bind h (fun _ h => chkS32_error h) fun _ _ h => ?_
  refine isIntExc_bind h (fun _ h => chkS32_error h) fun _ _ h => ?_
  refine isIntExc_bind h (fun _ h => chkS32_error h) fun _ _ h => ?_
  refine isIntExc_bind h (fun _ h => chkS32_error h) fun _ _ h => ?_
  exact chkS32_error h

theorem pcompInt_error {c : Cal} {b5 : Int} {raw : BitVec 19} {oss : BitVec 2} {e : Exc}
    (h : pcompInt c b5 raw oss = .error e) : IsIntExc e := by
  unfold pcompInt at h
  refine isIntExc_bind h (fun _ h => chkS32_error h) fun _ _ h => ?_
  refine isIntExc_bind h (fun _ h => chkS32_error h) fun _ _ h => ?_
  refine isIntExc_bind h (fun _ h => partB3_error h) fun _ _ h => ?_
  refine isIntExc_bind h (fun _ h => partB4_error h) fun _ _ h => ?_
  refine isIntExc_bind h (fun _ h => partDiv_error h) fun _ _ h => ?_
  exact partFinal_error h

end Sys2Proof.Machine
end

