-- ==== Sys2Proof/Laws/PerInstr.lean ====
section
/-! SUPPORT. Per instruction, the "mask" and "match" of its row of spec/opcode_table.json, and that its encoding meets them for every
operand. -/

namespace Sys2Proof.Laws.RowMatch

/-- The row's "mask". -/
def rowMask (i : Instr) : Nat :=
  match i with
  | .init | .getId | .hasValidId | .reset | .measureT | .getData | .getAlt | .captureRef => 0xFFFFFFFF
  | .measureP _ | .setOss _ => 0xFCFFFFFF
  | .compT _ => 0xFFFF0000
  | .compP _ _ => 0xFCF80000
  | .trigT | .softReset => 0xFF
  | .trigP _ => 0x3F

/-- The row's "match". -/
def rowPattern (i : Instr) : Nat :=
  match i with
  | .init => 0x10000000
  | .getId => 0x20000000
  | .hasValidId => 0x30000000
  | .reset => 0x40000000
  | .measureT => 0x50000000
  | .measureP _ => 0x60000000
  | .compT _ => 0x70000000
  | .compP _ _ => 0x80000000
  | .setOss _ => 0x90000000
  | .getData => 0xA0000000
  | .getAlt => 0xB0000000
  | .captureRef => 0xC0000000
  | .trigT => 0x2E
  | .trigP _ => 0x34
  | .softReset => 0xB6

/-- The encoding as a number. -/
def encodedNat (e : Encoded) : Nat :=
  match e with
  | .cmd w => w.toNat
  | .sensor b => b.toNat

/-- The encoding of an instruction meets its table row, and its operands are within their fields. -/
def Statement (i : Instr) : Prop := encodedNat (encode i) &&& rowMask i = rowPattern i ∧ i.wellFormed = true

theorem init : Statement .init := by unfold Statement; decide
theorem getId : Statement .getId := by unfold Statement; decide
theorem hasValidId : Statement .hasValidId := by unfold Statement; decide
theorem reset : Statement .reset := by unfold Statement; decide
theorem measureT : Statement .measureT := by unfold Statement; decide
theorem measureP (oss : BitVec 2) : Statement (.measureP oss) := ⟨by revert oss; decide, Laws.wellFormed_every _⟩
theorem setOss (oss : BitVec 2) : Statement (.setOss oss) := ⟨by revert oss; decide, Laws.wellFormed_every _⟩
theorem getData : Statement .getData := by unfold Statement; decide
theorem getAlt : Statement .getAlt := by unfold Statement; decide
theorem captureRef : Statement .captureRef := by unfold Statement; decide
theorem trigT : Statement .trigT := by unfold Statement; decide
theorem trigP (oss : BitVec 2) : Statement (.trigP oss) := ⟨by revert oss; decide, Laws.wellFormed_every _⟩
theorem softReset : Statement .softReset := by unfold Statement; decide

theorem compT (raw : BitVec 16) : Statement (.compT raw) := by
  refine ⟨?_, Laws.wellFormed_every _⟩
  have h : (cmdWord 0x7 0 (raw.setWidth 19) &&& 0xFFFF0000#32) = 0x70000000#32 := by
    rw [Laws.and_eq_iff]
    simp only [Nat.forall_lt_succ_right, cmdWord]
    simp
  simpa [encode, encodedNat, rowMask, rowPattern] using congrArg BitVec.toNat h

theorem compP (oss : BitVec 2) (raw : BitVec 19) : Statement (.compP oss raw) := by
  refine ⟨?_, Laws.wellFormed_every _⟩
  have h : (cmdWord 0x8 oss raw &&& 0xFCF80000#32) = 0x80000000#32 := by
    rw [Laws.and_eq_iff]
    simp only [Nat.forall_lt_succ_right, cmdWord]
    simp
  simpa [encode, encodedNat, rowMask, rowPattern] using congrArg BitVec.toNat h

end Sys2Proof.Laws.RowMatch
end

