-- ==== Sys2Proof/Tests/Slice0.lean ====
section
/-! SUPPORT. Tests and witnesses. Expected values are from spec/95_test_vectors.md (section in each comment) and from the rules named;
`test_…` checks the model, `witness_…` shows concrete states and operands that meet the hypotheses of the obligation it is named
after, each clause of it. -/

namespace Sys2Proof.Tests

open Sys2Proof Sys2Proof.Machine Sys2Proof.Claims

/-! ## Small states -/

/-- The calibration set DS of 95_test_vectors.md. -/
def dsCal : Cal :=
  calOfWords [0x0198, 0xFFB8, 0xC7D1, 0x7FE5, 0x7FF5, 0x5A71, 0x182E, 0x0004, 0x8000, 0xDDF9, 0x0B34]

/-- The bytes of DS, as the sensor gives them. -/
def dsBytes : List (Byte × Byte × Byte) :=
  [(0x01, 0x98, 0), (0xFF, 0xB8, 0), (0xC7, 0xD1, 0), (0x7F, 0xE5, 0), (0x7F, 0xF5, 0), (0x5A, 0x71, 0),
   (0x18, 0x2E, 0), (0x00, 0x04, 0), (0x80, 0x00, 0), (0xDD, 0xF9, 0), (0x0B, 0x34, 0)]

/-- An engine of variant `v` after reset, with the oracle's answers `answers` listed. -/
def fresh (v : Variant) (answers : List BusAnswer) : State :=
  { State.resetWith { variant := v, devAddr := 0x77 } with bus := { Bus.reset with answers := answers } }

/-- The registers changed by `f`. -/
def regs (f : Engine → Engine) (s : State) : State := { s with eng := f s.eng }

/-- An engine of variant `v` that is Ready with calibration `c`. -/
def readyWith (v : Variant) (c : Cal) (answers : List BusAnswer) : State :=
  regs (fun g => { g with cal := some c, initState := .ready, dc := if v = .fp then some (deriveFn c) else none })
    (fresh v answers)

/-- An engine of variant `v` that is Ready with calibration DS. -/
def ready (v : Variant) (answers : List BusAnswer) : State := readyWith v dsCal answers

/-- The four answers of a cycle that reads the counts 27898 and, at oss 0, 23843. -/
def cycleAnswers : List BusAnswer := [done (0, 0, 0), done (0x6C, 0xFA, 0), done (0, 0, 0), done (0x5D, 0x23, 0)]

/-- The host's command words. -/
def commanded (ws : List Word) (s : State) : State := { s with port := { s.port with cmds := ws } }

/-- What a step leaves, as the tests read it. -/
def reading {α : Type} (f : State → α) (o : Host.Outcome State Fault Refusal) : Option α :=
  match o with
  | .next t => some (f t)
  | .fault _ => none
  | .refused _ => none

/-- The response a command put on the host port, and the registers it left. -/
def answered (o : Host.Outcome State Fault Refusal) : Option (Option (Status × Option Value × Option Value)) :=
  reading (fun t => t.port.responses.getLast?.map fun r => (r.status, r.v0, r.v1)) o

/-- A response, as `answered` gives it. -/
def resp (st : Status) (v0 v1 : Option Value) : Option (Option (Status × Option Value × Option Value)) :=
  some (some (st, v0, v1))

/-- The result of a datapath, as a test compares it. -/
def result {α : Type} (r : Except Exc α) : Option α × Option Exc :=
  match r with
  | .ok a => (some a, none)
  | .error e => (none, some e)

/-! ## WellFormed: every check refuses a line (R77) -/

theorem test_wellFormed_refuses_oss_4 : AsmLine.wellFormed { mnemonic := .measureP, oss := some 4 } = false := by decide
theorem test_wellFormed_refuses_setOss_4 : AsmLine.wellFormed { mnemonic := .setOss, oss := some 4 } = false := by decide
theorem test_wellFormed_refuses_raw_65536 : AsmLine.wellFormed { mnemonic := .compT, raw := some 65536 } = false := by
  decide
theorem test_wellFormed_refuses_raw_524288 :
    AsmLine.wellFormed { mnemonic := .compP, oss := some 0, raw := some 524288 } = false := by decide
theorem test_wellFormed_refuses_compP_oss_4 :
    AsmLine.wellFormed { mnemonic := .compP, oss := some 4, raw := some 0 } = false := by decide
theorem test_wellFormed_refuses_missing :
    AsmLine.wellFormed { mnemonic := .compP, raw := some 1 } = false ∧
    AsmLine.wellFormed { mnemonic := .setOss } = false ∧ AsmLine.wellFormed { mnemonic := .compT } = false := by decide
theorem test_wellFormed_refuses_extra :
    AsmLine.wellFormed { mnemonic := .init, oss := some 0 } = false ∧
    AsmLine.wellFormed { mnemonic := .getAlt, raw := some 0 } = false ∧
    AsmLine.wellFormed { mnemonic := .measureP, oss := some 1, raw := some 0 } = false ∧
    AsmLine.wellFormed { mnemonic := .compT, oss := some 0, raw := some 0 } = false := by decide
theorem test_wellFormed_accepts :
    AsmLine.wellFormed { mnemonic := .compP, oss := some 3, raw := some 524287 } = true ∧
    AsmLine.wellFormed { mnemonic := .compT, raw := some 65535 } = true ∧
    AsmLine.wellFormed { mnemonic := .init } = true := by decide

/-! ## Decoding (95 2.1; the sensor bytes of R79) -/

theorem test_decode_plain :
    decode 0x10000000 = .ok .init ∧ decode 0x20000000 = .ok .getId ∧ decode 0x30000000 = .ok .hasValidId ∧
    decode 0x40000000 = .ok .reset ∧ decode 0x50000000 = .ok .measureT ∧ decode 0xA0000000 = .ok .getData ∧
    decode 0xB0000000 = .ok .getAlt ∧ decode 0xC0000000 = .ok .captureRef := by decide
theorem test_decode_operands :
    decode 0x61000000 = .ok (.measureP 1) ∧ decode 0x70006CFA = .ok (.compT 27898) ∧
    decode 0x7000FFFF = .ok (.compT 65535) ∧ decode 0x80005D23 = .ok (.compP 0 23843) ∧
    decode 0x8100BA46 = .ok (.compP 1 47686) ∧ decode 0x8307FFFF = .ok (.compP 3 524287) ∧
    decode 0x93000000 = .ok (.setOss 3) := by decide
theorem test_decode_illegal :
    [0x00000000#32, 0xD0000000, 0xE0000000, 0xFFFFFFFF, 0x10000001, 0x51000000, 0x70010000, 0x71006CFA, 0x84005D23,
      0x80085D23, 0x93000001].all (fun w => decide (decode w = .error (.illegalCommand w))) = true := by decide +kernel
theorem test_decode_sensor :
    decodeSensor 0x2E = .ok .trigT ∧ decodeSensor 0x34 = .ok (.trigP 0) ∧ decodeSensor 0x74 = .ok (.trigP 1) ∧
    decodeSensor 0xB4 = .ok (.trigP 2) ∧ decodeSensor 0xF4 = .ok (.trigP 3) ∧ decodeSensor 0xB6 = .ok .softReset ∧
    decodeSensor 0x00 = .error (.unknownSensorByte 0x00) := by decide
theorem test_assemble :
    assemble { mnemonic := .compP, oss := some 1, raw := some 47686 } = some 0x8100BA46 ∧
    assemble { mnemonic := .compT, raw := some 27898 } = some 0x70006CFA ∧
    assemble { mnemonic := .measureP, oss := some 4 } = none := by decide
theorem test_decodeTableWord :
    decodeTableWord 32 0x61000000 = some (.measureP 1) ∧ decodeTableWord 8 0x74 = some (.trigP 1) ∧
    decodeTableWord 32 0x00000000 = none ∧ decodeTableWord 8 0x00 = none := by decide

/-! ## Bytes, codes, arithmetic (95 2.2, 2.4 to 2.7; R251, R270) -/

theorem test_assembly :
    sext16 (calWord [0xFF, 0xB8]) = -72 ∧ zext16 (calWord [0x7F, 0xE5]) = 32741 ∧ sext16 0xFFFF = -1 ∧
    zext16 0xFFFF = 65535 ∧ rawTemp [0x6C, 0xFA] = 27898 ∧ rawPress [0x5D, 0x23, 0x00] 1 = 47686 ∧
    rawPress [0x5A, 0x00, 0x00] 3 = 184320 ∧ rawPress [0xFF, 0xFF, 0xFF] 3 = 524287 := by decide +kernel
theorem test_tcompInt :
    result (tcompInt dsCal 27898) = (some (2400, 150), none) ∧ result (tcompInt dsCal 0) = (some (-22267, -1392), none) ∧
    result (tcompInt dsCal 20000) = (some (59665, 3729), none) := by decide +kernel
theorem test_tcompInt_raises :
    result (tcompInt { dsCal with ac6 := 0, ac5 := 0xFFFF } 65535) = (none, some (.computationOverflow .tM)) ∧
    result (tcompInt { dsCal with md := 0 } 23153) = (none, some (.divideByZero .tX2)) := by decide +kernel
theorem test_pcompInt :
    result (pcompInt dsCal 2400 23843 0) = (some 69964, none) ∧ result (pcompInt dsCal 2400 190744 3) = (some 69963, none) ∧
    result (pcompInt dsCal 2400 43371 0) = (some 128433, none) ∧ result (pcompInt dsCal 2400 43372 0) = (some 128435, none) ∧
    result (pcompInt dsCal 2400 422 0) = (some 236, none) ∧ result (pcompInt dsCal (-22267) 23843 0) = (some 47937, none) := by
  decide +kernel
theorem test_pcompInt_raises :
    result (pcompInt dsCal 2400 421 0) = (none, some (.computationOverflow .pB7a)) ∧
    result (pcompInt dsCal 59665 23843 0) = (none, some (.computationOverflow .pB6sq)) ∧
    result (pcompInt dsCal 41973 23843 0) = (none, some (.computationOverflow .pX2b)) ∧
    result (pcompInt { dsCal with ac3 := 0x8000, b1 := 0 } 36777 60000 0) = (none, some (.computationOverflow .pB4a)) ∧
    result (pcompInt { dsCal with ac4 := 0 } 2400 23843 0) = (none, some (.divideByZero .pPdiv)) ∧
    result (pcompInt { dsCal with ac4 := 1 } 2400 23843 0) = (none, some (.computationOverflow .pP)) ∧
    result (pcompInt { dsCal with ac4 := 1 } 2400 65535 0) = (none, some (.computationOverflow .pPb)) ∧
    result (pcompInt { dsCal with ac4 := 8000 } 2400 23843 0) = (none, some (.computationOverflow .pX1d)) := by
  decide +kernel
theorem test_tcompFp : result (tcompFp (deriveFn dsCal) 27898) = (some 0x402DFE87106AE90E, none) := by decide +kernel
theorem test_pcompFp :
    result (pcompFp (deriveFn dsCal) 0x402DFE87106AE90E 23843 0) = (some 0x40F114AB2329AD5F, none) ∧
    result (pcompFp (deriveFn dsCal) 0x402DFE87106AE90E 47686 1) = (some 0x40F114AB2329AD5F, none) := by decide +kernel
theorem test_fp_raises :
    result (tcompFp (deriveFn { dsCal with md := 0 }) 23153) = (none, some (.numericDomain .ftQ)) ∧
    result (pcompFp (deriveFn { dsCal with ac4 := 0 }) 0x402DFE87106AE90E 23843 0) =
      (none, some (.numericDomain .fpZ)) := by decide +kernel
theorem test_codes :
    statusCode .numericDomain = 9 ∧ statusCode .illegalCommand = 8 ∧ stageCode .pX2b = 0x1A ∧ stageCode .fpZ = 0x4A ∧
    stageCode .altRatio = 0x61 ∧ busInfo .write 0xE0 = 0x01E0 ∧ busInfo .read 0xD0 = 0x00D0 := by decide
/-- The altitude's formula takes the constants of R6: 44330.0 and the binary64 nearest 0.1902949572. -/
theorem test_altitude_constants : f64Rat Config.altScale = 44330 ∧ Config.altExp = 0x3FC85B95CCE244A4 := by
  constructor
  · have h : f64Int Config.altScale = 44330 * oneUnits := by decide +kernel
    have hU : (oneUnits : ℚ) ≠ 0 := by exact_mod_cast oneUnits_pos.ne'
    rw [f64Rat, h]; push_cast; field_simp
  · rfl

/-! ## One command each (95 2.3, 2.8 to 2.10, section 3) -/

theorem test_init :
    answered (exec .init (fresh .int (done (0x55, 0, 0) :: dsBytes.map done))) = resp .ok none none ∧
    reading (fun t => (t.eng.cal, t.eng.initState)) (exec .init (fresh .int (done (0x55, 0, 0) :: dsBytes.map done))) =
      some (some dsCal, .ready) := by decide +kernel
theorem test_init_foreign_and_failing :
    answered (exec .init (fresh .int [done (0x56, 0, 0)])) = resp .identityMismatch (some (.byte 0x56)) none ∧
    answered (exec .init (ready .int (done (0x55, 0, 0) :: (dsBytes.take 5).map done ++ [.fail]))) =
      resp .busError (some (.busInfo 0x00B4)) none := by decide +kernel
theorem test_getId : answered (exec .getId (fresh .int [done (0x56, 0, 0)])) = resp .ok (some (.byte 0x56)) none := by decide
theorem test_hasValidId :
    answered (exec .hasValidId (fresh .int [done (0x55, 0, 0)])) = resp .ok (some (.bit 1)) none ∧
    answered (exec .hasValidId (fresh .int [done (0xFF, 0, 0)])) = resp .ok (some (.bit 0)) none := by decide
/-- With every register absent, as reset leaves them, no instruction that reads one stops: its guard answers first with the
exception of R253, R255 or R259 (R40: "every read is guarded"). -/
theorem test_absent_registers_are_guarded :
    [Variant.int, Variant.fp].all (fun v =>
      [(Instr.compT 27898, Status.notInitialized), (.compP 0 23843, .notInitialized), (.getData, .notInitialized),
        (.captureRef, .notInitialized), (.getAlt, .noReferencePressure)].all fun e =>
        reading (fun t => t.port.responses.map fun r => r.status) (exec e.1 (fresh v [])) == some [e.2]) = true := by decide

theorem test_reset :
    reading (fun t => (t.eng.initState, t.eng.oss, t.bus.trace))
      (exec .reset (regs (fun g => { g with oss := 2 }) (ready .int [done (0, 0, 0)]))) =
      some (.uninit, 2, [.write 0x77 0xE0 0xB6 true]) := by decide
theorem test_reset_failing :
    answered (exec .reset (ready .int [.fail])) = resp .busError (some (.busInfo 0x01E0)) none := by decide
theorem test_measureT :
    answered (exec .measureT (fresh .int [done (0, 0, 0), done (0x6C, 0xFA, 0)])) = resp .ok (some (.u16 27898)) none := by
  decide
theorem test_measureP :
    answered (exec (.measureP 3) (fresh .int [done (0, 0, 0), done (0x5D, 0x23, 0)])) = resp .ok (some (.u19 190744)) none ∧
    reading (fun t => t.bus.trace) (exec (.measureP 3) (fresh .int [done (0, 0, 0), done (0x5D, 0x23, 0)])) =
      some [.write 0x77 0xF4 0xF4 true, .delay 26, .read 0x77 0xF6 3 (some [0x5D, 0x23, 0])] := by decide
theorem test_compT : answered (exec (.compT 27898) (ready .int [])) = resp .ok (some (.s32 150)) none := by decide +kernel
theorem test_compT_fp :
    answered (exec (.compT 27898) (ready .fp [])) = resp .ok (some (.f64 0x402DFE87106AE90E)) none := by decide +kernel
theorem test_compP :
    answered (exec (.compP 0 23843) (regs (fun g => { g with seq := .awaitingPressure, b5 := some 2400 }) (ready .int []))) =
      resp .ok (some (.s32 69964)) none := by decide +kernel
theorem test_compP_out_of_turn :
    answered (exec (.compP 0 23843) (ready .int [])) = resp .sequenceViolation none none ∧
    answered (exec (.compP 0 23843) (fresh .int [])) = resp .notInitialized none none := by decide
theorem test_setOss : reading (fun t => t.eng.oss) (exec (.setOss 2) (fresh .int [])) = some 2 := by decide
theorem test_getData :
    answered (exec .getData (ready .int cycleAnswers)) = resp .ok (some (.s32 150)) (some (.s32 69964)) := by decide +kernel
theorem test_getData_raises :
    answered (exec .getData (readyWith .int { dsCal with ac4 := 0 } cycleAnswers)) =
      resp .divideByZero (some (.stageCode 0x22)) none := by decide +kernel
theorem test_getAlt_without_reference :
    answered (exec .getAlt (ready .int [])) = resp .noReferencePressure none none := by decide
theorem test_captureRef :
    reading (fun t => (t.eng.refP, t.eng.refValid, t.eng.pubValid)) (exec .captureRef (ready .int cycleAnswers)) =
      some (some (.int 69964), true, true) := by decide +kernel
theorem test_trigT : reading (fun t => t.bus.conv) (exec .trigT (fresh .int [])) = some (some .temperature) := by decide
theorem test_trigP : reading (fun t => t.bus.conv) (exec (.trigP 2) (fresh .int [])) = some (some (.pressure 2)) := by decide
theorem test_softReset :
    reading (fun t => t.bus.conv) (exec .softReset { fresh .int [] with bus := { Bus.reset with conv := some .temperature } }) =
      some none := by decide
theorem test_step_illegal_first :
    answered (step (commanded [0x84005D23] (fresh .int []))) = resp .illegalCommand (some (.word 0x84005D23)) none := by
  decide
theorem test_step_of_placed_word :
    answered (step (State.reset.withFetchWord 32 0x92000000)) = resp .ok none none ∧
    reading (fun t => t.bus.conv) (step (State.reset.withFetchWord 8 0xF4)) = some (some (.pressure 3)) := by decide
theorem test_program1_tail :
    answered (exec (.compP 0 23843) (regs (fun g => { g with seq := .ready, b5 := some 2400 }) (ready .int []))) =
      resp .sequenceViolation none none := by decide

/-! ## Witnesses: the hypotheses of each obligation, met by concrete states and operands -/

/-- Ready with DS, COMP_T done on 27898: the temperature is cached. -/
def cached (v : Variant) : State :=
  regs (fun g => { g with
    seq := .awaitingPressure
    b5 := if v = .int then some 2400 else none
    tc := if v = .fp then some 0x402DFE87106AE90E else none }) (ready v [])

/-- A state with a pair published and a reference captured, both as given. -/
def referenced (p r : Quantity) : State :=
  regs (fun g => { g with tPub := some (.int 150), pPub := some p, pubValid := true, refP := some r, refValid := true })
    (ready .int [])

/-- A step answers some next state. -/
def goesOn (o : Host.Outcome State Fault Refusal) : Bool := (reading (fun _ => ()) o).isSome

theorem next_of_goesOn {o : Host.Outcome State Fault Refusal} (h : goesOn o = true) : ∃ t, o = .next t := by
  cases o with
  | next t => exact ⟨t, rfl⟩
  | fault r => cases h
  | refused r => cases h

theorem ok_of_result {α : Type} {r : Except Exc α} {a : α} (h : result r = (some a, none)) : r = .ok a := by
  cases r <;> simp_all [result]

theorem error_of_result {α : Type} {r : Except Exc α} {e : Exc} (h : result r = (none, some e)) : r = .error e := by
  cases r <;> simp_all [result]

theorem witness_EveryLegalWordIsItsEncoding :
    decode 0x8307FFFF = .ok (.compP 3 524287) ∧ decodeSensor 0xF4 = .ok (.trigP 3) := by decide

theorem witness_AssemblerEmitsOnlyLegalWords :
    assemble { mnemonic := .compP, raw := some 524287, oss := some 3 } = some 0x8307FFFF ∧
    lineOf (.compP 3 524287) = { mnemonic := .compP, raw := some 524287, oss := some 3 } ∧
    encode (.compP 3 524287) = .cmd 0x8307FFFF := by decide

theorem witness_StepRunsTheDecodedInstruction :
    (commanded [0xA0000000, 0x10000000] (fresh .fp [])).bus.pending = none ∧
    (commanded [0xA0000000, 0x10000000] (fresh .fp [])).port.cmds = [0xA0000000, 0x10000000] ∧
    decode 0xA0000000 = .ok .getData ∧
    { Bus.reset with pending := some 0xB4 }.pending = some 0xB4 ∧ decodeSensor 0xB4 = .ok (.trigP 2) := by decide

theorem witness_IllegalWordAnswersWithTheWord :
    (commanded [0x93000001] (fresh .int [])).port.cmds = [0x93000001] ∧
    decode 0x93000001 = .error (.illegalCommand 0x93000001) ∧
    (fresh .int []).bus.pending = none ∧ (fresh .int []).port.cmds = [] := by decide

theorem witness_GetIdAnswersTheByteRead :
    (fresh .int [done (0x00, 0, 0)]).bus.answers = done (0x00, 0, 0) :: [] ∧
    (fresh .int [.fail]).bus.answers = .fail :: [] := by decide

theorem witness_HasValidIdComparesWith0x55 :
    (fresh .int [done (0x54, 0, 0)]).bus.answers = done (0x54, 0, 0) :: [] ∧
    (fresh .int [.fail]).bus.answers = .fail :: [] := by decide

theorem witness_InitLoadsTheCalibrationRead :
    dsBytes.length = 11 ∧
    (fresh .fp (done (0x55, 0, 0) :: (dsBytes.map done ++ [.fail]))).bus.answers =
      done (0x55, 0, 0) :: (dsBytes.map done ++ [.fail]) := by decide

theorem witness_InitStopsOnAForeignIdentity :
    (0x56 : Byte) ≠ 0x55 ∧ (fresh .int [done (0x56, 0, 0)]).bus.answers = done (0x56, 0, 0) :: [] ∧
    (ready .int [.fail]).bus.answers = .fail :: [] := by decide

/-- No read before the failing one, and all but the last. -/
theorem witness_InitFailedReadLeavesUninit :
    (dsBytes.take 0).length < 11 ∧ (dsBytes.take 10).length < 11 ∧
    (fresh .int (done (0x55, 0, 0) :: ((dsBytes.take 0).map done ++ .fail :: []))).bus.answers =
      done (0x55, 0, 0) :: ((dsBytes.take 0).map done ++ .fail :: []) ∧
    (fresh .int (done (0x55, 0, 0) :: ((dsBytes.take 10).map done ++ .fail :: []))).bus.answers =
      done (0x55, 0, 0) :: ((dsBytes.take 10).map done ++ .fail :: []) := by decide

theorem witness_ResetEndsTheSession :
    (ready .int [done (0, 0, 0)]).bus.answers = done (0, 0, 0) :: [] ∧
    (ready .int [.fail]).bus.answers = .fail :: [] := by decide

theorem witness_MeasureTTriggersWaitsReads :
    (regs (fun g => { g with initState := .identityFailed }) (fresh .int [])).eng.initState = .identityFailed ∧
    (fresh .int [.fail]).eng.initState ≠ .identityFailed ∧ (fresh .int [.fail]).bus.answers = .fail :: [] ∧
    (fresh .int [done (0, 0, 0), .fail]).bus.answers = done (0, 0, 0) :: .fail :: [] ∧
    (fresh .int [done (0, 0, 0), done (0x6C, 0xFA, 0)]).bus.answers = done (0, 0, 0) :: done (0x6C, 0xFA, 0) :: [] := by
  decide

theorem witness_MeasurePTriggersWaitsReads :
    (regs (fun g => { g with initState := .identityFailed }) (fresh .int [])).eng.initState = .identityFailed ∧
    (ready .fp [.fail]).eng.initState ≠ .identityFailed ∧ (ready .fp [.fail]).bus.answers = .fail :: [] ∧
    (ready .fp [done (0, 0, 0), .fail]).bus.answers = done (0, 0, 0) :: .fail :: [] ∧
    (ready .fp [done (0, 0, 0), done (0xFF, 0xFF, 0xFF)]).bus.answers =
      done (0, 0, 0) :: done (0xFF, 0xFF, 0xFF) :: [] := by decide

/-! ### The integer datapaths -/

/-- `T.m` at 65535 × 65535, a zero denominator, and the datasheet's count. -/
theorem witness_IntTemperatureClosedForm :
    ¬ inS32 ((65535 - valAC6 { dsCal with ac6 := 0, ac5 := 0xFFFF }) * valAC5 { dsCal with ac6 := 0, ac5 := 0xFFFF }) ∧
    inS32 ((23153 - valAC6 { dsCal with md := 0 }) * valAC5 { dsCal with md := 0 }) ∧
    Int.fdiv ((23153 - valAC6 { dsCal with md := 0 }) * valAC5 { dsCal with md := 0 }) (2 ^ 15) +
      valMD { dsCal with md := 0 } = 0 ∧
    inS32 ((27898 - valAC6 dsCal) * valAC5 dsCal) ∧
    Int.fdiv ((27898 - valAC6 dsCal) * valAC5 dsCal) (2 ^ 15) + valMD dsCal ≠ 0 := by unfold inS32; decide +kernel

theorem witness_IntB5StaysWithinBounds : tcompInt dsCal 0 = .ok (-22267, -1392) :=
  ok_of_result (by decide +kernel)

theorem witness_IntB3ClosedForm :
    (-46340 ≤ (46340 : Int) ∧ ¬ inS32 (valB2 { dsCal with b2 := 0x8000 } * Int.fdiv (46340 * 46340) (2 ^ 12))) ∧
    ((-46340 : Int) ≤ 46340 ∧ inS32 (valB2 dsCal * Int.fdiv (-46340 * -46340) (2 ^ 12))) := by unfold inS32; decide +kernel

/-- B6 = 46340, with B1, AC3 and AC4 chosen for each clause; the last two straddle 2^32 - 1. -/
theorem witness_IntB4ClosedForm :
    let q : Int := Int.fdiv (46340 * 46340) (2 ^ 12)
    let u : Cal → Int := fun c =>
      Int.fdiv (Int.fdiv (valAC3 c * 46340) (2 ^ 13) + Int.fdiv (valB1 c * q) (2 ^ 16) + 2) (2 ^ 2) + 32768
    ¬ inS32 (valB1 dsCal * q) ∧
    (inS32 (valB1 { dsCal with b1 := 0, ac3 := 0x8000 } * q) ∧ u { dsCal with b1 := 0, ac3 := 0x8000 } < 0) ∧
    (inS32 (valB1 { dsCal with b1 := 0, ac3 := 0x7FFF, ac4 := 0xFFFF } * q) ∧
      0 ≤ u { dsCal with b1 := 0, ac3 := 0x7FFF, ac4 := 0xFFFF } ∧
      4294967295 < valAC4 { dsCal with b1 := 0, ac3 := 0x7FFF, ac4 := 0xFFFF } *
        u { dsCal with b1 := 0, ac3 := 0x7FFF, ac4 := 0xFFFF }) ∧
    (inS32 (valB1 { dsCal with b1 := 0, ac3 := 0, ac4 := 0xFFFF } * q) ∧
      0 ≤ u { dsCal with b1 := 0, ac3 := 0, ac4 := 0xFFFF } ∧
      valAC4 { dsCal with b1 := 0, ac3 := 0, ac4 := 0xFFFF } * u { dsCal with b1 := 0, ac3 := 0, ac4 := 0xFFFF } ≤
        4294967295) := by unfold inS32; decide +kernel

/-- oss 0: dd = -1 and 0, dd one above and at the greatest that fits, B4 = 0, 1 and 2, B7 just below and above 2^31. -/
theorem witness_IntQuotientKeepsBothArms :
    let dd : BitVec 19 → Int → Int := fun r b3 => r.toNat - b3
    (dd 421 422 < 0) ∧
    (0 ≤ dd 85900 0 ∧ 4294967295 < dd 85900 0 * 50000) ∧
    (0 ≤ dd 0 0 ∧ dd 0 0 * 50000 ≤ 4294967295) ∧
    (0 ≤ dd 85899 0 ∧ dd 85899 0 * 50000 ≤ 4294967295 ∧ 0x80000000 ≤ dd 85899 0 * 50000) ∧
    (0 ≤ dd 42949 0 ∧ dd 42949 0 * 50000 ≤ 4294967295 ∧ dd 42949 0 * 50000 < 0x80000000 ∧
      2147483647 < dd 42949 0 * 50000 * 2 / 1) ∧
    (0 ≤ dd 85899 0 ∧ (1 : Int) ≤ 2 ∧ ((2 : Int) = 1 → dd 85899 0 * 50000 < 0x80000000) ∧
      2147483647 < dd 85899 0 * 50000 / 2 * 2) ∧
    (0 ≤ dd 42950 0 ∧ 0x80000000 ≤ dd 42950 0 * 50000 ∧ (1 : Int) ≤ 3 ∧ dd 42950 0 * 50000 / 3 * 2 ≤ 2147483647) := by
  decide +kernel

theorem witness_IntFinalCorrectionClosedForm :
    (0 ≤ (215295 : Int) ∧ (215295 : Int) ≤ 215295) ∧ ((215295 : Int) < 215296 ∧ (215296 : Int) < 46341 * 256) ∧
    ((46341 * 256 : Int) ≤ 46341 * 256 ∧ (46341 * 256 : Int) ≤ 2147483647) := by decide

/-- rawP one above the least count that passes `P.B7a`. -/
theorem witness_IntPressureIsAtLeastOne : pcompInt dsCal 2400 422 0 = .ok 236 := ok_of_result (by decide +kernel)

/-! ### Compensation and cycles -/

theorem witness_CompTInt :
    (regs (fun g => { g with initState := .identityFailed }) (fresh .int [])).eng.initState = .identityFailed ∧
    (fresh .int []).eng.initState = .uninit ∧
    (ready .int []).eng.initState = .ready ∧ (ready .int []).cfg.variant = .int ∧ (ready .int []).eng.cal = some dsCal ∧
    tcompInt dsCal 27898 = .ok (2400, 150) ∧
    tcompInt { dsCal with ac6 := 0, ac5 := 0xFFFF } 65535 = .error (.computationOverflow .tM) ∧
    tcompInt { dsCal with md := 0 } 23153 = .error (.divideByZero .tX2) :=
  ⟨rfl, rfl, rfl, rfl, rfl, ok_of_result (by decide +kernel), error_of_result (by decide +kernel),
    error_of_result (by decide +kernel)⟩

/-- The datasheet's count; the two raises, with the coefficient sets that give them. -/
theorem witness_CompTFp :
    (ready .fp []).eng.initState = .ready ∧ (ready .fp []).cfg.variant = .fp ∧
    (ready .fp []).eng.dc = some (deriveFn dsCal) ∧
    (let k := deriveFn dsCal
     let a := fmul k.c5 (fsub (f64OfInt 27898) k.c6)
     let q := fdiv k.mc (fadd a k.md)
     f64IsFinite q = true ∧ f64IsFinite (fadd a q) = true) ∧
    (let k := deriveFn { dsCal with md := 0 }
     let a := fmul k.c5 (fsub (f64OfInt 23153) k.c6)
     f64IsFinite (fdiv k.mc (fadd a k.md)) = false) ∧
    (let k : Coeffs := { deriveFn dsCal with c5 := 0x7FEFFFFFFFFFFFFF, md := 0 }
     let a := fmul k.c5 (fsub (f64OfInt 65535) k.c6)
     let q := fdiv k.mc (fadd a k.md)
     f64IsFinite q = true ∧ f64IsFinite (fadd a q) = false) := by decide +kernel

/-- PCOMP_INT, clause by clause: B6 one below s32; B6 = 46341 and -46341; B3, B4 and the quotient raise; all four parts run, at
the datasheet's B5 = 2400, where B6 = -1600 and q = 625. -/
theorem witness_CompPInt_parts :
    ¬ inS32 (-2147479649 - 4000 : Int) ∧
    (inS32 (50341 - 4000 : Int) ∧ (46340 : Int) < 50341 - 4000) ∧ (inS32 (-42341 - 4000 : Int) ∧ (-42341 - 4000 : Int) < -46340) ∧
    ((-46340 : Int) ≤ 2400 - 4000 ∧ (2400 - 4000 : Int) ≤ 46340 ∧ Int.fdiv ((2400 - 4000) * (2400 - 4000)) (2 ^ 12) = 625) ∧
    partB3 { dsCal with b2 := 0x7FFF } 46340 524257 0 = .error (.computationOverflow .pX1a) ∧
    partB3 dsCal (-1600) 625 0 = .ok 422 ∧
    partB4 { dsCal with ac3 := 0x8000, b1 := 0 } 46340 524257 = .error (.computationOverflow .pB4a) ∧
    partB4 dsCal (-1600) 625 = .ok 33457 ∧
    partDiv 421 0 422 33457 = .error (.computationOverflow .pB7a) ∧ partDiv 23843 0 422 33457 = .ok 70003 :=
  ⟨by unfold inS32; decide, ⟨by unfold inS32; decide, by decide⟩, ⟨by unfold inS32; decide, by decide⟩, by decide,
    error_of_result (by decide +kernel), ok_of_result (by decide +kernel), error_of_result (by decide +kernel),
    ok_of_result (by decide +kernel), error_of_result (by decide +kernel), ok_of_result (by decide +kernel)⟩

theorem witness_CompPInt :
    (regs (fun g => { g with initState := .identityFailed }) (fresh .int [])).eng.initState = .identityFailed ∧
    (fresh .int []).eng.initState = .uninit ∧ (ready .int []).eng.seq ≠ .awaitingPressure ∧
    (cached .int).eng.initState = .ready ∧ (cached .int).eng.seq = .awaitingPressure ∧ (cached .int).cfg.variant = .int ∧
    (cached .int).eng.cal = some dsCal ∧ (cached .int).eng.b5 = some 2400 ∧
    pcompInt dsCal (2400 : S32).toInt 23843 0 = .ok 69964 ∧
    pcompInt dsCal (2400 : S32).toInt 421 0 = .error (.computationOverflow .pB7a) ∧
    pcompInt { dsCal with ac4 := 0 } (2400 : S32).toInt 23843 0 = .error (.divideByZero .pPdiv) :=
  ⟨rfl, rfl, by decide, rfl, rfl, rfl, rfl, rfl, ok_of_result (by decide +kernel), error_of_result (by decide +kernel),
    error_of_result (by decide +kernel)⟩

theorem witness_CompPFp :
    (cached .fp).eng.initState = .ready ∧ (cached .fp).eng.seq = .awaitingPressure ∧ (cached .fp).cfg.variant = .fp ∧
    (cached .fp).eng.dc = some (deriveFn dsCal) ∧ (cached .fp).eng.tc = some 0x402DFE87106AE90E := ⟨rfl, rfl, rfl, rfl, rfl⟩

theorem witness_CompPConsumesTheTemperature :
    (cached .int).eng.initState = .ready ∧ (cached .int).eng.seq = .awaitingPressure ∧
    ∃ t, exec (.compP 0 23843) (cached .int) = .next t := ⟨rfl, rfl, next_of_goesOn (by decide +kernel)⟩

theorem witness_GetDataPublishesThePair :
    (ready .int cycleAnswers).eng.initState = .ready ∧
    (ready .int cycleAnswers).bus.answers =
      done (0, 0, 0) :: done (0x6C, 0xFA, 0) :: done (0, 0, 0) :: done (0x5D, 0x23, 0) :: [] ∧
    (ready .int cycleAnswers).eng.cal = some dsCal ∧
    tcompInt dsCal (rawTemp [0x6C, 0xFA]) = .ok (2400, 150) ∧
    pcompInt dsCal 2400 (rawPress [0x5D, 0x23, 0] 0) 0 = .ok 69964 ∧
    (ready .fp cycleAnswers).eng.dc = some (deriveFn dsCal) ∧
    tcompFp (deriveFn dsCal) (rawTemp [0x6C, 0xFA]) = .ok 0x402DFE87106AE90E ∧
    pcompFp (deriveFn dsCal) 0x402DFE87106AE90E (rawPress [0x5D, 0x23, 0] 0) 0 = .ok 0x40F114AB2329AD5F :=
  ⟨rfl, rfl, rfl, ok_of_result (by decide +kernel), ok_of_result (by decide +kernel), rfl,
    ok_of_result (by decide +kernel), ok_of_result (by decide +kernel)⟩

theorem witness_GetDataBusFailures :
    (ready .int [.fail]).eng.initState = .ready ∧ (ready .int [.fail]).bus.answers = .fail :: [] ∧
    (ready .int [done (0, 0, 0), .fail]).bus.answers = done (0, 0, 0) :: .fail :: [] ∧
    tempSucceeds (ready .int [done (0, 0, 0), done (0x6C, 0xFA, 0), .fail]) (rawTemp [0x6C, 0xFA]) ∧
    tempSucceeds (ready .fp [done (0, 0, 0), done (0x6C, 0xFA, 0), done (0, 0, 0), .fail]) (rawTemp [0x6C, 0xFA]) :=
  ⟨rfl, rfl, rfl, .inl ⟨rfl, dsCal, 2400, 150, rfl, ok_of_result (by decide +kernel)⟩,
    .inr ⟨rfl, deriveFn dsCal, 0x402DFE87106AE90E, rfl, ok_of_result (by decide +kernel)⟩⟩

theorem witness_GetDataDatapathExceptions :
    (readyWith .int { dsCal with ac4 := 0 } cycleAnswers).eng.initState = .ready ∧
    tempRaises (readyWith .int { dsCal with md := 0 } []) 23153 (.divideByZero .tX2) ∧
    tempRaises (readyWith .fp { dsCal with md := 0 } []) 23153 (.numericDomain .ftQ) ∧
    pressRaises (readyWith .int { dsCal with ac4 := 0 } cycleAnswers) (rawTemp [0x6C, 0xFA]) (rawPress [0x5D, 0x23, 0] 0)
      (.divideByZero .pPdiv) ∧
    pressRaises (readyWith .fp { dsCal with ac4 := 0 } cycleAnswers) (rawTemp [0x6C, 0xFA]) (rawPress [0x5D, 0x23, 0] 0)
      (.numericDomain .fpZ) :=
  ⟨rfl, .inl ⟨rfl, _, rfl, error_of_result (by decide +kernel)⟩, .inr ⟨rfl, _, rfl, error_of_result (by decide +kernel)⟩,
    .inl ⟨rfl, _, 2400, 150, rfl, ok_of_result (by decide +kernel), error_of_result (by decide +kernel)⟩,
    .inr ⟨rfl, _, 0x402DFE87106AE90E, rfl, ok_of_result (by decide +kernel), error_of_result (by decide +kernel)⟩⟩

theorem witness_CaptureRefIsGetDataPlusReference :
    (∃ t, exec .getData (ready .int cycleAnswers) = .next t) ∧
    exec .getData (regs (fun g => { g with cal := none }) (ready .int cycleAnswers)) = .fault (.absentRead .cal) :=
  ⟨next_of_goesOn (by decide +kernel), rfl⟩

theorem witness_CaptureRefKeepsThePressure :
    (ready .fp cycleAnswers).eng.initState = .ready ∧
    (ready .fp cycleAnswers).bus.answers =
      done (0, 0, 0) :: done (0x6C, 0xFA, 0) :: done (0, 0, 0) :: done (0x5D, 0x23, 0) :: [] ∧
    (ready .fp cycleAnswers).eng.dc = some (deriveFn dsCal) ∧ (ready .int cycleAnswers).eng.cal = some dsCal := by
  exact ⟨rfl, rfl, rfl, rfl⟩

/-! ### Altitude -/

/-- P = REF = 101325 Pa: the altitude is 0 (95 S2). -/
theorem altitude_at_reference : altitude (quantityF64 (.int 101325)) (quantityF64 (.int 101325)) = .ok 0 :=
  altitude_of_ratio_one _ _ (by decide +kernel) (by decide +kernel)

theorem altitude_at_zero_reference :
    altitude (quantityF64 (.fp 0x40F8BCD000000000)) (quantityF64 (.fp 0)) = .error (.numericDomain .altRef) := by
  have h : flt f64PosZero (quantityF64 (.fp 0)) = false := by decide +kernel
  rw [altitude, h]; rfl

theorem witness_GetAltAnswersFromPublishedAndReference :
    (ready .int []).eng.refValid = false ∧
    (referenced (.int 101325) (.int 101325)).eng.refValid = true ∧
    (referenced (.int 101325) (.int 101325)).eng.pPub = some (.int 101325) ∧
    (referenced (.int 101325) (.int 101325)).eng.refP = some (.int 101325) ∧
    altitude (quantityF64 (.int 101325)) (quantityF64 (.int 101325)) = .ok 0 ∧
    altitude (quantityF64 (.fp 0x40F8BCD000000000)) (quantityF64 (.fp 0)) = .error (.numericDomain .altRef) :=
  ⟨rfl, rfl, rfl, rfl, altitude_at_reference, altitude_at_zero_reference⟩

theorem witness_GetAltAtTheReferenceIsZero :
    (referenced (.int 101325) (.int 101325)).eng.refValid = true ∧
    (referenced (.int 101325) (.int 101325)).eng.pPub = some (.int 101325) ∧
    (referenced (.int 101325) (.int 101325)).eng.refP = some (.int 101325) ∧
    f64IsFinite (quantityF64 (.int 101325)) = true ∧ 0 < f64Rat (quantityF64 (.int 101325)) :=
  ⟨rfl, rfl, rfl, by decide +kernel, (f64Rat_pos_iff _).mpr (by decide +kernel)⟩

/-- R = 0; P = -5 over 101325; P = 0; P = R; each finite. -/
theorem witness_AltitudeDomainAndFormula :
    f64IsFinite 0x40F8BCD000000000 = true ∧ f64IsFinite 0xC014000000000000 = true ∧ f64IsFinite 0 = true ∧
    f64Rat 0 ≤ 0 ∧ 0 < f64Rat 0x40F8BCD000000000 ∧ flt (fdiv 0xC014000000000000 0x40F8BCD000000000) 0 = true ∧
    f64Rat 0 = 0 ∧ flt (fdiv 0x40F8BCD000000000 0x40F8BCD000000000) 0 = false := by
  refine ⟨by decide, by decide, by decide, ?_, (f64Rat_pos_iff _).mpr (by decide +kernel), by decide +kernel, ?_,
    by decide +kernel⟩
  · exact ((f64Rat_eq_zero_iff _).mpr (by decide +kernel)).le
  · exact (f64Rat_eq_zero_iff _).mpr (by decide +kernel)

theorem witness_AltitudeSignFollowsThePressure :
    f64IsFinite (quantityF64 (.int 101325)) = true ∧ 0 < f64Rat (quantityF64 (.int 101325)) ∧
    altitude (quantityF64 (.int 101325)) (quantityF64 (.int 101325)) = .ok 0 ∧
    f64Rat (quantityF64 (.int 101325)) ≤ f64Rat (quantityF64 (.int 101325)) :=
  ⟨by decide +kernel, (f64Rat_pos_iff _).mpr (by decide +kernel), altitude_at_reference, le_refl _⟩

/-! ### Binary64 -/

/-- 1.0 and 3.0, of which the quotient is not exact; a divisor -0.0; the greatest finite value, which stays itself when less
than half its last place (2^970) is added, and becomes an infinity when half is. -/
theorem witness_FloatOperationsRoundToNearest :
    f64IsFinite 0x3FF0000000000000 = true ∧ f64IsFinite 0x4008000000000000 = true ∧
    f64IsFinite (fadd 0x3FF0000000000000 0x4008000000000000) = true ∧
    f64IsFinite (fsub 0x3FF0000000000000 0x4008000000000000) = true ∧
    f64IsFinite (fmul 0x3FF0000000000000 0x4008000000000000) = true ∧ f64Rat 0x4008000000000000 ≠ 0 ∧
    f64IsFinite (fdiv 0x3FF0000000000000 0x4008000000000000) = true ∧
    f64IsFinite 0x8000000000000000 = true ∧ f64Rat 0x8000000000000000 = 0 ∧
    fadd 0x7FEFFFFFFFFFFFFF 0x7C8FFFFFFFFFFFFF = 0x7FEFFFFFFFFFFFFF ∧
    f64IsFinite (fadd 0x7FEFFFFFFFFFFFFF 0x7C90000000000000) = false :=
  ⟨by decide, by decide, by decide +kernel, by decide +kernel, by decide +kernel,
    ((f64Rat_pos_iff _).mpr (by decide +kernel)).ne', by decide +kernel, by decide,
    (f64Rat_eq_zero_iff _).mpr (by decide +kernel), by decide +kernel, by decide +kernel⟩

/-- Half the least subnormal, and the halfway point between the first two values above 2^53 units. -/
theorem witness_FloatTiesGoToEven :
    (0 < 2 ∧ 0 + 1 < magInf ∧ 2 * 1 = (magUnits 0 + magUnits (0 + 1)) * 2) ∧
    (0 < 1 ∧ 0x20000000000001 + 1 < magInf ∧
      2 * (2 ^ 53 + 3) = (magUnits 0x20000000000001 + magUnits (0x20000000000001 + 1)) * 1) := by decide +kernel

/-- R171's example: four coefficients of the datasheet's calibration at the patterns of the spec's table. -/
theorem test_deriveFn :
    (deriveFn dsCal).c4 = 0x3F505ED916872B02 ∧ (deriveFn dsCal).mc = 0xC085C70A3D70A3D7 ∧
    (deriveFn dsCal).md = 0x4031ECCCCCCCCCCD ∧ (deriveFn dsCal).y1 = 0xBFB1F6C481EB851F := by decide +kernel

theorem witness_FloatConversionsAreExact :
    -(2 ^ 53) < ((2 ^ 53 - 1 : Int)) ∧ ((2 ^ 53 - 1 : Int)) < 2 ^ 53 ∧ -(2 ^ 53) < (-(2 ^ 53 - 1) : Int) := by decide

/-! ### Invariants and rules over all operations -/

/-- The words of a run: SET_OSS, an illegal word, COMP_P out of turn. -/
def running (v : Variant) : State := commanded [0x93000000, 0x10000001, 0x80005D23] (ready v [])

theorem ready_sessionInv (v : Variant) : SessionInv (running v) := by
  cases v <;> exact ⟨by decide, by decide, by decide, by decide⟩

theorem ready_calInv (v : Variant) : CalInv (running v) := by
  cases v
  · exact fun _ => ⟨dsCal, rfl, fun h => by cases h⟩
  · exact fun _ => ⟨dsCal, rfl, fun _ => rfl⟩

theorem ready_presentInv (v : Variant) : PresentInv (running v) := by
  cases v <;> exact ⟨fun h => (by cases h), fun h => (by cases h), fun h => (by cases h)⟩

theorem running_step (v : Variant) : ∃ t, step (running v) = .next t := by
  cases v <;> exact next_of_goesOn (by decide +kernel)

theorem witness_StepKeepsSessionInvariant : SessionInv (running .int) ∧ ∃ t, step (running .int) = .next t :=
  ⟨ready_sessionInv _, running_step _⟩

theorem witness_StepKeepsCalibrationInvariant : CalInv (running .fp) ∧ ∃ t, step (running .fp) = .next t :=
  ⟨ready_calInv _, running_step _⟩

theorem witness_StepNeverReadsAnAbsentRegister : EngineInv (running .fp) ∧ ∃ t, step (running .fp) = .next t :=
  ⟨⟨ready_sessionInv _, ready_calInv _, ready_presentInv _⟩, running_step _⟩

theorem witness_StepKeepsVariantTypes :
    TypeInv (commanded [0xA0000000] (ready .int cycleAnswers)) ∧
    ∃ t, step (commanded [0xA0000000] (ready .int cycleAnswers)) = .next t :=
  ⟨⟨fun _ => ⟨rfl, rfl⟩, fun h => (by cases h), fun _ h => (by cases h), fun _ h => (by cases h), fun _ h => (by cases h)⟩,
    next_of_goesOn (by decide +kernel)⟩

theorem witness_NoNonFiniteValueStoredOrReturned :
    FiniteInv (commanded [0xA0000000] (ready .fp cycleAnswers)) ∧
    ∃ t, step (commanded [0xA0000000] (ready .fp cycleAnswers)) = .next t ∧
      ∃ r, t.port.responses = (commanded [0xA0000000] (ready .fp cycleAnswers)).port.responses ++ [r] := by
  have hd : (deriveFn dsCal).isFinite = true := by decide +kernel
  refine ⟨⟨fun k h => ?_, fun _ h => (by cases h), fun _ h => (by cases h), fun _ h => (by cases h),
    fun _ h => (by cases h)⟩, ?_⟩
  · have hk : (commanded [0xA0000000] (ready .fp cycleAnswers)).eng.dc = some (deriveFn dsCal) := rfl
    exact Option.some.inj (hk.symm.trans h) ▸ hd
  have h : reading (fun t => t.port.responses.length) (step (commanded [0xA0000000] (ready .fp cycleAnswers))) = some 1 := by
    decide +kernel
  cases ho : step (commanded [0xA0000000] (ready .fp cycleAnswers)) with
  | next t =>
    rw [ho] at h
    obtain ⟨r, hr⟩ := List.length_eq_one_iff.mp (by simpa [reading] using h)
    exact ⟨t, rfl, r, by rw [hr]; rfl⟩
  | fault r => rw [ho] at h; cases h
  | refused r => rw [ho] at h; cases h

theorem witness_StepKeepsPressuresPositive :
    PressureInv (commanded [0xB0000000] (referenced (.int 1) (.int 101325))) ∧
    ∃ t, step (commanded [0x93000000] (referenced (.int 1) (.int 101325))) = .next t := by
  refine ⟨⟨?_, ?_⟩, next_of_goesOn (by decide +kernel)⟩
  · intro q h; cases h; exact (by decide : (1 : Int) ≤ (1 : S32).toInt)
  · intro q h; cases h; exact (by decide : (1 : Int) ≤ (101325 : S32).toInt)

/-- A command that completes, one that raises, and their one response each. -/
theorem witness_OneResponsePerCommand :
    hostCommand .getId = true ∧ (∃ t, exec .getId (fresh .int [done (0x55, 0, 0)]) = .next t) ∧
    hostCommand .getAlt = true ∧ ∃ t, exec .getAlt (fresh .int []) = .next t :=
  ⟨rfl, next_of_goesOn (by decide), rfl, next_of_goesOn (by decide)⟩

theorem witness_RaiseLeavesOnlyAbortWrites :
    hostCommand .init = true ∧
    ∃ t, exec .init (ready .int [.fail]) = .next t ∧
      t.port.responses = (ready .int [.fail]).port.responses ++
        [{ status := .busError, v0 := some (.busInfo 0x00D0), v1 := none }] ∧ Status.busError ≠ .ok :=
  ⟨rfl, _, rfl, rfl, by decide⟩

theorem witness_SeqFollowsTheTable :
    hostCommand (.setOss 1) = true ∧
    ∃ t, exec (.setOss 1) (cached .int) = .next t ∧
      t.port.responses = (cached .int).port.responses ++ [{ status := .ok, v0 := none, v1 := none }] :=
  ⟨rfl, _, rfl, rfl⟩

theorem witness_RegistersHaveTheirWriters :
    (∃ t, exec .hasValidId (ready .fp [done (0x55, 0, 0)]) = .next t) ∧ Instr.hasValidId ≠ .init ∧
    Instr.hasValidId ≠ .reset ∧ Instr.hasValidId ≠ .captureRef ∧ isSetOss .hasValidId = false ∧
    isCycle .hasValidId = false ∧ isCompT .hasValidId = false ∧ writesNothing .hasValidId = true :=
  ⟨next_of_goesOn (by decide), by decide⟩

theorem witness_BusTraceHoldsOnlyAllowedEvents :
    (∃ t, exec (.setOss 3) (ready .int [.fail]) = .next t) ∧ isQuiet (.setOss 3) = true ∧
    ∃ t, exec .measureT (ready .int [done (0, 0, 0), .fail]) = .next t :=
  ⟨next_of_goesOn (by decide), rfl, next_of_goesOn (by decide)⟩

theorem witness_GatesComeFirstInOrder :
    (regs (fun g => { g with initState := .identityFailed }) (fresh .int [])).eng.initState = .identityFailed ∧
    (fresh .fp []).eng.initState = .uninit ∧ (ready .fp []).eng.initState = .ready ∧
    (ready .fp []).eng.seq ≠ .awaitingPressure := by decide

theorem witness_EveryCommandIsAnswered : hostCommand (.compT 27898) = true ∧ EngineInv (running .fp) :=
  ⟨rfl, ready_sessionInv _, ready_calInv _, ready_presentInv _⟩

theorem witness_EveryRunServesItsCommands :
    EngineInv (running .int) ∧ (running .int).bus.pending = none ∧ (running .int).port.cmds.length = 3 :=
  ⟨⟨ready_sessionInv _, ready_calInv _, ready_presentInv _⟩, rfl, rfl⟩

end Sys2Proof.Tests
end

section
/-! PROOFS. The registers each instruction can write, said once (10_state.md R23 to R32), and the obligation on writers. -/

open Sys2Proof Sys2Proof.Machine Sys2Proof.Claims

namespace Sys2Proof.Proofs

/-- `g'` is `g` but for the registers that instruction `i` may write, each of which may hold any value. -/
def WritesOnly (i : Instr) (g g' : Engine) : Prop :=
  match i with
  | .init => ∃ cal dc st sq pv rv,
      g' = { g with cal := cal, dc := dc, initState := st, seq := sq, pubValid := pv, refValid := rv }
  | .reset => ∃ st sq pv rv, g' = { g with initState := st, seq := sq, pubValid := pv, refValid := rv }
  | .setOss _ => ∃ oss, g' = { g with oss := oss }
  | .compT _ => ∃ b5 tc sq, g' = { g with b5 := b5, tc := tc, seq := sq }
  | .compP _ _ => ∃ sq, g' = { g with seq := sq }
  | .getData => ∃ b5 tc sq t p pv,
      g' = { g with b5 := b5, tc := tc, seq := sq, tPub := t, pPub := p, pubValid := pv }
  | .captureRef => ∃ b5 tc sq t p pv r rv,
      g' = { g with b5 := b5, tc := tc, seq := sq, tPub := t, pPub := p, pubValid := pv, refP := r, refValid := rv }
  | .getId | .hasValidId | .measureT | .measureP _ | .getAlt | .trigT | .trigP _ | .softReset => g' = g

theorem writesOnly_refl (i : Instr) (g : Engine) : WritesOnly i g g := by
  cases i with
  | init => exact ⟨_, _, _, _, _, _, rfl⟩
  | reset => exact ⟨_, _, _, _, rfl⟩
  | setOss oss => exact ⟨_, rfl⟩
  | compT raw => exact ⟨_, _, _, rfl⟩
  | compP oss raw => exact ⟨_, rfl⟩
  | getData => exact ⟨_, _, _, _, _, _, rfl⟩
  | captureRef => exact ⟨_, _, _, _, _, _, _, _, rfl⟩
  | getId | hasValidId | measureT | measureP oss | getAlt | trigT | trigP oss | softReset => rfl

/-- R254: the abort writes go to registers the instruction may write. -/
theorem writesOnly_abortOf (i : Instr) (e : Exc) (g : Engine) : WritesOnly i g (abortOf i e g) := by
  cases i with
  | init => cases e <;> exact ⟨_, _, _, _, _, _, rfl⟩
  | reset => exact ⟨_, _, _, _, rfl⟩
  | compT raw => exact ⟨_, _, _, rfl⟩
  | compP oss raw => exact ⟨_, rfl⟩
  | getData => exact ⟨_, _, _, _, _, _, rfl⟩
  | captureRef => exact ⟨_, _, _, _, _, _, _, _, rfl⟩
  | setOss oss => exact writesOnly_refl _ g
  | getId | hasValidId | measureT | measureP oss | getAlt | trigT | trigP oss | softReset => rfl

/-- The temperature step writes its cache and SEQ (R131, R173). -/
theorem tempDone_writes {raw : BitVec 16} {s : State} {q : Quantity} {g : Engine} (h : TempDone raw s q g) :
    ∃ b5 tc, g = { s.eng with b5 := b5, tc := tc, seq := .awaitingPressure } := by
  obtain ⟨_, _, _, _, _, _, _, rfl⟩ | ⟨_, _, _, _, _, _, rfl⟩ := h.done <;> exact ⟨_, _, rfl⟩

/-- A cycle writes the cache and SEQ before it publishes (R204). -/
theorem cycleDone_writes {s : State} {q p : Quantity} {g : Engine} (h : CycleDone s q p g) :
    ∃ b5 tc, g = { s.eng with b5 := b5, tc := tc, seq := .ready } := by
  obtain ⟨bt, s1, g1, bp, s3, _, he1, ht, _, he3, hp⟩ := h
  obtain ⟨b5, tc, hg1⟩ := tempDone_writes ht
  exact ⟨b5, tc, by rw [hp.seq, he3, hg1, he1]⟩

/-- A command that completes has written only registers it may write. -/
theorem writesOnly_of_opDone {i : Instr} {s : State} {g : Engine} {v0 v1 : Option Value} (h : OpDone i s g v0 v1) :
    WritesOnly i s.eng g := by
  cases i with
  | init =>
    obtain ⟨_, _, c, rfl⟩ := h
    cases s.cfg.variant <;> exact ⟨_, _, _, _, _, _, rfl⟩
  | reset => exact ⟨_, _, _, _, h.1⟩
  | setOss oss => exact ⟨oss, h.1⟩
  | compT raw =>
    obtain ⟨_, q, _, ht⟩ := h
    obtain ⟨b5, tc, hg⟩ := tempDone_writes ht
    exact ⟨b5, tc, _, hg⟩
  | compP oss raw =>
    obtain ⟨_, q, _, hp⟩ := h
    exact ⟨_, hp.seq⟩
  | getData =>
    obtain ⟨q, p, g1, _, _, hc, rfl⟩ := h
    obtain ⟨b5, tc, rfl⟩ := cycleDone_writes hc
    exact ⟨_, _, _, _, _, _, rfl⟩
  | captureRef =>
    obtain ⟨q, p, g1, _, _, hc, rfl⟩ := h
    obtain ⟨b5, tc, rfl⟩ := cycleDone_writes hc
    exact ⟨_, _, _, _, _, _, _, _, rfl⟩
  | getId | hasValidId | measureT | measureP oss | getAlt => exact h.1
  | trigT | trigP oss | softReset => exact h.elim

/-- However a host command ends, it keeps the parameters and writes only registers it may write. -/
theorem writesOnly_of_ended {i : Instr} {s t : State} (h : Ended i s t) : t.cfg = s.cfg ∧ WritesOnly i s.eng t.eng := by
  cases h with
  | refused e hg ht => subst ht; exact ⟨rfl, writesOnly_refl i s.eng⟩
  | raised e u hg hb he ht => subst ht; exact ⟨hb.cfg, writesOnly_abortOf i e s.eng⟩
  | done v0 v1 u hg hb hd ht => subst ht; exact ⟨hb.cfg, writesOnly_of_opDone hd⟩

/-- An instruction that answers a next state keeps the parameters and writes only registers it may write. -/
theorem writesOnly_of_exec {i : Instr} {s t : State} (h : exec i s = .next t) :
    t.cfg = s.cfg ∧ WritesOnly i s.eng t.eng := by
  cases hi : isCommand i with
  | true => exact writesOnly_of_ended (exec_next hi h)
  | false =>
    obtain ⟨k, rfl⟩ := exec_sensor hi h
    exact ⟨rfl, writesOnly_refl i s.eng⟩

/-- Settles O55: the registers `WritesOnly` allows an instruction are those the obligation lets it write. -/
theorem registersHaveTheirWriters : Obligations.RegistersHaveTheirWriters := by
  intro i s t h
  obtain ⟨hcfg, hw⟩ := writesOnly_of_exec h
  refine ⟨hcfg, ?_⟩
  cases i with
  | init => obtain ⟨_, _, _, _, _, _, hg⟩ := hw; simp [hg, writesNothing]
  | reset => obtain ⟨_, _, _, _, hg⟩ := hw; simp [hg, writesNothing]
  | setOss oss => obtain ⟨_, hg⟩ := hw; simp [hg, writesNothing, isSetOss]
  | compT raw => obtain ⟨_, _, _, hg⟩ := hw; simp [hg, writesNothing, isCompT]
  | compP oss raw => obtain ⟨_, hg⟩ := hw; simp [hg, writesNothing]
  | getData => obtain ⟨_, _, _, _, _, _, hg⟩ := hw; simp [hg, writesNothing, isCycle]
  | captureRef => obtain ⟨_, _, _, _, _, _, _, _, hg⟩ := hw; simp [hg, writesNothing, isCycle]
  | getId | hasValidId | measureT | measureP oss | getAlt | trigT | trigP oss | softReset =>
    have hg : t.eng = s.eng := hw
    simp [hg]

end Sys2Proof.Proofs
end

section
/-! PROOFS. Binary64 rounding (00_scope.md R10): `roundMag` picks the end of the bracket of neighbouring magnitudes that is
nearest, ties to even; so each operation gives a nearest finite value below the overflow limit, and is exact where the exact
result is a binary64 value. -/

open Sys2Proof Sys2Proof.Machine Sys2Proof.Claims

namespace Sys2Proof.Proofs

/-! ## Magnitudes and their neighbours -/

theorem magUnits_eq_shifted (m : Nat) : magUnits m = (m - (m / 2 ^ 52 - 1) * 2 ^ 52) * 2 ^ (m / 2 ^ 52 - 1) := by
  unfold magUnits
  split
  · next h => rw [h]; simp
  · next h =>
    rw [Nat.shiftLeft_eq]
    congr 1
    omega

/-- The magnitude of the infinity's pattern is 2^1024, in units of 2^-1074. -/
theorem magUnits_magInf : magUnits magInf = 2 ^ 2098 := by
  rw [magUnits_eq_shifted, show magInf = 2047 * 2 ^ 52 by decide, Nat.mul_div_cancel _ (by decide),
    ← Nat.sub_mul, Nat.mul_assoc, ← pow_add, show 2047 - (2047 - 1) = 1 by rfl, Nat.one_mul]

/-- The magnitudes `m` and `m + 1` have `num / den` between them. -/
structure Bracket (num den m : Nat) : Prop where
  lower : magUnits m * den ≤ num
  upper : num < magUnits (m + 1) * den

theorem exists_bracket (num : Nat) {den : Nat} (hd : 0 < den) : ∃ m, Bracket num den m := by
  have hex : ∃ m, num < magUnits (m + 1) * den :=
    ⟨num, calc num < num + 1 := num.lt_succ_self
      _ ≤ magUnits (num + 1) := magUnits_strictMono.le_apply
      _ ≤ magUnits (num + 1) * den := Nat.le_mul_of_pos_right _ hd⟩
  refine ⟨Nat.find hex, ?_, Nat.find_spec hex⟩
  rcases Nat.eq_zero_or_pos (Nat.find hex) with h0 | h0
  · rw [h0, magUnits_zero, Nat.zero_mul]; exact Nat.zero_le _
  · have hmin := Nat.find_min hex (Nat.pred_lt h0.ne')
    rwa [Nat.not_lt, Nat.pred_eq_sub_one, Nat.sub_add_cancel h0] at hmin

/-- In a bracket the last place is that of its lower magnitude. -/
theorem lastPlace_of_bracket {num den m : Nat} (hd : 0 < den) (h : Bracket num den m) :
    lastPlace (num / den) = m / 2 ^ 52 - 1 := by
  have hlo : magUnits m ≤ num / den := (Nat.le_div_iff_mul_le hd).mpr h.lower
  have hhi : num / den < magUnits (m + 1) := (Nat.div_lt_iff_lt_mul hd).mpr h.upper
  rw [magUnits_succ] at hhi
  rw [magUnits_eq_shifted] at hlo hhi
  generalize num / den = n at hlo hhi ⊢
  generalize hk : m / 2 ^ 52 - 1 = k at hlo hhi ⊢
  have hf : m - k * 2 ^ 52 + 1 ≤ 2 ^ 53 := by omega
  have hlt : n < 2 ^ (k + 53) := calc
    n < (m - k * 2 ^ 52 + 1) * 2 ^ k := by rw [Nat.add_mul, Nat.one_mul]; exact hhi
    _ ≤ 2 ^ 53 * 2 ^ k := Nat.mul_le_mul_right _ hf
    _ = 2 ^ (k + 53) := by rw [← pow_add, Nat.add_comm]
  unfold lastPlace
  rcases Nat.eq_zero_or_pos k with rfl | hpos
  · rcases Nat.eq_zero_or_pos n with rfl | hn
    · rfl
    · have := (Nat.log2_lt hn.ne').mpr hlt
      omega
  · have hge : 2 ^ (k + 52) ≤ n := calc
      2 ^ (k + 52) = 2 ^ 52 * 2 ^ k := by rw [← pow_add, Nat.add_comm]
      _ ≤ (m - k * 2 ^ 52) * 2 ^ k := Nat.mul_le_mul_right _ (by omega)
      _ ≤ n := hlo
    have hn : n ≠ 0 := (lt_of_lt_of_le (Nat.two_pow_pos _) hge).ne'
    have h1 := (Nat.log2_lt hn).mpr hlt
    have h2 := (Nat.le_log2 hn).mpr hge
    omega

/-- The magnitude a bracket rounds to: the nearer one, and the even one at a tie. -/
def nearerEven (num den m : Nat) : Nat :=
  if 2 * num < (magUnits m + magUnits (m + 1)) * den then m
  else if (magUnits m + magUnits (m + 1)) * den < 2 * num then m + 1
  else if m % 2 = 0 then m else m + 1

/-- `roundHalfEven` between `f` and `f + 1`, with the remainder named. -/
theorem roundHalfEven_of_bounds {num D f : Nat} (h1 : f * D ≤ num) (h2 : num < (f + 1) * D) :
    roundHalfEven num D =
      if 2 * num < (2 * f + 1) * D then f
      else if (2 * f + 1) * D < 2 * num then f + 1
      else if f % 2 = 0 then f else f + 1 := by
  have hq : num / D = f := Nat.div_eq_of_lt_le h1 h2
  have hr : num % D + f * D = num := by rw [← hq, Nat.mul_comm]; exact Nat.mod_add_div num D
  have hs : (2 * f + 1) * D = 2 * (f * D) + D := by ring
  simp only [roundHalfEven, hq, hs]
  generalize f * D = c at hr
  have c1 : 2 * (num % D) < D ↔ 2 * num < 2 * c + D := by omega
  have c2 : D < 2 * (num % D) ↔ 2 * c + D < 2 * num := by omega
  simp only [c1, c2]

/-- What `roundMag` gives: the end of the bracket that is nearer, ties to even, and infinity from its magnitude on. -/
theorem roundMag_of_bracket {num den m : Nat} (hd : 0 < den) (h : Bracket num den m) :
    roundMag num den = min (nearerEven num den m) magInf := by
  have hk := lastPlace_of_bracket hd h
  obtain ⟨hlo, hhi⟩ := h
  have hround : (m / 2 ^ 52 - 1) * 2 ^ 52 + roundHalfEven num (den <<< (m / 2 ^ 52 - 1)) = nearerEven num den m := by
    unfold nearerEven
    rw [magUnits_succ] at hhi ⊢
    rw [magUnits_eq_shifted] at hlo hhi ⊢
    generalize hk' : m / 2 ^ 52 - 1 = k at *
    obtain ⟨f, hf⟩ : ∃ f, m = k * 2 ^ 52 + f := ⟨m - k * 2 ^ 52, by omega⟩
    have hsub : m - k * 2 ^ 52 = f := by omega
    rw [hsub] at hlo hhi ⊢
    rw [Nat.shiftLeft_eq, roundHalfEven_of_bounds (f := f) (by linarith) (by linarith)]
    have hmid : (f * 2 ^ k + (f * 2 ^ k + 2 ^ k)) * den = (2 * f + 1) * (den * 2 ^ k) := by ring
    have hpar : m % 2 = f % 2 := by omega
    rw [hmid, hpar]
    split
    · exact hf.symm
    · split
      · omega
      · split <;> omega
  simp only [roundMag, hk, hround]
  split <;> omega

/-- The magnitude chosen is on the nearer side of the middle of its bracket. -/
theorem nearerEven_side (num den m : Nat) :
    (nearerEven num den m = m ∧ 2 * num ≤ (magUnits m + magUnits (m + 1)) * den) ∨
    (nearerEven num den m = m + 1 ∧ (magUnits m + magUnits (m + 1)) * den ≤ 2 * num) := by
  unfold nearerEven
  split
  · exact .inl ⟨rfl, by omega⟩
  · split
    · exact .inr ⟨rfl, by omega⟩
    · split
      · exact .inl ⟨rfl, by omega⟩
      · exact .inr ⟨rfl, by omega⟩

theorem nearerEven_eq_or (num den m : Nat) : nearerEven num den m = m ∨ nearerEven num den m = m + 1 :=
  (nearerEven_side num den m).imp And.left And.left

/-- Settles O41: a tie is bracketed by its two neighbours, of which `roundMag` takes the even one. -/
theorem floatTiesGoToEven : Obligations.FloatTiesGoToEven := by
  intro num den m hd hm htie
  have hlt : magUnits m * den < magUnits (m + 1) * den :=
    Nat.mul_lt_mul_of_pos_right (magUnits_strictMono m.lt_succ_self) hd
  rw [Nat.add_mul] at htie
  have hb : Bracket num den m := ⟨by omega, by omega⟩
  have heven : nearerEven num den m = if m % 2 = 0 then m else m + 1 := by
    rw [nearerEven, Nat.add_mul, htie, if_neg (lt_irrefl _), if_neg (lt_irrefl _)]
  rw [roundMag_of_bracket hd hb, heven]
  split <;> omega

/-! ## Round to nearest -/

/-- No magnitude is nearer to a bracketed fraction of units than the one chosen. -/
theorem nearerEven_nearest {num den m : Nat} (hd : 0 < den) (h : Bracket num den m) (p : Nat) :
    |(magUnits (nearerEven num den m) : ℚ) - num / den| ≤ |(magUnits p : ℚ) - num / den| := by
  have hd' : (0 : ℚ) < den := by exact_mod_cast hd
  have hlo : (magUnits m : ℚ) ≤ num / den := by
    rw [le_div_iff₀ hd']; exact_mod_cast h.lower
  have hhi : (num / den : ℚ) ≤ magUnits (m + 1) := by
    rw [div_le_iff₀ hd']; exact_mod_cast h.upper.le
  have houtside : (magUnits p : ℚ) ≤ magUnits m ∨ (magUnits (m + 1) : ℚ) ≤ magUnits p := by
    rcases Nat.lt_or_ge m p with hp | hp
    · exact .inr (by exact_mod_cast magUnits_strictMono.monotone hp)
    · exact .inl (by exact_mod_cast magUnits_strictMono.monotone hp)
  have hside : ((nearerEven num den m = m) ∧ 2 * (num / den : ℚ) ≤ magUnits m + magUnits (m + 1)) ∨
      ((nearerEven num den m = m + 1) ∧ (magUnits m + magUnits (m + 1) : ℚ) ≤ 2 * (num / den)) := by
    rw [← mul_div_assoc, div_le_iff₀ hd', le_div_iff₀ hd']
    exact_mod_cast nearerEven_side num den m
  generalize (num / den : ℚ) = x at *
  rcases hside with ⟨hc, hx⟩ | ⟨hc, hx⟩ <;> rw [hc, le_abs]
  · rw [abs_of_nonpos (by linarith)]
    rcases houtside with hp | hp
    · exact .inr (by linarith)
    · exact .inl (by linarith)
  · rw [abs_of_nonneg (by linarith)]
    rcases houtside with hp | hp
    · exact .inr (by linarith)
    · exact .inl (by linarith)

/-- A finite magnitude results exactly below the middle between the greatest finite one and the infinity's; that middle
itself goes to the infinity, whose pattern is even. -/
theorem roundMag_lt_magInf_iff {num den : Nat} (hd : 0 < den) :
    roundMag num den < magInf ↔ 2 * num < (magUnits (magInf - 1) + magUnits magInf) * den := by
  obtain ⟨m, hb⟩ := exists_bracket num hd
  rw [roundMag_of_bracket hd hb, Nat.add_mul]
  have hle : ∀ {i j : Nat}, i ≤ j → magUnits i * den ≤ magUnits j * den := fun hij =>
    Nat.mul_le_mul_right _ (magUnits_strictMono.monotone hij)
  have hinf : magInf - 1 + 1 = magInf := by decide
  have htop : magUnits (magInf - 1) * den ≤ magUnits magInf * den := hle (Nat.sub_le _ _)
  rcases Nat.lt_trichotomy m (magInf - 1) with hm | rfl | hm
  · have hstep : magUnits (m + 1) * den ≤ magUnits (magInf - 1) * den := hle hm
    have hup := hb.upper
    rcases nearerEven_eq_or num den m with hc | hc <;> rw [hc] <;> omega
  · have hodd : (magInf - 1) % 2 = 1 := by decide
    rw [nearerEven, hinf, Nat.add_mul, hodd]
    split
    · next h => exact iff_of_true (by omega) h
    · next h => split <;> exact iff_of_false (by simp) h
  · have hlow : magUnits magInf * den ≤ num := (hle (by omega)).trans hb.lower
    rcases nearerEven_eq_or num den m with hc | hc <;> rw [hc] <;> omega

/-- That middle is the overflow limit 2^1024 - 2^970. -/
theorem overflowLimit_in_units :
    (magUnits (magInf - 1) + magUnits magInf : ℚ) = 2 * overflowLimit * oneUnits := by
  have hpred : magUnits (magInf - 1) + 2 ^ 2045 = 2 ^ 2098 := by
    have hsucc := magUnits_succ (magInf - 1)
    rw [show magInf - 1 + 1 = magInf by decide, show (magInf - 1) / 2 ^ 52 - 1 = 2045 by decide, magUnits_magInf] at hsucc
    exact hsucc.symm
  have hpred' : (magUnits (magInf - 1) : ℚ) = 2 ^ 2098 - 2 ^ 2045 := by
    have hcast := congrArg (Nat.cast (R := ℚ)) hpred
    rw [Nat.cast_add, Nat.cast_pow, Nat.cast_pow, Nat.cast_ofNat] at hcast
    exact eq_sub_of_add_eq hcast
  have hhalf : (2 : ℚ) ^ 2045 = 2 * 2 ^ 2044 := pow_succ' 2 2044
  have hlimit : overflowLimit * oneUnits = 2 ^ 2098 - 2 ^ 2044 := by
    rw [overflowLimit, oneUnits_eq, unitExponent, Nat.cast_pow, Nat.cast_ofNat, sub_mul, ← pow_add, ← pow_add]
  rw [hpred', hhalf, magUnits_magInf, Nat.cast_pow, Nat.cast_ofNat, mul_assoc, hlimit]
  generalize (2 : ℚ) ^ 2098 = top
  generalize (2 : ℚ) ^ 2044 = half
  ring

/-! ## Signs -/

/-- `x` with the sign of a pattern. -/
def signed (sign : Bool) (x : ℚ) : ℚ := if sign then -x else x

@[simp] theorem signed_false (x : ℚ) : signed false x = x := rfl

@[simp] theorem signed_true (x : ℚ) : signed true x = -x := rfl

theorem abs_signed (sign : Bool) (x : ℚ) : |signed sign x| = |x| := by
  cases sign
  · rfl
  · exact abs_neg x

theorem signed_sub (sign : Bool) (x y : ℚ) : signed sign x - signed sign y = signed sign (x - y) := by
  cases sign
  · rfl
  · simp only [signed_true]; ring

theorem signed_mul_signed (s t : Bool) (x y : ℚ) : signed s x * signed t y = signed (s ^^ t) (x * y) := by
  cases s <;> cases t <;> simp

theorem signed_div_signed (s t : Bool) (x y : ℚ) : signed s x / signed t y = signed (s ^^ t) (x / y) := by
  cases s <;> cases t <;> simp [neg_div, div_neg]

theorem signed_div (sign : Bool) (x y : ℚ) : signed sign (x / y) = signed sign x / y := by
  cases sign
  · rfl
  · exact (neg_div y x).symm

theorem signed_natAbs (n : Int) : signed (decide (n < 0)) n.natAbs = n := by
  rcases lt_or_ge n 0 with h | h
  · rw [decide_eq_true h, signed_true, Nat.cast_natAbs, abs_of_neg h]; simp
  · rw [decide_eq_false (not_lt.mpr h), signed_false, Nat.cast_natAbs, abs_of_nonneg h]

/-- The value of a pattern: its sign and its magnitude. -/
theorem f64Rat_eq_signed (w : F64) : f64Rat w = signed (f64Sign w) (f64Units w / oneUnits) := by
  rw [f64Rat, f64Int]
  cases f64Sign w <;> simp [neg_div]

theorem abs_f64Rat (w : F64) : |f64Rat w| = f64Units w / oneUnits := by
  rw [f64Rat_eq_signed, abs_signed, abs_of_nonneg (div_nonneg (Nat.cast_nonneg _) oneUnits_rat_pos.le)]

/-- No value has a distance from `signed sign x`, for `x` not negative, below the distance of its magnitude from `x`. -/
theorem abs_units_sub_le (w : F64) (sign : Bool) {x : ℚ} (hx : 0 ≤ x) :
    |(f64Units w : ℚ) / oneUnits - x| ≤ |f64Rat w - signed sign x| := by
  have hdist := abs_abs_sub_abs_le_abs_sub (f64Rat w) (signed sign x)
  rwa [abs_f64Rat, abs_signed, abs_of_nonneg hx] at hdist

theorem f64Sign_make (sign : Bool) {m : Nat} (h : m < 2 ^ 63) : f64Sign (f64Make sign m) = sign := by
  cases sign
  · exact f64Sign_make_false m h
  · rw [f64Sign, BitVec.getLsbD, f64Make, BitVec.toNat_ofNat, if_pos rfl, Nat.mod_eq_of_lt (by omega),
      Nat.testBit_two_pow_add_eq, Nat.testBit_lt_two_pow h]
    rfl

theorem magInf_lt : magInf < 2 ^ 63 := by decide

theorem f64Rat_make (sign : Bool) {m : Nat} (h : m < 2 ^ 63) :
    f64Rat (f64Make sign m) = signed sign (magUnits m / oneUnits) := by
  rw [f64Rat_eq_signed, f64Sign_make sign h, f64Units, f64Mag_make sign m h]

theorem f64IsFinite_make_iff (sign : Bool) {m : Nat} (h : m < 2 ^ 63) :
    f64IsFinite (f64Make sign m) = true ↔ m < magInf := by
  rw [f64IsFinite, f64Mag_make sign m h, decide_eq_true_iff]

theorem roundMag_le_magInf (num den : Nat) : roundMag num den ≤ magInf := by
  unfold roundMag
  dsimp only
  split <;> omega

/-- R10: `roundUnits` rounds the fraction of units with its sign to nearest. -/
theorem roundUnits_roundsTo (sign : Bool) (num : Nat) {den : Nat} (hd : 0 < den) :
    roundsTo (signed sign (num / den / oneUnits)) (roundUnits sign num den) := by
  have hlt : roundMag num den < 2 ^ 63 := (roundMag_le_magInf num den).trans_lt magInf_lt
  have hd' : (0 : ℚ) < den := by exact_mod_cast hd
  have hU := oneUnits_rat_pos
  have hx : (0 : ℚ) ≤ num / den / oneUnits := by positivity
  have hfin : f64IsFinite (roundUnits sign num den) = true ↔ roundMag num den < magInf :=
    f64IsFinite_make_iff sign hlt
  refine ⟨?_, fun hf p _ => ?_⟩
  · rw [hfin, roundMag_lt_magInf_iff hd, abs_signed, abs_of_nonneg hx, div_lt_iff₀ hU, div_lt_iff₀ hd']
    have hcast : 2 * num < (magUnits (magInf - 1) + magUnits magInf) * den ↔
        2 * (num : ℚ) < (magUnits (magInf - 1) + magUnits magInf : ℚ) * den := by exact_mod_cast Iff.rfl
    rw [hcast, overflowLimit_in_units, mul_assoc, mul_assoc, mul_lt_mul_iff_right₀ two_pos, mul_assoc]
  · obtain ⟨m, hb⟩ := exists_bracket num hd
    have hmag : roundMag num den = nearerEven num den m := by
      have hm := roundMag_of_bracket hd hb
      have := hfin.mp hf
      omega
    have hscale : ∀ u : ℚ, |u / oneUnits - num / den / oneUnits| = |u - num / den| / oneUnits := fun u => by
      rw [← sub_div, abs_div, abs_of_pos hU]
    calc |f64Rat (roundUnits sign num den) - signed sign (num / den / oneUnits)|
        = |(magUnits (nearerEven num den m) : ℚ) - num / den| / oneUnits := by
          rw [roundUnits, f64Rat_make sign hlt, signed_sub, abs_signed, hscale, hmag]
      _ ≤ |(f64Units p : ℚ) - num / den| / oneUnits :=
          div_le_div_of_nonneg_right (nearerEven_nearest hd hb _) hU.le
      _ = |(f64Units p : ℚ) / oneUnits - num / den / oneUnits| := (hscale _).symm
      _ ≤ |f64Rat p - signed sign (num / den / oneUnits)| := abs_units_sub_le p sign hx

/-! ## The four operations and `f64(n)` -/

theorem f64Zero_roundsTo (sign : Bool) : roundsTo 0 (f64Zero sign) := by
  have h := roundUnits_roundsTo sign 0 Nat.one_pos
  have hzero : roundUnits sign 0 1 = f64Zero sign := by cases sign <;> decide
  have hvalue : signed sign (((0 : ℕ) : ℚ) / ((1 : ℕ) : ℚ) / oneUnits) = 0 := by cases sign <;> simp
  rwa [hzero, hvalue] at h

theorem fadd_roundsTo {a b : F64} (ha : f64IsFinite a = true) (hb : f64IsFinite b = true) :
    roundsTo (f64Rat a + f64Rat b) (fadd a b) := by
  have hsum : f64Rat a + f64Rat b = ((f64Int a + f64Int b : Int) : ℚ) / oneUnits := by
    rw [f64Rat, f64Rat, ← add_div, Int.cast_add]
  have hadd : fadd a b = f64AddFinite a b := by
    simp [fadd, f64IsNaN_of_finite ha, f64IsNaN_of_finite hb, ha, hb]
  rw [hsum, hadd, f64AddFinite]
  generalize f64Int a + f64Int b = n
  split
  · next h0 => rw [h0, Int.cast_zero, zero_div]; exact f64Zero_roundsTo _
  · have h := roundUnits_roundsTo (decide (n < 0)) n.natAbs Nat.one_pos
    rwa [Nat.cast_one, div_one, signed_div, signed_natAbs] at h

/-- R10: `f64(n)` is `n` rounded to nearest. -/
theorem f64OfInt_roundsTo (n : Int) : roundsTo n (f64OfInt n) := by
  unfold f64OfInt
  split
  · next h0 => rw [h0, Int.cast_zero]; exact f64Zero_roundsTo _
  · have h := roundUnits_roundsTo (decide (n < 0)) (n.natAbs * oneUnits) Nat.one_pos
    rwa [Nat.cast_one, div_one, Nat.cast_mul, mul_div_cancel_right₀ _ oneUnits_rat_pos.ne', signed_natAbs] at h

theorem f64Mag_fneg (a : F64) : f64Mag (fneg a) = f64Mag a := by
  rw [f64Mag, fneg, BitVec.toNat_xor, Nat.xor_mod_two_pow]
  exact Nat.xor_zero _

theorem f64Sign_fneg (a : F64) : f64Sign (fneg a) = !f64Sign a := by
  rw [f64Sign, fneg, BitVec.getLsbD_xor]
  exact Bool.xor_true _

theorem f64IsFinite_fneg (a : F64) : f64IsFinite (fneg a) = f64IsFinite a := by
  rw [f64IsFinite, f64Mag_fneg, f64IsFinite]

theorem f64Rat_fneg (a : F64) : f64Rat (fneg a) = -f64Rat a := by
  rw [f64Rat_eq_signed, f64Rat_eq_signed, f64Sign_fneg, f64Units, f64Mag_fneg, f64Units]
  cases f64Sign a <;> simp

theorem fsub_roundsTo {a b : F64} (ha : f64IsFinite a = true) (hb : f64IsFinite b = true) :
    roundsTo (f64Rat a - f64Rat b) (fsub a b) := by
  have hsub : fsub a b = fadd a (fneg b) := by simp [fsub, f64IsNaN_of_finite hb]
  rw [hsub, sub_eq_add_neg, ← f64Rat_fneg]
  exact fadd_roundsTo ha (by rw [f64IsFinite_fneg, hb])

theorem fmul_roundsTo {a b : F64} (ha : f64IsFinite a = true) (hb : f64IsFinite b = true) :
    roundsTo (f64Rat a * f64Rat b) (fmul a b) := by
  have hmul : fmul a b = roundUnits (f64Sign a ^^ f64Sign b) (f64Units a * f64Units b) oneUnits := by
    simp [fmul, f64IsNaN_of_finite ha, f64IsNaN_of_finite hb, ha, hb]
  have hvalue : f64Rat a * f64Rat b =
      signed (f64Sign a ^^ f64Sign b) ((f64Units a * f64Units b : ℕ) / oneUnits / oneUnits) := by
    rw [f64Rat_eq_signed, f64Rat_eq_signed b, signed_mul_signed, Nat.cast_mul, div_mul_div_comm, div_div]
  rw [hmul, hvalue]
  exact roundUnits_roundsTo _ _ oneUnits_pos

theorem f64Rat_eq_zero_iff_units (a : F64) : f64Rat a = 0 ↔ f64Units a = 0 := by
  rw [f64Rat_eq_zero_iff, f64Int]
  split <;> omega

theorem fdiv_roundsTo {a b : F64} (ha : f64IsFinite a = true) (hb : f64IsFinite b = true) (h0 : f64Rat b ≠ 0) :
    roundsTo (f64Rat a / f64Rat b) (fdiv a b) := by
  have hu : f64Units b ≠ 0 := fun h => h0 ((f64Rat_eq_zero_iff_units b).mpr h)
  have hU := oneUnits_rat_pos
  have hdiv : fdiv a b = roundUnits (f64Sign a ^^ f64Sign b) (f64Units a * oneUnits) (f64Units b) := by
    simp [fdiv, f64IsNaN_of_finite ha, f64IsNaN_of_finite hb, ha, hb, hu]
  have hvalue : f64Rat a / f64Rat b =
      signed (f64Sign a ^^ f64Sign b) ((f64Units a * oneUnits : ℕ) / f64Units b / oneUnits) := by
    rw [f64Rat_eq_signed, f64Rat_eq_signed b, signed_div_signed, Nat.cast_mul, div_div_div_cancel_right₀ hU.ne',
      div_right_comm, mul_div_cancel_right₀ _ hU.ne']
  rw [hdiv, hvalue]
  exact roundUnits_roundsTo _ _ (Nat.pos_of_ne_zero hu)

/-- A divisor of zero gives an infinity, or the NaN of 0 / 0. -/
theorem fdiv_zero_not_finite {a b : F64} (ha : f64IsFinite a = true) (hb : f64IsFinite b = true) (h0 : f64Rat b = 0) :
    f64IsFinite (fdiv a b) = false := by
  have hu := (f64Rat_eq_zero_iff_units b).mp h0
  have hdiv : fdiv a b = if f64Units a = 0 then f64NaN else f64Inf (f64Sign a ^^ f64Sign b) := by
    simp [fdiv, f64IsNaN_of_finite ha, f64IsNaN_of_finite hb, ha, hb, hu]
  rw [hdiv]
  split
  · decide
  · cases f64Sign a ^^ f64Sign b <;> decide

/-- Settles O40: each operation rounds its exact result once, to nearest. -/
theorem floatOperationsRoundToNearest : Obligations.FloatOperationsRoundToNearest := fun _ _ ha hb =>
  ⟨fadd_roundsTo ha hb, fsub_roundsTo ha hb, fmul_roundsTo ha hb, fdiv_roundsTo ha hb, fdiv_zero_not_finite ha hb⟩

/-! ## Exact results -/

/-- The magnitudes are closed under scaling of a 53-bit significand by powers of two. -/
theorem exists_magUnits_eq (k : Nat) : ∀ n < 2 ^ 53, ∃ m, magUnits m = n * 2 ^ k := by
  induction k with
  | zero =>
    intro n hn
    refine ⟨n, ?_⟩
    rw [magUnits_eq_shifted, show n / 2 ^ 52 - 1 = 0 by omega]
    simp
  | succ k ih =>
    intro n hn
    rcases Nat.lt_or_ge n (2 ^ 52) with hlt | hge
    · obtain ⟨m, hm⟩ := ih (2 * n) (by omega)
      exact ⟨m, by rw [hm, pow_succ]; ring⟩
    · refine ⟨(k + 1) * 2 ^ 52 + n, ?_⟩
      have hexp : ((k + 1) * 2 ^ 52 + n) / 2 ^ 52 - 1 = k + 1 := by omega
      rw [magUnits_eq_shifted, hexp, Nat.add_sub_cancel_left]

/-- A 53-bit significand scaled by a power of two of the binary64 range is a finite value, with either sign. -/
theorem exists_f64_of_significand (sign : Bool) {n k : Nat} (hn : n < 2 ^ 53) (hk : k ≤ 2045) :
    ∃ w, f64IsFinite w = true ∧ f64Rat w = signed sign ((n * 2 ^ k : ℕ) / oneUnits) := by
  obtain ⟨m, hm⟩ := exists_magUnits_eq k n hn
  have hlt : m < magInf := by
    rw [← magUnits_strictMono.lt_iff_lt, hm, magUnits_magInf]
    refine (Nat.mul_lt_mul_of_pos_right hn (Nat.two_pow_pos k)).trans_le ?_
    have hexp : 53 + k ≤ 2098 := by omega
    rw [← pow_add]
    gcongr
    exact one_le_two
  have hlt' := hlt.trans magInf_lt
  exact ⟨f64Make sign m, (f64IsFinite_make_iff sign hlt').mpr hlt, by rw [f64Rat_make sign hlt', hm]⟩

theorem abs_f64Rat_lt_overflowLimit {p : F64} (hp : f64IsFinite p = true) : |f64Rat p| < overflowLimit := by
  have hle : (f64Units p : ℚ) ≤ magUnits (magInf - 1) := by
    exact_mod_cast magUnits_strictMono.monotone (f64Mag_le_of_finite p hp)
  have hlt : (magUnits (magInf - 1) : ℚ) < magUnits magInf := by
    have hpred : magInf - 1 < magInf := by decide
    exact_mod_cast magUnits_strictMono hpred
  have hlimit := overflowLimit_in_units
  rw [abs_f64Rat, div_lt_iff₀ oneUnits_rat_pos]
  linarith

/-- Rounding to nearest is exact where the exact result is a finite value. -/
theorem exact_of_roundsTo {x : ℚ} {w : F64} (h : roundsTo x w) (hx : ∃ p, f64IsFinite p = true ∧ f64Rat p = x) :
    f64IsFinite w = true ∧ f64Rat w = x := by
  obtain ⟨p, hp, rfl⟩ := hx
  have hw := h.1.mpr (abs_f64Rat_lt_overflowLimit hp)
  have hle := h.2 hw p hp
  rw [nearer, sub_self, abs_zero] at hle
  exact ⟨hw, sub_eq_zero.mp (abs_nonpos_iff.mp hle)⟩

/-- R10: `f64(n)` is exact for |n| < 2^53. -/
theorem f64OfInt_exact {n : Int} (hn : n.natAbs < 2 ^ 53) : f64IsFinite (f64OfInt n) = true ∧ f64Rat (f64OfInt n) = n := by
  obtain ⟨p, hp, hv⟩ := exists_f64_of_significand (decide (n < 0)) hn (by decide : unitExponent ≤ 2045)
  refine exact_of_roundsTo (f64OfInt_roundsTo n) ⟨p, hp, ?_⟩
  rw [hv, ← oneUnits_eq, Nat.cast_mul, mul_div_cancel_right₀ _ oneUnits_rat_pos.ne', signed_natAbs]

/-- The quotient of a 53-bit number by a small power of two is a finite value. -/
theorem exists_f64_div_two_pow {n j : Nat} (hn : n < 2 ^ 53) (hj : j ≤ unitExponent) :
    ∃ w, f64IsFinite w = true ∧ f64Rat w = (n : ℚ) / 2 ^ j := by
  have hk : unitExponent - j ≤ 2045 := (Nat.sub_le _ _).trans (by decide)
  obtain ⟨w, hw, hv⟩ := exists_f64_of_significand false hn hk
  refine ⟨w, hw, ?_⟩
  have hpow : oneUnits = 2 ^ (unitExponent - j) * 2 ^ j := by rw [oneUnits_eq, ← pow_add, Nat.sub_add_cancel hj]
  rw [hv, signed_false, hpow, Nat.cast_mul, Nat.cast_mul, Nat.cast_pow, Nat.cast_pow, Nat.cast_ofNat, mul_comm (n : ℚ),
    mul_div_mul_left _ _ (pow_ne_zero _ two_ne_zero)]

/-- R174: dividing a raw pressure by 2^oss is exact. -/
theorem fdiv_rawPressure_exact (raw : BitVec 19) (oss : BitVec 2) :
    f64Rat (fdiv (f64OfInt raw.toNat) (f64OfInt (2 ^ oss.toNat))) = (raw.toNat : ℚ) / 2 ^ oss.toNat := by
  have hraw : raw.toNat < 2 ^ 53 := raw.isLt.trans (by decide)
  have hoss : oss.toNat < 4 := oss.isLt
  have hpow : ((2 ^ oss.toNat : Int)).natAbs < 2 ^ 53 := by
    rw [Int.natAbs_pow]
    exact Nat.pow_lt_pow_right (by decide) (by omega)
  obtain ⟨hfa, hva⟩ := f64OfInt_exact (n := raw.toNat) hraw
  obtain ⟨hfb, hvb⟩ := f64OfInt_exact hpow
  have hvb' : f64Rat (f64OfInt (2 ^ oss.toNat)) = 2 ^ oss.toNat := by rw [hvb]; push_cast; rfl
  have hdiv := fdiv_roundsTo hfa hfb (by rw [hvb']; positivity)
  rw [hva, hvb', Int.cast_natCast] at hdiv
  exact (exact_of_roundsTo hdiv (exists_f64_div_two_pow hraw (by unfold unitExponent; omega))).2

/-- Settles O42: both values are 53-bit significands scaled by a power of two, so rounding leaves them as they are. -/
theorem floatConversionsAreExact : Obligations.FloatConversionsAreExact :=
  ⟨fun _ _ _ => f64OfInt_exact (by omega), fdiv_rawPressure_exact⟩

end Sys2Proof.Proofs
end

section
/-! PROOFS. The invariants of the engine registers (10_state.md R38, R40, R20): one principle carries what every command keeps
over a step, and each invariant is then a case analysis of abort writes and completed commands. -/

open Sys2Proof Sys2Proof.Machine Sys2Proof.Claims

namespace Sys2Proof.Proofs

/-! ## What every command keeps, every step keeps -/

/-- `P` speaks of the parameters and the engine registers only, and no command that its gate lets run breaks it: neither by
its abort writes nor by completing. -/
structure KeptByCommands (P : State → Prop) : Prop where
  registersOnly : ∀ {s t : State}, t.cfg = s.cfg → t.eng = s.eng → P s → P t
  abort : ∀ (i : Instr) (s : State) (e : Exc), gateOf i s.eng = none → P s → P { s with eng := abortOf i e s.eng }
  done : ∀ (i : Instr) (s : State) (g : Engine) (v0 v1 : Option Value), gateOf i s.eng = none → OpDone i s g v0 v1 →
    P s → P { s with eng := g }

theorem KeptByCommands.ended {P : State → Prop} (hP : KeptByCommands P) {i : Instr} {s t : State} (h : Ended i s t)
    (hs : P s) : P t := by
  cases h with
  | refused e hg ht => subst ht; exact hP.registersOnly (s := s) rfl rfl hs
  | raised e u hg hb he ht => 
    subst ht
    exact hP.registersOnly (s := { s with eng := abortOf i e s.eng }) hb.cfg rfl (hP.abort i s e hg hs)
  | done v0 v1 u hg hb hd ht => 
    subst ht
    exact hP.registersOnly (s := { s with eng := u.eng }) hb.cfg rfl (hP.done i s u.eng v0 v1 hg hd hs)

theorem KeptByCommands.step {P : State → Prop} (hP : KeptByCommands P) {s t : State} (h : step s = .next t) (hs : P s) :
    P t := by
  cases step_next h with
  | command cmd rest i hp hq hd he => exact hP.ended he (hP.registersOnly (s := s) rfl rfl hs)
  | illegal cmd rest hp hq hd ht => subst ht; exact hP.registersOnly (s := s) rfl rfl hs
  | sensor b i k hp hd ht => subst ht; exact hP.registersOnly (s := s) rfl rfl hs
  | idle hp hq ht => subst ht; exact hs

/-- Invariants that are kept one by one are kept together. -/
theorem KeptByCommands.and {P Q : State → Prop} (hP : KeptByCommands P) (hQ : KeptByCommands Q) :
    KeptByCommands fun s => P s ∧ Q s where
  registersOnly := fun hc he ⟨hp, hq⟩ => ⟨hP.registersOnly hc he hp, hQ.registersOnly hc he hq⟩
  abort := fun i s e hg ⟨hp, hq⟩ => ⟨hP.abort i s e hg hp, hQ.abort i s e hg hq⟩
  done := fun i s g v0 v1 hg hd ⟨hp, hq⟩ => ⟨hP.done i s g v0 v1 hg hd hp, hQ.done i s g v0 v1 hg hd hq⟩

/-- A step that stops has run an instruction that stops, on the registers of the step's state. -/
theorem step_fault {s : State} {r : Fault} (h : step s = .fault r) :
    ∃ i u, u.cfg = s.cfg ∧ u.eng = s.eng ∧ exec i u = .fault r := by
  unfold step fetch at h
  cases hp : s.bus.pending with
  | some b =>
    simp only [hp, fetchByte] at h
    cases hd : decodeSensor b with
    | ok i =>
      rw [hd] at h
      exact ⟨i, { s with bus := { s.bus with pending := none } }, rfl, rfl, h⟩
    | error e => simp [hd] at h
  | none =>
    cases hq : s.port.cmds with
    | nil => simp [hp, hq] at h
    | cons cmd rest =>
      simp only [hp, hq, fetchWord] at h
      cases hd : decode cmd with
      | ok i =>
        rw [hd] at h
        exact ⟨i, { s with port := { s.port with cmds := rest } }, rfl, rfl, h⟩
      | error e => simp [hd] at h

/-! ## The writes of INIT and RESET -/

/-- SEQ and the validity bits are as INIT and RESET leave them (R100, R107). -/
structure Cleared (g : Engine) : Prop where
  seq : g.seq = .awaitingTemperature
  pubValid : g.pubValid = false
  refValid : g.refValid = false

theorem cleared_endSession (g : Engine) : Cleared (endSession g) := ⟨rfl, rfl, rfl⟩

theorem cleared_commitCal (v : Variant) (c : Cal) (g : Engine) : Cleared (commitCal v c (beginSession g)) := by
  cases v <;> exact ⟨rfl, rfl, rfl⟩

theorem cleared_abortInit (e : Exc) (g : Engine) : Cleared (abortInit e g) := by
  cases e <;> exact ⟨rfl, rfl, rfl⟩

theorem endSession_not_ready (g : Engine) : (endSession g).initState ≠ .ready := by
  simp only [endSession]
  split <;> simp

theorem abortInit_not_ready (e : Exc) (g : Engine) : (abortInit e g).initState ≠ .ready := by
  cases e <;> simp [abortInit, beginSession]

/-! ## The session invariant (R38 items 1 to 4) -/

theorem sessionInv_of_cleared {s : State} (h : Cleared s.eng) : SessionInv s := by
  simp [SessionInv, h.seq, h.pubValid, h.refValid]

/-- In Ready the invariant only asks that a valid reference comes with a valid publication, as in `publishRef`. -/
theorem sessionInv_of_ready {s : State} (hi : s.eng.initState = .ready)
    (hr : s.eng.refValid = true → s.eng.pubValid = true) : SessionInv s := by
  simpa [SessionInv, hi] using hr

theorem sessionInv_pubValid_of_refValid {s : State} (h : SessionInv s) (hr : s.eng.refValid = true) :
    s.eng.pubValid = true := by
  obtain ⟨_, href, _⟩ := h
  exact (href hr).1

theorem sessionInv_keptByCommands : KeptByCommands SessionInv where
  registersOnly _ he hs := by rwa [SessionInv, he]
  abort i s e hg hs := by
    have hpub := sessionInv_pubValid_of_refValid hs
    cases i with
    | init => exact sessionInv_of_cleared (cleared_abortInit e s.eng)
    | reset => exact sessionInv_of_cleared (cleared_endSession s.eng)
    | compT | getData | captureRef => exact sessionInv_of_ready (gateCalibrated_none hg) hpub
    | compP => exact sessionInv_of_ready (gatePressure_none hg).1 hpub
    | getId | hasValidId | measureT | measureP | setOss | getAlt | trigT | trigP | softReset => exact hs
  done i s g v0 v1 hg hd hs := by
    have hpub := sessionInv_pubValid_of_refValid hs
    have hw := writesOnly_of_opDone hd
    cases i with
    | init =>
      obtain ⟨_, _, c, rfl⟩ := hd
      exact sessionInv_of_cleared (cleared_commitCal _ c s.eng)
    | reset =>
      obtain ⟨rfl, _⟩ := hd
      exact sessionInv_of_cleared (cleared_endSession s.eng)
    | compT =>
      obtain ⟨_, _, _, rfl⟩ := hw
      exact sessionInv_of_ready (gateCalibrated_none hg) hpub
    | compP =>
      obtain ⟨_, rfl⟩ := hw
      exact sessionInv_of_ready (gatePressure_none hg).1 hpub
    | getData =>
      obtain ⟨q, p, g1, _, _, hc, rfl⟩ := hd
      obtain ⟨_, _, rfl⟩ := cycleDone_writes hc
      exact sessionInv_of_ready (gateCalibrated_none hg) fun _ => rfl
    | captureRef =>
      obtain ⟨q, p, g1, _, _, hc, rfl⟩ := hd
      obtain ⟨_, _, rfl⟩ := cycleDone_writes hc
      exact sessionInv_of_ready (gateCalibrated_none hg) fun _ => rfl
    | setOss => obtain ⟨_, rfl⟩ := hw; exact hs
    | getId | hasValidId | measureT | measureP | getAlt | trigT | trigP | softReset => cases hw; exact hs

/-- Settles O46: INIT and RESET clear what the invariant restricts, and every other writer runs in Ready only. -/
theorem stepKeepsSessionInvariant : Obligations.StepKeepsSessionInvariant := fun _ _ hs h =>
  sessionInv_keptByCommands.step h hs

/-! ## The calibration invariant (R38 item 5) -/

theorem calInv_of_not_ready {s : State} (h : s.eng.initState ≠ .ready) : CalInv s := fun hi => absurd hi h

/-- R100, R103: INIT commits CAL, and with it the coefficients derived from it in the FP variant. -/
theorem calInv_commitCal (s : State) (c : Cal) (g : Engine) :
    CalInv { s with eng := commitCal s.cfg.variant c g } := by
  intro _
  cases hv : s.cfg.variant with
  | int => exact ⟨c, by simp [commitCal], by simp⟩
  | fp => exact ⟨c, by simp [commitCal], by simp [commitCal]⟩

theorem calInv_keptByCommands : KeptByCommands CalInv where
  registersOnly hc he hs := by rwa [CalInv, hc, he]
  abort i s e _ hs := by
    cases i with
    | init => exact calInv_of_not_ready (abortInit_not_ready e s.eng)
    | reset => exact calInv_of_not_ready (endSession_not_ready s.eng)
    | compT | compP | getData | captureRef | getId | hasValidId | measureT | measureP | setOss | getAlt | trigT | trigP
    | softReset => exact hs
  done i s g v0 v1 _ hd hs := by
    have hw := writesOnly_of_opDone hd
    cases i with
    | init =>
      obtain ⟨_, _, c, rfl⟩ := hd
      exact calInv_commitCal s c _
    | reset =>
      obtain ⟨rfl, _⟩ := hd
      exact calInv_of_not_ready (endSession_not_ready s.eng)
    | compT => obtain ⟨_, _, _, rfl⟩ := hw; exact hs
    | compP => obtain ⟨_, rfl⟩ := hw; exact hs
    | getData => obtain ⟨_, _, _, _, _, _, rfl⟩ := hw; exact hs
    | captureRef => obtain ⟨_, _, _, _, _, _, _, _, rfl⟩ := hw; exact hs
    | setOss => obtain ⟨_, rfl⟩ := hw; exact hs
    | getId | hasValidId | measureT | measureP | getAlt | trigT | trigP | softReset => cases hw; exact hs

/-- Settles O47: only INIT enters Ready or writes CAL and DC, and it writes all three together. -/
theorem stepKeepsCalibrationInvariant : Obligations.StepKeepsCalibrationInvariant := fun _ _ hs h =>
  calInv_keptByCommands.step h hs

/-! ## What the guards promise is present (R39, R40) -/

theorem presentInv_of_cleared {s : State} (h : Cleared s.eng) : PresentInv s := by
  simp [PresentInv, h.seq, h.pubValid, h.refValid]

/-- A state in which no temperature is cached needs only its valid pair and reference. -/
theorem presentInv_of_not_cached {s : State} (hq : s.eng.seq ≠ .awaitingPressure)
    (hp : s.eng.pubValid = true → s.eng.tPub.isSome = true ∧ s.eng.pPub.isSome = true)
    (hr : s.eng.refValid = true → s.eng.refP.isSome = true) : PresentInv s :=
  ⟨fun h => absurd h hq, hp, hr⟩

/-- R131, R173: the temperature step caches what AwaitingPressure promises. -/
theorem presentInv_tempDone {raw : BitVec 16} {s : State} {q : Quantity} {g : Engine} (h : TempDone raw s q g)
    (hs : PresentInv s) : PresentInv { s with eng := g } := by
  obtain ⟨_, hpub, href⟩ := hs
  obtain ⟨hv, _, _, _, _, _, _, rfl⟩ | ⟨hv, _, _, _, _, _, rfl⟩ := h.done <;>
    exact ⟨fun _ => by simp [hv], hpub, href⟩

theorem presentInv_keptByCommands : KeptByCommands PresentInv where
  registersOnly hc he hs := by rwa [PresentInv, hc, he]
  abort i s e _ hs := by
    have ⟨_, hpub, href⟩ := hs
    cases i with
    | init => exact presentInv_of_cleared (cleared_abortInit e s.eng)
    | reset => exact presentInv_of_cleared (cleared_endSession s.eng)
    | compT | compP | getData | captureRef => exact presentInv_of_not_cached nofun hpub href
    | getId | hasValidId | measureT | measureP | setOss | getAlt | trigT | trigP | softReset => exact hs
  done i s g v0 v1 _ hd hs := by
    have ⟨_, hpub, href⟩ := hs
    have hw := writesOnly_of_opDone hd
    cases i with
    | init =>
      obtain ⟨_, _, c, rfl⟩ := hd
      exact presentInv_of_cleared (cleared_commitCal _ c s.eng)
    | reset =>
      obtain ⟨rfl, _⟩ := hd
      exact presentInv_of_cleared (cleared_endSession s.eng)
    | compT =>
      obtain ⟨_, q, _, ht⟩ := hd
      exact presentInv_tempDone ht hs
    | compP =>
      obtain ⟨_, q, _, hp⟩ := hd
      rw [hp.seq]
      exact presentInv_of_not_cached nofun hpub href
    | getData =>
      obtain ⟨q, p, g1, _, _, hc, rfl⟩ := hd
      obtain ⟨_, _, rfl⟩ := cycleDone_writes hc
      exact presentInv_of_not_cached nofun (fun _ => ⟨rfl, rfl⟩) href
    | captureRef =>
      obtain ⟨q, p, g1, _, _, hc, rfl⟩ := hd
      obtain ⟨_, _, rfl⟩ := cycleDone_writes hc
      exact presentInv_of_not_cached nofun (fun _ => ⟨rfl, rfl⟩) fun _ => rfl
    | setOss => obtain ⟨_, rfl⟩ := hw; exact hs
    | getId | hasValidId | measureT | measureP | getAlt | trigT | trigP | softReset => cases hw; exact hs

/-! ## No absent register is read (R40) -/

theorem calInv_cal_present {s : State} (h : CalInv s) (hi : s.eng.initState = .ready) : s.eng.cal ≠ none := by
  obtain ⟨c, hc, _⟩ := h hi
  simp [hc]

theorem calInv_dc_present {s : State} (h : CalInv s) (hi : s.eng.initState = .ready) (hv : s.cfg.variant = .fp) :
    s.eng.dc ≠ none := by
  obtain ⟨c, _, hd⟩ := h hi
  simp [hd hv]

theorem presentInv_b5_present {s : State} (h : PresentInv s) (hq : s.eng.seq = .awaitingPressure)
    (hv : s.cfg.variant = .int) : s.eng.b5 ≠ none := by
  obtain ⟨hcache, _⟩ := h
  have hb := hcache hq
  rw [hv] at hb
  exact Option.isSome_iff_ne_none.mp hb

theorem presentInv_tc_present {s : State} (h : PresentInv s) (hq : s.eng.seq = .awaitingPressure)
    (hv : s.cfg.variant = .fp) : s.eng.tc ≠ none := by
  obtain ⟨hcache, _⟩ := h
  have ht := hcache hq
  rw [hv] at ht
  exact Option.isSome_iff_ne_none.mp ht

/-- The gate of each instruction that reads a register says, with the invariant, that the register holds a value. -/
theorem exec_not_fault {i : Instr} {s : State} (hs : EngineInv s) (r : Fault) : exec i s ≠ .fault r := by
  intro h
  obtain ⟨hsession, hcal, hpresent⟩ := hs
  obtain ⟨hg, hr⟩ := exec_fault h
  cases i with
  | compT | getData | captureRef =>
    have hi := gateCalibrated_none hg
    obtain ⟨_, hn⟩ | ⟨hv, hn⟩ := hr
    · exact calInv_cal_present hcal hi hn
    · exact calInv_dc_present hcal hi hv hn
  | compP =>
    obtain ⟨hi, hq⟩ := gatePressure_none hg
    obtain ⟨hv, hn | hn⟩ | ⟨hv, hn | hn⟩ := hr
    · exact presentInv_b5_present hpresent hq hv hn
    · exact calInv_cal_present hcal hi hn
    · exact presentInv_tc_present hpresent hq hv hn
    · exact calInv_dc_present hcal hi hv hn
  | getAlt =>
    have href := gateReference_none hg
    obtain ⟨_, hpub, hrefP⟩ := hpresent
    obtain hn | hn := hr
    · simpa [hn] using (hpub (sessionInv_pubValid_of_refValid hsession href)).2
    · simpa [hn] using hrefP href
  | init | reset | getId | hasValidId | measureT | measureP | setOss | trigT | trigP | softReset => exact hr

theorem engineInv_keptByCommands : KeptByCommands EngineInv :=
  sessionInv_keptByCommands.and (calInv_keptByCommands.and presentInv_keptByCommands)

theorem safeStep_of_engineInv {s : State} (hs : EngineInv s) : SafeStep s := by
  intro r h
  obtain ⟨i, u, hc, he, hx⟩ := step_fault h
  exact exec_not_fault (engineInv_keptByCommands.registersOnly hc he hs) r hx

/-- Settles O48: a reader's gate and the invariant put a value in every register it reads, and each part of the invariant is
kept. -/
theorem stepNeverReadsAnAbsentRegister : Obligations.StepNeverReadsAnAbsentRegister := fun _ hs =>
  ⟨safeStep_of_engineInv hs, fun _ h => engineInv_keptByCommands.step h hs⟩

/-! ## The variant's types (R20, R31, R32) -/

@[simp] theorem heldAll_none {α : Type} (p : α → Prop) : heldAll p none := fun _ h => nomatch h

@[simp] theorem heldAll_some {α : Type} (p : α → Prop) (v : α) : heldAll p (some v) ↔ p v := by
  simp [heldAll]

theorem tempDone_hasVariant {raw : BitVec 16} {s : State} {q : Quantity} {g : Engine} (h : TempDone raw s q g) :
    q.hasVariant s.cfg.variant = true := by
  obtain ⟨hv, _, _, _, _, _, rfl, _⟩ | ⟨hv, _, _, _, _, rfl, _⟩ := h.done <;> rw [hv] <;> rfl

theorem pressDone_hasVariant {raw : BitVec 19} {oss : BitVec 2} {s : State} {q : Quantity} {g : Engine}
    (h : PressDone raw oss s q g) : q.hasVariant s.cfg.variant = true := by
  obtain ⟨hv, _, _, _, _, _, _, rfl⟩ | ⟨hv, _, _, _, _, _, _, rfl⟩ := h.done <;> rw [hv] <;> rfl

/-- R131 caches B5, R173 caches TC: each in its own variant only. -/
theorem typeInv_tempDone {raw : BitVec 16} {s : State} {q : Quantity} {g : Engine} (h : TempDone raw s q g)
    (hs : TypeInv s) : TypeInv { s with eng := g } := by
  obtain ⟨hint, hfp, hpairs⟩ := hs
  obtain ⟨hv, _, _, _, _, _, _, rfl⟩ | ⟨hv, _, _, _, _, _, rfl⟩ := h.done
  · exact ⟨hint, fun h => by simp [hv] at h, hpairs⟩
  · exact ⟨fun h => by simp [hv] at h, hfp, hpairs⟩

/-- A cycle keeps the types and gives a pair of the variant's type. -/
theorem typeInv_cycleDone {s : State} {q p : Quantity} {g : Engine} (h : CycleDone s q p g) (hs : TypeInv s) :
    TypeInv { s with eng := g } ∧ q.hasVariant s.cfg.variant = true ∧ p.hasVariant s.cfg.variant = true := by
  obtain ⟨bt, s1, g1, bp, s3, hc1, he1, ht, hc3, he3, hp⟩ := h
  have h1 : TypeInv { s1 with eng := g1 } := typeInv_tempDone ht (by rwa [TypeInv, hc1, he1])
  refine ⟨?_, hc1 ▸ tempDone_hasVariant ht, hc3 ▸ pressDone_hasVariant hp⟩
  rw [hp.seq, he3]
  rwa [TypeInv, hc1] at h1

theorem typeInv_publish {s : State} {t p : Quantity} (hs : TypeInv s) (ht : t.hasVariant s.cfg.variant = true)
    (hp : p.hasVariant s.cfg.variant = true) : TypeInv { s with eng := publish t p s.eng } := by
  obtain ⟨hint, hfp, _, _, href⟩ := hs
  exact ⟨hint, hfp, (heldAll_some _ t).mpr ht, (heldAll_some _ p).mpr hp, href⟩

theorem typeInv_publishRef {s : State} {t p : Quantity} (hs : TypeInv s) (ht : t.hasVariant s.cfg.variant = true)
    (hp : p.hasVariant s.cfg.variant = true) : TypeInv { s with eng := publishRef t p s.eng } := by
  obtain ⟨hint, hfp, htPub, hpPub, _⟩ := typeInv_publish hs ht hp
  exact ⟨hint, hfp, htPub, hpPub, (heldAll_some _ p).mpr hp⟩

/-- R103: INIT writes DC in the FP variant only. -/
theorem typeInv_commitCal {s : State} (c : Cal) (hs : TypeInv s) :
    TypeInv { s with eng := commitCal s.cfg.variant c (beginSession s.eng) } := by
  obtain ⟨hint, hfp, hpairs⟩ := hs
  cases hv : s.cfg.variant with
  | int => exact ⟨fun _ => hint hv, fun h => hfp h, hpairs⟩
  | fp => exact ⟨fun h => by simp [hv] at h, fun _ => hfp hv, hpairs⟩

theorem typeInv_keptByCommands : KeptByCommands TypeInv where
  registersOnly hc he hs := by rwa [TypeInv, hc, he]
  abort i s e _ hs := by
    cases i with
    | init => cases e <;> exact hs
    | compT | compP | getData | captureRef | reset | getId | hasValidId | measureT | measureP | setOss | getAlt | trigT
    | trigP | softReset => exact hs
  done i s g v0 v1 _ hd hs := by
    have hw := writesOnly_of_opDone hd
    cases i with
    | init =>
      obtain ⟨_, _, c, rfl⟩ := hd
      exact typeInv_commitCal c hs
    | compT =>
      obtain ⟨_, q, _, ht⟩ := hd
      exact typeInv_tempDone ht hs
    | getData =>
      obtain ⟨q, p, g1, _, _, hc, rfl⟩ := hd
      obtain ⟨hg1, hq, hp⟩ := typeInv_cycleDone hc hs
      exact typeInv_publish hg1 hq hp
    | captureRef =>
      obtain ⟨q, p, g1, _, _, hc, rfl⟩ := hd
      obtain ⟨hg1, hq, hp⟩ := typeInv_cycleDone hc hs
      exact typeInv_publishRef hg1 hq hp
    | compP => obtain ⟨_, rfl⟩ := hw; exact hs
    | reset => obtain ⟨_, _, _, _, rfl⟩ := hw; exact hs
    | setOss => obtain ⟨_, rfl⟩ := hw; exact hs
    | getId | hasValidId | measureT | measureP | getAlt | trigT | trigP | softReset => cases hw; exact hs

/-- Settles O49: each write of a typed register has the type of the variant that makes it. -/
theorem stepKeepsVariantTypes : Obligations.StepKeepsVariantTypes := fun _ _ hs h =>
  typeInv_keptByCommands.step h hs

/-! ## The reset state -/

/-- Settles O45: SEQ and the validity bits are cleared, INIT_STATE is Uninit, and every optional register is absent. -/
theorem resetMeetsTheInvariants : Obligations.ResetMeetsTheInvariants := by
  intro p
  have hcleared : Cleared (State.resetWith p).eng := ⟨rfl, rfl, rfl⟩
  have hcal : CalInv (State.resetWith p) := calInv_of_not_ready nofun
  have htype : TypeInv (State.resetWith p) :=
    ⟨fun _ => ⟨rfl, rfl⟩, fun _ => rfl, heldAll_none _, heldAll_none _, heldAll_none _⟩
  have hfinite : FiniteInv (State.resetWith p) :=
    ⟨heldAll_none _, heldAll_none _, heldAll_none _, heldAll_none _, heldAll_none _⟩
  have hpressure : PressureInv (State.resetWith p) := ⟨heldAll_none _, heldAll_none _⟩
  exact ⟨⟨sessionInv_of_cleared hcleared, hcal, presentInv_of_cleared hcleared⟩, htype, hfinite, hpressure⟩

end Sys2Proof.Proofs
end

section
/-! PROOFS. SEQ after every operation (10_state.md R28), and the values of the calibration constants (10_state.md R22). -/

open Sys2Proof Sys2Proof.Machine Sys2Proof.Claims

namespace Sys2Proof.Proofs

/-! ## SEQ (R28) -/

theorem hostCommand_eq_isCommand (i : Instr) : hostCommand i = isCommand i := by cases i <;> rfl

/-- The statuses of the gates before the commands that write SEQ (R132, R138, R204). -/
def refusal (st : Status) : Bool :=
  decide (st = .identityMismatch ∨ st = .notInitialized ∨ st = .sequenceViolation)

/-- The response of a command that has ended, by the way it ended. -/
theorem ended_response {i : Instr} {s t : State} {r : Response} (h : Ended i s t)
    (hr : t.port.responses = s.port.responses ++ [r]) :
    (∃ e, gateOf i s.eng = some e ∧ r.status = excStatus e ∧ t.eng = s.eng) ∨
    (∃ e, RaisedBy i s e ∧ r.status = excStatus e ∧ t.eng = abortOf i e s.eng) ∨
    (∃ v0 v1, OpDone i s t.eng v0 v1 ∧ r.status = .ok) := by
  cases h with
  | refused e hg ht =>
    subst ht
    obtain rfl := List.singleton_inj.mp (List.append_cancel_left hr)
    exact .inl ⟨e, hg, rfl, rfl⟩
  | raised e u hg hb he ht =>
    subst ht
    simp only [raiseExc_responses, hb.port] at hr
    obtain rfl := List.singleton_inj.mp (List.append_cancel_left hr)
    exact .inr (.inl ⟨e, he, rfl, rfl⟩)
  | done v0 v1 u hg hb hd ht =>
    subst ht
    simp only [respond_responses, hb.port] at hr
    obtain rfl := List.singleton_inj.mp (List.append_cancel_left hr)
    exact .inr (.inr ⟨v0, v1, hd, rfl⟩)

/-- A gate that refuses leaves SEQ as it was. -/
theorem seqAfter_of_gate {i : Instr} {g : Engine} {e : Exc} (h : gateOf i g = some e) (ok : Bool) (q : Seq) :
    seqAfter i ok (refusal (excStatus e)) q = q := by
  cases i with
  | compT | getData | captureRef => obtain rfl | rfl := gateCalibrated_some h <;> rfl
  | compP => obtain rfl | rfl | rfl := gatePressure_some h <;> rfl
  | init | reset => cases h
  | getId | hasValidId | measureT | measureP | setOss | getAlt | trigT | trigP | softReset => rfl

theorem refusal_of_isIntExc {e : Exc} (h : IsIntExc e) : refusal (excStatus e) = false := by
  obtain ⟨st, rfl⟩ | ⟨st, rfl⟩ := h <;> rfl

theorem refusal_of_numericDomain {e : Exc} (h : ∃ st, e = .numericDomain st) : refusal (excStatus e) = false := by
  obtain ⟨st, rfl⟩ := h; rfl

theorem refusal_of_busError {e : Exc} (h : ∃ d r, e = .busError d r) : refusal (excStatus e) = false := by
  obtain ⟨d, r, rfl⟩ := h; rfl

/-- Past its gate, only INIT raises with the status of a refusal: IdentityMismatch, of the byte it has read. -/
theorem refusal_of_raisedBy {i : Instr} {s : State} {e : Exc} (h : RaisedBy i s e) (hi : i ≠ .init) :
    refusal (excStatus e) = false := by
  cases i with
  | init => exact absurd rfl hi
  | getId | hasValidId | reset | measureT | measureP => exact refusal_of_busError h
  | compT =>
    obtain ⟨_, c, _, hx⟩ | ⟨_, k, _, hx⟩ := h
    · exact refusal_of_isIntExc (tcompInt_error hx)
    · exact refusal_of_numericDomain (tcompFp_error hx)
  | compP =>
    obtain ⟨_, b5, c, _, _, hx⟩ | ⟨_, tc, k, _, _, hx⟩ := h
    · exact refusal_of_isIntExc (pcompInt_error hx)
    · exact refusal_of_numericDomain (pcompFp_error hx)
  | getData | captureRef =>
    obtain hb | ⟨_, c, _, ⟨_, hx⟩ | ⟨_, _, _, hx⟩⟩ | ⟨_, k, _, ⟨_, hx⟩ | ⟨_, _, _, hx⟩⟩ := h
    · exact refusal_of_busError hb
    · exact refusal_of_isIntExc (tcompInt_error hx)
    · exact refusal_of_isIntExc (pcompInt_error hx)
    · exact refusal_of_numericDomain (tcompFp_error hx)
    · exact refusal_of_numericDomain (pcompFp_error hx)
  | getAlt =>
    obtain ⟨p, r, _, _, hx⟩ := h
    exact refusal_of_numericDomain (altitude_error hx)
  | setOss | trigT | trigP | softReset => exact h.elim

/-- The abort writes leave SEQ as R28 says of a command that has raised. -/
theorem abortOf_seq (i : Instr) (e : Exc) (g : Engine) : (abortOf i e g).seq = seqAfter i false false g.seq := by
  cases i with
  | init => exact (cleared_abortInit e g).seq
  | reset | compT | compP | getData | captureRef | getId | hasValidId | measureT | measureP | setOss | getAlt | trigT
  | trigP | softReset => rfl

/-- A completed command leaves SEQ as R28 says. -/
theorem opDone_seq {i : Instr} {s : State} {g : Engine} {v0 v1 : Option Value} (h : OpDone i s g v0 v1) :
    g.seq = seqAfter i true false s.eng.seq := by
  have hw := writesOnly_of_opDone h
  cases i with
  | init =>
    obtain ⟨_, _, c, rfl⟩ := h
    exact (cleared_commitCal _ c s.eng).seq
  | reset => obtain ⟨rfl, _⟩ := h; rfl
  | compT =>
    obtain ⟨_, q, _, ht⟩ := h
    obtain ⟨_, _, rfl⟩ := tempDone_writes ht
    rfl
  | compP =>
    obtain ⟨_, q, _, hp⟩ := h
    rw [hp.seq]
    rfl
  | getData | captureRef =>
    obtain ⟨q, p, g1, _, _, hc, rfl⟩ := h
    obtain ⟨_, _, rfl⟩ := cycleDone_writes hc
    rfl
  | setOss => obtain ⟨_, rfl⟩ := hw; rfl
  | getId | hasValidId | measureT | measureP | getAlt | trigT | trigP | softReset => cases hw; rfl

theorem excStatus_ne_ok (e : Exc) : excStatus e ≠ .ok := by cases e <;> nofun

/-- Settles O54: a refusal writes nothing, a raise leaves its abort writes, and a completion its own. -/
theorem seqFollowsTheTable : Obligations.SeqFollowsTheTable := by
  intro i s t r hi h hr
  rw [hostCommand_eq_isCommand] at hi
  change t.eng.seq = seqAfter i (decide (r.status = .ok)) (refusal r.status) s.eng.seq
  obtain ⟨e, hg, hst, heng⟩ | ⟨e, he, hst, heng⟩ | ⟨v0, v1, hd, hst⟩ := ended_response (exec_next hi h) hr
  · rw [hst, heng, seqAfter_of_gate hg]
  · rw [hst, heng, abortOf_seq, decide_eq_false (excStatus_ne_ok e)]
    by_cases hinit : i = .init
    · subst hinit; rfl
    · rw [refusal_of_raisedBy he hinit]
  · rw [hst, opDone_seq hd]
    rfl

/-! ## The calibration constants (R22) -/

/-- R8: a 16-bit pattern from 32768 on stands for its value less 65536. -/
theorem sext16_eq (b : Half) : sext16 b = if b.toNat < 32768 then (b.toNat : Int) else (b.toNat : Int) - 65536 := by
  rw [sext16, BitVec.toInt_eq_toNat_cond]
  split <;> split <;> omega

/-- Settles O18: eight constants are `sext16` of their pattern, the other three `zext16`. -/
theorem calibrationConstantsBySignedness : Obligations.CalibrationConstantsBySignedness := fun c =>
  ⟨sext16_eq c.ac1, sext16_eq c.ac2, sext16_eq c.ac3, rfl, rfl, rfl,
    sext16_eq c.b1, sext16_eq c.b2, sext16_eq c.mb, sext16_eq c.mc, sext16_eq c.md⟩

end Sys2Proof.Proofs
end

section
/-! PROOFS. The sensor bus (20_memory.md): the bytes it gives as numbers (R53), the events an operation adds to its trace
(R55, R252, R287), the order in which a step takes what waits (R60), and the sensor's own commands (R57). -/

open Sys2Proof Sys2Proof.Machine Sys2Proof.Claims

namespace Sys2Proof.Proofs

/-! ## Assembly of bytes (R53) -/

/-- R53: the high part of an assembled value weighs 2 to the width of the low part. -/
theorem toNat_append_eq_add {m n : Nat} (hi : BitVec m) (lo : BitVec n) :
    (hi ++ lo).toNat = hi.toNat * 2 ^ n + lo.toNat := by
  rw [BitVec.toNat_append, ← Nat.shiftLeft_add_eq_or_of_lt lo.isLt, Nat.shiftLeft_eq]

theorem calWord_toNat (b0 b1 : Byte) : (calWord [b0, b1]).toNat = b0.toNat * 2 ^ 8 + b1.toNat :=
  toNat_append_eq_add b0 b1

theorem rawTemp_toNat (b0 b1 : Byte) : (rawTemp [b0, b1]).toNat = b0.toNat * 2 ^ 8 + b1.toNat :=
  toNat_append_eq_add b0 b1

/-- Three bytes are below 2^24, so shifting them right by 8 - oss leaves a value of 16 + oss bits. -/
theorem shiftedBytes_lt (b0 b1 b2 : Byte) (oss : BitVec 2) :
    (b0.toNat * 2 ^ 16 + b1.toNat * 2 ^ 8 + b2.toNat) / 2 ^ (8 - oss.toNat) < 2 ^ (16 + oss.toNat) := by
  have hoss : oss.toNat < 4 := oss.isLt
  have hsum : 8 - oss.toNat + (16 + oss.toNat) = 24 := by omega
  apply Nat.div_lt_of_lt_mul
  rw [← pow_add, hsum]
  omega

/-- R53: the shifted value fits the 19 bits of a raw pressure, so none is lost. -/
theorem rawPress_toNat (b0 b1 b2 : Byte) (oss : BitVec 2) :
    (rawPress [b0, b1, b2] oss).toNat =
      (b0.toNat * 2 ^ 16 + b1.toNat * 2 ^ 8 + b2.toNat) / 2 ^ (8 - oss.toNat) := by
  have hbytes : (b0 ++ b1 ++ b2).toNat = b0.toNat * 2 ^ 16 + b1.toNat * 2 ^ 8 + b2.toNat := by
    rw [toNat_append_eq_add, toNat_append_eq_add]
    omega
  have hfits : 2 ^ (16 + oss.toNat) ≤ 2 ^ 19 := Nat.pow_le_pow_right (by decide) (by have := oss.isLt; omega)
  change (((b0 ++ b1 ++ b2) >>> (8 - oss.toNat)).setWidth 19).toNat = _
  rw [BitVec.toNat_setWidth, BitVec.toNat_ushiftRight, hbytes, Nat.shiftRight_eq_div_pow,
    Nat.mod_eq_of_lt ((shiftedBytes_lt b0 b1 b2 oss).trans_le hfits)]

/-- Settles O17: appending bytes adds them with their weights, and the shifted pressure keeps all its bits. -/
theorem bytesAssembleBigEndian : Obligations.BytesAssembleBigEndian := fun b0 b1 b2 oss =>
  ⟨calWord_toNat b0 b1, rawTemp_toNat b0 b1, rawPress_toNat b0 b1 b2 oss,
    (rawPress_toNat b0 b1 b2 oss).trans_lt (shiftedBytes_lt b0 b1 b2 oss)⟩

/-! ## The bus trace (R55, R252, R287) -/

/-- From `s` to `t` the trace has grown by allowed events of the engine's own device, a failed one only as the last. -/
def AddsAllowedEvents (s t : State) : Prop :=
  ∃ evs, t.bus.trace = s.bus.trace ++ evs ∧ evs.all (allowedEvent s.cfg.devAddr) = true ∧ failsOnlyLast evs = true

theorem addsAllowedEvents_of_busRun {ok : Bool} {s t u : State} (h : BusRun ok s u) (ht : t.bus.trace = u.bus.trace) :
    AddsAllowedEvents s t := by
  obtain ⟨evs, htrace, hallowed, hfails, _⟩ := h.trace
  exact ⟨evs, ht.trans htrace, hallowed, hfails⟩

/-- A response or an exception adds nothing to the trace its operation's bus run leaves. -/
theorem addsAllowedEvents_of_ended {i : Instr} {s t : State} (h : Ended i s t) : AddsAllowedEvents s t := by
  cases h with
  | refused e hg ht => subst ht; exact addsAllowedEvents_of_busRun (busRun_refl true s) rfl
  | raised e u hg hb he ht => subst ht; exact addsAllowedEvents_of_busRun hb rfl
  | done v0 v1 u hg hb hd ht => subst ht; exact addsAllowedEvents_of_busRun hb rfl

theorem addsAllowedEvents_of_exec {i : Instr} {s t : State} (h : exec i s = .next t) : AddsAllowedEvents s t := by
  cases hi : isCommand i with
  | true => exact addsAllowedEvents_of_ended (exec_next hi h)
  | false =>
    obtain ⟨k, rfl⟩ := exec_sensor hi h
    exact addsAllowedEvents_of_busRun (busRun_refl true s) rfl

theorem tcompStep_bus {raw : BitVec 16} {s t : State} {r : Except Exc Quantity} (h : tcompStep raw s = .next (r, t)) :
    t.bus = s.bus := by
  obtain ⟨q, _, _, ht⟩ | ⟨e, _, ht, _⟩ := tcompStep_next h <;> rw [ht]

theorem pcompStep_bus {raw : BitVec 19} {oss : BitVec 2} {s t : State} {r : Except Exc Quantity}
    (h : pcompStep raw oss s = .next (r, t)) : t.bus = s.bus := by
  obtain ⟨q, _, _, ht⟩ | ⟨e, _, ht, _⟩ := pcompStep_next h <;> rw [ht]

theorem conclude_bus (abort : Exc → Engine → Engine) (s : State) (x : Tx Values) :
    (conclude abort s x).bus = x.2.bus := by
  obtain ⟨v0, v1, u, rfl, h⟩ | ⟨e, u, rfl, h⟩ := conclude_cases abort s x <;> rw [h] <;> rfl

/-- A gate that refuses leaves the bus, so an operation leaves it if its body does. -/
theorem gated_keeps_bus {gate : Option Exc} {s t : State} {op : Host.Outcome State Fault Refusal}
    (hop : op = .next t → t.bus = s.bus) (h : gated gate s op = .next t) : t.bus = s.bus := by
  obtain ⟨e, _, rfl⟩ | ⟨_, h⟩ := gated_next h
  · rfl
  · exact hop h

/-- An operation that answers the quantity of one step leaves the bus if the step does. -/
theorem respondOne_keeps_bus {abort : Exc → Engine → Engine} {s t : State} {x : Run Quantity}
    (hx : ∀ r u, x = .next (r, u) → u.bus = s.bus) (h : concludeRun abort s (runBind x respondOne) = .next t) :
    t.bus = s.bus := by
  obtain ⟨v0, v1, u, hrun, rfl⟩ | ⟨e, u, hrun, rfl⟩ := concludeRun_next h
  · obtain ⟨q, w, hstep, hresp⟩ := runBind_ok hrun
    cases hresp
    exact (hx _ _ hstep :)
  · obtain hstep | ⟨q, w, _, hresp⟩ := runBind_error hrun
    · exact (hx _ _ hstep :)
    · cases hresp

theorem altResponse_state (r : Except Exc F64) (s : State) : (altResponse r s).2 = s := by cases r <;> rfl

/-- R287: COMP_T, COMP_P, SET_OSS and GET_ALT work on the engine registers alone. -/
theorem exec_keeps_bus_of_isQuiet {i : Instr} {s t : State} (hi : isQuiet i = true) (h : exec i s = .next t) :
    t.bus = s.bus := by
  cases i with
  | compT raw => exact gated_keeps_bus (respondOne_keeps_bus fun _ _ => tcompStep_bus) h
  | compP oss raw => exact gated_keeps_bus (respondOne_keeps_bus fun _ _ => pcompStep_bus) h
  | setOss oss => cases h; rfl
  | getAlt =>
    refine gated_keeps_bus (fun h => ?_) h
    obtain ⟨p, _, h⟩ := withReg_next h
    obtain ⟨r, _, h⟩ := withReg_next h
    cases h
    rw [conclude_bus, altResponse_state]
  | init | getId | hasValidId | reset | measureT | measureP | getData | captureRef | trigT | trigP | softReset => cases hi

/-- Settles O56: an operation's bus run holds allowed events only, and a quiet operation leaves the whole bus. -/
theorem busTraceHoldsOnlyAllowedEvents : Obligations.BusTraceHoldsOnlyAllowedEvents := fun _ _ _ h =>
  ⟨addsAllowedEvents_of_exec h, fun hi => exec_keeps_bus_of_isQuiet hi h⟩

/-! ## What a step takes (R60, R70, R83) -/

/-- With no byte on the bus, the next command word is fetched. -/
theorem fetch_command {s : State} {w : Word} {rest : List Word} (hp : s.bus.pending = none)
    (hq : s.port.cmds = w :: rest) : fetch s = fetchWord w rest s := by
  simp only [fetch, hp, hq]

/-- A byte on the bus is fetched whatever waits on the host port (log 4). -/
theorem fetch_pending {s : State} {b : Byte} (hp : s.bus.pending = some b) : fetch s = fetchByte b s := by
  simp only [fetch, hp]

theorem fetchWord_ok {w : Word} {i : Instr} (hd : decode w = .ok i) (rest : List Word) (s : State) :
    fetchWord w rest s = .run i { s with port := { s.port with cmds := rest } } := by
  simp only [fetchWord, hd]

theorem fetchByte_ok {b : Byte} {i : Instr} (hd : decodeSensor b = .ok i) (s : State) :
    fetchByte b s = .run i { s with bus := { s.bus with pending := none } } := by
  simp only [fetchByte, hd]

theorem step_of_fetch_run {s u : State} {i : Instr} (h : fetch s = .run i u) : step s = exec i u := by
  simp only [step, h]

/-- Settles O6: what is fetched and decodes is run. -/
theorem stepRunsTheDecodedInstruction : Obligations.StepRunsTheDecodedInstruction :=
  ⟨fun s _ rest _ hp hq hd => step_of_fetch_run ((fetch_command hp hq).trans (fetchWord_ok hd rest s)),
    fun s _ _ hp hd => step_of_fetch_run ((fetch_pending hp).trans (fetchByte_ok hd s))⟩

/-! ## The sensor's commands (R57, R79) -/

/-- R79: the trigger byte of each oversampling level. -/
theorem trigPByte_eq_trigger (oss : BitVec 2) : trigPByte oss = trigger oss := by revert oss; decide

/-- Settles O43: each byte changes the sensor's conversion record alone, and is the engine's own command byte. -/
theorem sensorCommandsStartConversions : Obligations.SensorCommandsStartConversions := fun _ oss =>
  ⟨rfl, rfl, rfl, ⟨rfl, rfl⟩, ⟨rfl, rfl⟩, ⟨rfl, rfl⟩, trigPByte_eq_trigger oss⟩

end Sys2Proof.Proofs
end

section
/-! PROOFS. The encodings (30_encoding.md): decoding and encoding are inverse on command words and sensor bytes (R71, R72,
R79), the illegal words (R74, R75), and the assembler (R77). -/

open Sys2Proof Sys2Proof.Machine Sys2Proof.Claims

namespace Sys2Proof.Proofs

/-! ## A masked match as an equation of the word -/

/-- The word matches exactly when it is the pattern with the word's own bits outside the mask. -/
theorem and_mask_eq_iff {n : Nat} {p m : BitVec n} (hp : p &&& m = p) (w : BitVec n) :
    w &&& m = p ↔ p ||| (w &&& ~~~m) = w := by
  constructor
  · rintro rfl
    rw [← BitVec.and_or_distrib_left]
    simp
  · intro h
    rw [← h, BitVec.and_or_distrib_right, hp, BitVec.and_assoc]
    simp

/-! ## The operand fields (R73, R80) -/

theorem ossField_bits (w : Word) : (ossField w).setWidth 32 <<< 24 = w &&& 0x03000000 := by
  apply BitVec.eq_of_getLsbD_eq
  simp only [Nat.forall_lt_succ_right, ossField]
  simp

theorem rawPField_bits (w : Word) : (rawPField w).setWidth 32 = w &&& 0x7FFFF := by
  apply BitVec.eq_of_getLsbD_eq
  simp only [Nat.forall_lt_succ_right, rawPField]
  simp

theorem rawTField_bits (w : Word) : (rawTField w).setWidth 32 = w &&& 0xFFFF := by
  apply BitVec.eq_of_getLsbD_eq
  simp only [Nat.forall_lt_succ_right, rawTField]
  simp

theorem trigPByte_bits (b : Byte) : trigPByte (b.extractLsb' 6 2) = 0x34 ||| (b &&& 0xC0) := by
  apply BitVec.eq_of_getLsbD_eq
  simp only [Nat.forall_lt_succ_right, trigPByte]
  simp

theorem ossField_toNat (w : Word) : (ossField w).toNat = w.toNat / 2 ^ 24 % 2 ^ 2 := by
  simp [ossField, Nat.shiftRight_eq_div_pow]

theorem rawTField_toNat (w : Word) : (rawTField w).toNat = w.toNat % 2 ^ 16 := by
  simp [rawTField]

theorem rawPField_toNat (w : Word) : (rawPField w).toNat = w.toNat % 2 ^ 19 := by
  simp [rawPField]

@[simp] theorem ossField_cmdWord (op : BitVec 4) (oss : BitVec 2) (raw : BitVec 19) :
    ossField (cmdWord op oss raw) = oss := by
  apply BitVec.eq_of_toNat_eq
  rw [ossField_toNat, Laws.cmdWord_toNat]
  omega

@[simp] theorem rawPField_cmdWord (op : BitVec 4) (oss : BitVec 2) (raw : BitVec 19) :
    rawPField (cmdWord op oss raw) = raw := by
  apply BitVec.eq_of_toNat_eq
  rw [rawPField_toNat, Laws.cmdWord_toNat]
  omega

@[simp] theorem rawTField_cmdWord (op : BitVec 4) (oss : BitVec 2) (raw : BitVec 16) :
    rawTField (cmdWord op oss (raw.setWidth 19)) = raw := by
  apply BitVec.eq_of_toNat_eq
  rw [rawTField_toNat, Laws.cmdWord_toNat, BitVec.toNat_setWidth]
  omega

/-! ## The rows of R72 -/

/-- The encoder puts the operands back in the bits a row reads them from, which are the bits outside its mask. -/
theorem encode_build {r : CmdRow} (hr : r ∈ cmdRows) (w : Word) :
    encode (r.build w) = .cmd (r.pattern ||| (w &&& ~~~r.mask)) := by
  simp only [cmdRows, List.mem_cons, List.not_mem_nil, or_false] at hr
  rcases hr with rfl | rfl | rfl | rfl | rfl | rfl | rfl | rfl | rfl | rfl | rfl | rfl <;>
    simp [encode, cmdWord, ossField_bits, rawTField_bits, rawPField_bits, BitVec.or_assoc,
      ← BitVec.and_or_distrib_left]

theorem pattern_and_mask : ∀ r ∈ cmdRows, r.pattern &&& r.mask = r.pattern := by decide

/-- A row selects exactly the encodings of what it builds. -/
theorem selects_iff_encode_build {r : CmdRow} (hr : r ∈ cmdRows) (w : Word) :
    r.selects w = true ↔ encode (r.build w) = .cmd w := by
  rw [encode_build hr, Encoded.cmd.injEq, ← and_mask_eq_iff (pattern_and_mask r hr), CmdRow.selects, beq_iff_eq]

/-- R72: every mask takes in the opcode. -/
theorem opcode_of_selects {r : CmdRow} (hr : r ∈ cmdRows) {w : Word} (h : r.selects w = true) :
    w.extractLsb' 28 4 = r.pattern.extractLsb' 28 4 := by
  have hm : ∀ r ∈ cmdRows, r.mask.extractLsb' 28 4 = BitVec.allOnes 4 := by decide
  rw [CmdRow.selects, beq_iff_eq] at h
  rw [← h, BitVec.extractLsb'_and, hm r hr, BitVec.and_allOnes]

/-- No two rows select the same word: their opcodes differ. -/
theorem cmdRows_exclusive (w : Word) : cmdRows.Pairwise fun r r' => r.selects w = true → r'.selects w = false := by
  have hop : cmdRows.Pairwise fun r r' => r.pattern.extractLsb' 28 4 ≠ r'.pattern.extractLsb' 28 4 := by decide
  exact hop.imp_of_mem fun hr hr' hne h => Bool.eq_false_iff.mpr fun h' =>
    hne ((opcode_of_selects hr h).symm.trans (opcode_of_selects hr' h'))

/-- The search answers the row that selects the word, when no other one does. -/
theorem decodeIn_of_selects {rows : List CmdRow} {w : Word}
    (hex : rows.Pairwise fun r r' => r.selects w = true → r'.selects w = false) {r : CmdRow} (hr : r ∈ rows)
    (h : r.selects w = true) : decodeIn rows w = .ok (r.build w) := by
  induction hex with
  | nil => cases hr
  | @cons r0 rest hfirst _ ih =>
    cases hr with
    | head => simp [decodeIn, h]
    | tail _ hr =>
      have h0 : r0.selects w = false := Bool.eq_false_iff.mpr fun h0 => by simp [hfirst r hr h0] at h
      simp [decodeIn, h0, ih hr]

theorem exists_build_of_encode {i : Instr} {w : Word} (h : encode i = .cmd w) : ∃ r ∈ cmdRows, r.build w = i := by
  cases i with
  | trigT | trigP | softReset => cases h
  | init | getId | hasValidId | reset | measureT | measureP | compT | compP | setOss | getData | getAlt
  | captureRef => cases h; simp [cmdRows]

/-! ## Decoding is the inverse of encoding (R71, R79) -/

theorem decode_ok_iff {w : Word} {i : Instr} : decode w = .ok i ↔ encode i = .cmd w := by
  constructor
  · intro h
    obtain ⟨r, hr, hsel, rfl⟩ := decodeIn_ok h
    exact (selects_iff_encode_build hr w).mp hsel
  · intro h
    obtain ⟨r, hr, rfl⟩ := exists_build_of_encode h
    exact decodeIn_of_selects (cmdRows_exclusive w) hr ((selects_iff_encode_build hr w).mpr h)

theorem decodeSensor_trigPByte (oss : BitVec 2) : decodeSensor (trigPByte oss) = .ok (.trigP oss) := by
  revert oss; decide

theorem encode_of_decodeSensor {b : Byte} {i : Instr} (h : decodeSensor b = .ok i) : encode i = .sensor b := by
  unfold decodeSensor at h
  split at h
  · next hb => cases h; rw [beq_iff_eq.mp hb]; rfl
  · split at h
    · next hb =>
      cases h
      rw [encode, trigPByte_bits]
      exact congrArg _ ((and_mask_eq_iff (by decide) b).mp (beq_iff_eq.mp hb))
    · split at h
      · next hb => cases h; rw [beq_iff_eq.mp hb]; rfl
      · cases h

theorem decodeSensor_ok_iff {b : Byte} {i : Instr} : decodeSensor b = .ok i ↔ encode i = .sensor b := by
  refine ⟨encode_of_decodeSensor, fun h => ?_⟩
  cases i with
  | trigT | softReset => cases h; rfl
  | trigP oss => cases h; exact decodeSensor_trigPByte oss
  | init | getId | hasValidId | reset | measureT | measureP | compT | compP | setOss | getData | getAlt
  | captureRef => cases h

/-- Settles O1: the decoder of either kind of bits answers the instruction they encode. -/
theorem decodeOfEncodeIsTheInstruction : Obligations.DecodeOfEncodeIsTheInstruction := by
  intro i
  cases h : encode i with
  | cmd w => exact decode_ok_iff.mpr h
  | sensor b => exact decodeSensor_ok_iff.mpr h

/-- Settles O2: the other direction of the same equivalences. -/
theorem everyLegalWordIsItsEncoding : Obligations.EveryLegalWordIsItsEncoding :=
  ⟨fun _ _ => decode_ok_iff.mp, fun _ _ => decodeSensor_ok_iff.mp⟩

/-- Settles O4: the words run through the decoder. -/
theorem writtenOutWordsDecode : Obligations.WrittenOutWordsDecode := by
  unfold Obligations.WrittenOutWordsDecode
  decide

/-! ## The illegal words (R74, R75) -/

theorem cmdWord_eq_iff (op : BitVec 4) (oss : BitVec 2) (raw : BitVec 19) (w : Word) :
    cmdWord op oss raw = w ↔ w.toNat = op.toNat * 2 ^ 28 + oss.toNat * 2 ^ 24 + raw.toNat := by
  rw [← BitVec.toNat_inj, Laws.cmdWord_toNat, eq_comm]

/-- R83: the words the decoder refuses are those no instruction encodes to. -/
theorem decode_illegal_iff (w : Word) : decode w = .error (.illegalCommand w) ↔ ¬∃ i, encode i = .cmd w := by
  simp only [← decode_ok_iff]
  cases hd : decode w with
  | ok i => simp
  | error e => simp [decodeIn_error _ _ _ hd]

theorem exists_encode_iff_row (w : Word) :
    (∃ i, encode i = .cmd w) ↔ ∃ r ∈ cmdRows, encode (r.build w) = .cmd w := by
  constructor
  · rintro ⟨i, h⟩
    obtain ⟨r, hr, rfl⟩ := exists_build_of_encode h
    exact ⟨r, hr, h⟩
  · rintro ⟨r, _, h⟩
    exact ⟨r.build w, h⟩

/-- R72: the encodings as numbers, by the operand fields they hold: none, OSS, RAW[15:0], or OSS and RAW[18:0]. Each row
gives one equation of the word; they are grouped here by their masks. -/
theorem exists_encode_iff_toNat (w : Word) :
    (∃ i, encode i = .cmd w) ↔
      (∃ op ∈ [1, 2, 3, 4, 5, 10, 11, 12], w.toNat = op * 2 ^ 28) ∨
      (∃ op ∈ [6, 9], w.toNat = op * 2 ^ 28 + w.toNat / 2 ^ 24 % 4 * 2 ^ 24) ∨
      w.toNat = 7 * 2 ^ 28 + w.toNat % 2 ^ 16 ∨
      w.toNat = 8 * 2 ^ 28 + w.toNat / 2 ^ 24 % 4 * 2 ^ 24 + w.toNat % 2 ^ 19 := by
  rw [exists_encode_iff_row]
  simp only [cmdRows, List.mem_cons, List.not_mem_nil, or_false, or_and_right, exists_or, exists_eq_left, encode,
    Encoded.cmd.injEq, cmdWord_eq_iff, BitVec.toNat_setWidth, ossField_toNat, rawTField_toNat, rawPField_toNat,
    BitVec.ofNat_eq_ofNat, BitVec.toNat_ofNat]
  omega

/-! A number with an opcode and given operand fields is one whose every other field is zero. -/

theorem eq_opcode_iff (n op : Nat) :
    n = op * 2 ^ 28 ↔ (n / 2 ^ 26 % 4 = 0 ∧ n / 2 ^ 19 % 32 = 0 ∧ n / 2 ^ 24 % 4 = 0 ∧ n / 2 ^ 16 % 8 = 0 ∧
      n % 2 ^ 16 = 0) ∧ n / 2 ^ 28 = op := by omega

theorem eq_opcode_oss_iff (n op : Nat) :
    n = op * 2 ^ 28 + n / 2 ^ 24 % 4 * 2 ^ 24 ↔ (n / 2 ^ 26 % 4 = 0 ∧ n / 2 ^ 19 % 32 = 0 ∧ n / 2 ^ 16 % 8 = 0 ∧
      n % 2 ^ 16 = 0) ∧ n / 2 ^ 28 = op := by omega

theorem eq_opcode_rawT_iff (n op : Nat) :
    n = op * 2 ^ 28 + n % 2 ^ 16 ↔ (n / 2 ^ 26 % 4 = 0 ∧ n / 2 ^ 19 % 32 = 0 ∧ n / 2 ^ 24 % 4 = 0 ∧
      n / 2 ^ 16 % 8 = 0) ∧ n / 2 ^ 28 = op := by omega

theorem eq_opcode_oss_rawP_iff (n op : Nat) :
    n = op * 2 ^ 28 + n / 2 ^ 24 % 4 * 2 ^ 24 + n % 2 ^ 19 ↔
      (n / 2 ^ 26 % 4 = 0 ∧ n / 2 ^ 19 % 32 = 0) ∧ n / 2 ^ 28 = op := by omega

/-- Settles O3: the complement of the encodings, field by field; from there on a field is just a number. -/
theorem illegalWordsAreReservedOpOrReservedBits : Obligations.IllegalWordsAreReservedOpOrReservedBits := by
  intro w
  rw [decode_illegal_iff, exists_encode_iff_toNat]
  simp only [eq_opcode_iff, eq_opcode_oss_iff, eq_opcode_rawT_iff, eq_opcode_oss_rawP_iff, exists_eq_right_right',
    List.mem_cons, List.not_mem_nil, or_false]
  generalize w.toNat / 2 ^ 28 = op, w.toNat / 2 ^ 26 % 4 = bits27to26, w.toNat / 2 ^ 24 % 4 = oss,
    w.toNat / 2 ^ 19 % 32 = bits23to19, w.toNat / 2 ^ 16 % 8 = rawHigh, w.toNat % 2 ^ 16 = rawLow
  omega

/-! ## The assembler (R77) -/

theorem operandBelow_iff (bound : Nat) (v : Option Nat) : operandBelow bound v = true ↔ ∃ n < bound, v = some n := by
  cases v <;> simp [operandBelow]

/-- The command of a line, its operands cut to their fields. -/
def commandOf (l : AsmLine) : Instr :=
  match l.mnemonic with
  | .init => .init
  | .getId => .getId
  | .hasValidId => .hasValidId
  | .reset => .reset
  | .measureT => .measureT
  | .measureP => .measureP (BitVec.ofNat 2 (operandOr0 l.oss))
  | .compT => .compT (BitVec.ofNat 16 (operandOr0 l.raw))
  | .compP => .compP (BitVec.ofNat 2 (operandOr0 l.oss)) (BitVec.ofNat 19 (operandOr0 l.raw))
  | .setOss => .setOss (BitVec.ofNat 2 (operandOr0 l.oss))
  | .getData => .getData
  | .getAlt => .getAlt
  | .captureRef => .captureRef

theorem hostCommand_commandOf (l : AsmLine) : hostCommand (commandOf l) = true := by
  unfold commandOf
  split <;> rfl

/-- A well-formed line loses nothing as its command: its operands are in range, and it gives no other. -/
theorem lineOf_commandOf {l : AsmLine} (hl : l.wellFormed = true) : lineOf (commandOf l) = l := by
  obtain ⟨m, oss, raw⟩ := l
  cases m <;>
    simp only [AsmLine.wellFormed, operandAbsent, operandBelow_iff, Bool.and_eq_true, Option.isNone_iff_eq_none] at hl
  case measureP | setOss =>
    obtain ⟨⟨n, hn, rfl⟩, rfl⟩ := hl
    simp [commandOf, lineOf, operandOr0, Nat.mod_eq_of_lt hn]
  case compT =>
    obtain ⟨rfl, n, hn, rfl⟩ := hl
    simp [commandOf, lineOf, operandOr0, Nat.mod_eq_of_lt hn]
  case compP =>
    obtain ⟨⟨n, hn, rfl⟩, m, hm, rfl⟩ := hl
    simp [commandOf, lineOf, operandOr0, Nat.mod_eq_of_lt hn, Nat.mod_eq_of_lt hm]
  case init | getId | hasValidId | reset | measureT | getData | getAlt | captureRef =>
    obtain ⟨rfl, rfl⟩ := hl
    rfl

theorem wellFormed_lineOf {i : Instr} (hi : hostCommand i = true) : (lineOf i).wellFormed = true := by
  cases i with
  | trigT | trigP | softReset => cases hi
  | init | getId | hasValidId | reset | measureT | getData | getAlt | captureRef => rfl
  | measureP oss | setOss oss => simp [lineOf, AsmLine.wellFormed, operandAbsent, operandBelow, oss.isLt]
  | compT raw => simp [lineOf, AsmLine.wellFormed, operandAbsent, operandBelow, raw.isLt]
  | compP oss raw => simp [lineOf, AsmLine.wellFormed, operandBelow, oss.isLt, raw.isLt]

theorem wellFormed_iff {l : AsmLine} : l.wellFormed = true ↔ ∃ i, hostCommand i = true ∧ l = lineOf i :=
  ⟨fun hl => ⟨commandOf l, hostCommand_commandOf l, (lineOf_commandOf hl).symm⟩,
    fun ⟨_, hi, hl⟩ => hl ▸ wellFormed_lineOf hi⟩

theorem encode_eq_cmdWord {i : Instr} (hi : hostCommand i = true) :
    encode i = .cmd (cmdWord (lineOf i).mnemonic.opcode (BitVec.ofNat 2 (operandOr0 (lineOf i).oss))
      (BitVec.ofNat 19 (operandOr0 (lineOf i).raw))) := by
  cases i with
  | trigT | trigP | softReset => cases hi
  | init | getId | hasValidId | reset | measureT | getData | getAlt | captureRef => rfl
  | measureP | compT | compP | setOss => simp [lineOf, operandOr0, encode, Mnemonic.opcode]

theorem assemble_lineOf {i : Instr} (hi : hostCommand i = true) (w : Word) :
    assemble (lineOf i) = some w ↔ encode i = .cmd w := by
  rw [assemble, if_pos (wellFormed_lineOf hi), encode_eq_cmdWord hi, Option.some.injEq, Encoded.cmd.injEq]

theorem assemble_iff (l : AsmLine) (w : Word) :
    assemble l = some w ↔ ∃ i, hostCommand i = true ∧ l = lineOf i ∧ encode i = .cmd w := by
  constructor
  · intro h
    have hl : l.wellFormed = true := by
      by_contra hl
      simp [assemble, hl] at h
    obtain ⟨i, hi, rfl⟩ := wellFormed_iff.mp hl
    exact ⟨i, hi, rfl, (assemble_lineOf hi w).mp h⟩
  · rintro ⟨i, hi, rfl, he⟩
    exact (assemble_lineOf hi w).mpr he

theorem operands_lineOf_lt (i : Instr) : (lineOf i).oss.getD 0 < 2 ^ 2 ∧ (lineOf i).raw.getD 0 < 2 ^ 19 := by
  cases i with
  | init | getId | hasValidId | reset | measureT | getData | getAlt | captureRef | trigT | trigP | softReset =>
    exact ⟨Nat.two_pow_pos _, Nat.two_pow_pos _⟩
  | measureP oss | setOss oss => exact ⟨oss.isLt, Nat.two_pow_pos _⟩
  | compT raw => exact ⟨Nat.two_pow_pos _, raw.isLt.trans (by decide)⟩
  | compP oss raw => exact ⟨oss.isLt, raw.isLt⟩

/-- R77: `OP << 28 | oss << 24 | raw` of the line, as a sum. -/
theorem toNat_of_encode {i : Instr} (hi : hostCommand i = true) {w : Word} (h : encode i = .cmd w) :
    w.toNat = (lineOf i).mnemonic.opcode.toNat * 2 ^ 28 + (lineOf i).oss.getD 0 * 2 ^ 24 + (lineOf i).raw.getD 0 := by
  obtain ⟨hoss, hraw⟩ := operands_lineOf_lt i
  rw [encode_eq_cmdWord hi, Encoded.cmd.injEq] at h
  rw [← h, Laws.cmdWord_toNat, BitVec.toNat_ofNat, BitVec.toNat_ofNat, operandOr0, operandOr0, Nat.mod_eq_of_lt hoss,
    Nat.mod_eq_of_lt hraw]

/-- Settles O5: the well-formed lines are the lines of the commands, and their words are the commands' encodings. -/
theorem assemblerEmitsOnlyLegalWords : Obligations.AssemblerEmitsOnlyLegalWords := by
  refine fun l w => ⟨assemble_iff l w, fun h => ?_⟩
  obtain ⟨i, hi, rfl, he⟩ := (assemble_iff l w).mp h
  exact ⟨toNat_of_encode hi he, i, decode_ok_iff.mpr he⟩

end Sys2Proof.Proofs
end

section
/-! PROOFS. The response a host command puts on the port (30_encoding.md R78, 60_exceptions.md R250, R251): the values of a
completion, and the exceptions each command can raise. -/

open Sys2Proof Sys2Proof.Machine Sys2Proof.Claims

namespace Sys2Proof.Proofs

/-! ## The exceptions of each command (R251) -/

theorem failShape_excInfo (e : Exc) : failShape (excStatus e) (excInfo e) none := by
  refine ⟨rfl, ?_⟩
  cases e with
  | identityMismatch id => cases id with
    | none => exact .inl rfl
    | some id => exact .inr ⟨id, rfl⟩
  | noReferencePressure | sequenceViolation | notInitialized => rfl
  | busError | computationOverflow | divideByZero | illegalCommand | numericDomain => exact ⟨_, rfl⟩

theorem mayRaise_of_gateOf {i : Instr} {g : Engine} {e : Exc} (h : gateOf i g = some e) (v : Variant) :
    mayRaise i v (excStatus e) := by
  cases i with
  | measureT | measureP => obtain rfl := gateIdentity_some h; exact .inr rfl
  | compP => obtain rfl | rfl | rfl := gatePressure_some h <;> simp [mayRaise, excStatus]
  | compT | getData | captureRef => obtain rfl | rfl := gateCalibrated_some h <;> simp [mayRaise, excStatus]
  | getAlt => obtain rfl := gateReference_some h; exact .inl rfl
  | init | getId | hasValidId | reset | setOss | trigT | trigP | softReset => cases h

/-- The datapath's share of R251's column "raised by". -/
def DatapathStatus (v : Variant) (st : Status) : Prop :=
  (v = .int ∧ (st = .computationOverflow ∨ st = .divideByZero)) ∨ (v = .fp ∧ st = .numericDomain)

theorem datapathStatus_of_isIntExc {e : Exc} {v : Variant} (hv : v = .int) (h : IsIntExc e) :
    DatapathStatus v (excStatus e) := by
  obtain ⟨st, rfl⟩ | ⟨st, rfl⟩ := h
  · exact .inl ⟨hv, .inl rfl⟩
  · exact .inl ⟨hv, .inr rfl⟩

theorem datapathStatus_of_numericDomain {e : Exc} {v : Variant} (hv : v = .fp) (h : ∃ st, e = .numericDomain st) :
    DatapathStatus v (excStatus e) := by
  obtain ⟨st, rfl⟩ := h
  exact .inr ⟨hv, rfl⟩

theorem excStatus_of_busError {e : Exc} (h : ∃ d r, e = .busError d r) : excStatus e = .busError := by
  obtain ⟨d, r, rfl⟩ := h
  rfl

theorem mayRaise_of_raisedBy {i : Instr} {s : State} {e : Exc} (h : RaisedBy i s e) :
    mayRaise i s.cfg.variant (excStatus e) := by
  cases i with
  | init =>
    obtain hb | ⟨id, rfl, _⟩ := h
    · exact .inl (excStatus_of_busError hb)
    · exact .inr rfl
  | getId | hasValidId | reset => exact excStatus_of_busError h
  | measureT | measureP => exact .inl (excStatus_of_busError h)
  | compT =>
    refine .inr (.inr ?_)
    obtain ⟨hv, c, _, hx⟩ | ⟨hv, k, _, hx⟩ := h
    · exact datapathStatus_of_isIntExc hv (tcompInt_error hx)
    · exact datapathStatus_of_numericDomain hv (tcompFp_error hx)
  | compP =>
    refine .inr (.inr (.inr ?_))
    obtain ⟨hv, b5, c, _, _, hx⟩ | ⟨hv, tc, k, _, _, hx⟩ := h
    · exact datapathStatus_of_isIntExc hv (pcompInt_error hx)
    · exact datapathStatus_of_numericDomain hv (pcompFp_error hx)
  | getData | captureRef =>
    obtain hb | hd := h
    · exact .inl (excStatus_of_busError hb)
    · refine .inr (.inr (.inr ?_))
      obtain ⟨hv, c, _, ⟨_, hx⟩ | ⟨_, _, _, hx⟩⟩ | ⟨hv, k, _, ⟨_, hx⟩ | ⟨_, _, _, hx⟩⟩ := hd
      · exact datapathStatus_of_isIntExc hv (tcompInt_error hx)
      · exact datapathStatus_of_isIntExc hv (pcompInt_error hx)
      · exact datapathStatus_of_numericDomain hv (tcompFp_error hx)
      · exact datapathStatus_of_numericDomain hv (pcompFp_error hx)
  | getAlt =>
    obtain ⟨p, r, _, _, hx⟩ := h
    obtain ⟨st, rfl⟩ := altitude_error hx
    exact .inr rfl
  | setOss | trigT | trigP | softReset => exact h

/-! ## The values of a completion (R78) -/

/-- A quantity of the variant's type is answered at the type R78 gives it. -/
theorem isQuantity_of_hasVariant {q : Quantity} {v : Variant} (h : q.hasVariant v = true) :
    isQuantity v (some (quantityValue q)) := by
  match v, q, h with
  | .int, .int w, _ | .fp, .fp w, _ => exact ⟨w, rfl⟩

theorem cycleDone_hasVariant {s : State} {q p : Quantity} {g : Engine} (h : CycleDone s q p g) :
    q.hasVariant s.cfg.variant = true ∧ p.hasVariant s.cfg.variant = true := by
  obtain ⟨bt, s1, g1, bp, s3, hc1, _, ht, hc3, _, hp⟩ := h
  exact ⟨hc1 ▸ tempDone_hasVariant ht, hc3 ▸ pressDone_hasVariant hp⟩

theorem okShape_of_opDone {i : Instr} {s : State} {g : Engine} {v0 v1 : Option Value} (h : OpDone i s g v0 v1) :
    okShape i s.cfg.variant v0 v1 := by
  cases i with
  | init => obtain ⟨h0, h1, _⟩ := h; exact ⟨h0, h1⟩
  | reset | setOss => exact h.2
  | getId | hasValidId | measureT | measureP => obtain ⟨_, h1, _, h0⟩ := h; exact ⟨⟨_, h0⟩, h1⟩
  | getAlt => obtain ⟨_, h1, _, _, a, _, _, _, h0⟩ := h; exact ⟨⟨a, h0⟩, h1⟩
  | compT => obtain ⟨h1, q, rfl, hq⟩ := h; exact ⟨isQuantity_of_hasVariant (tempDone_hasVariant hq), h1⟩
  | compP => obtain ⟨h1, q, rfl, hq⟩ := h; exact ⟨isQuantity_of_hasVariant (pressDone_hasVariant hq), h1⟩
  | getData | captureRef =>
    obtain ⟨q, p, g1, rfl, rfl, hc, _⟩ := h
    obtain ⟨hq, hp⟩ := cycleDone_hasVariant hc
    exact ⟨isQuantity_of_hasVariant hq, isQuantity_of_hasVariant hp⟩
  | trigT | trigP | softReset => exact h

/-! ## One response per command (R70, R78, R250) -/

/-- `t` is `s` with one response added, of a shape that R78 and R251 allow the operation. -/
def AnswersOnce (i : Instr) (s t : State) : Prop :=
  t.port.cmds = s.port.cmds ∧ t.cfg = s.cfg ∧ t.bus.pending = s.bus.pending ∧
  ∃ r : Response, t.port.responses = s.port.responses ++ [r] ∧
    ((r.status = .ok ∧ okShape i s.cfg.variant r.v0 r.v1) ∨
     (r.status ≠ .ok ∧ failShape r.status r.v0 r.v1 ∧ mayRaise i s.cfg.variant r.status))

theorem answersOnce_respond {i : Instr} {s u : State} {v0 v1 : Option Value} (hb : BusRun true s u)
    (h : okShape i s.cfg.variant v0 v1) : AnswersOnce i s (respond v0 v1 u) :=
  ⟨by rw [respond_cmds, hb.port], hb.cfg, hb.pending, _, by rw [respond_responses, hb.port], .inl ⟨rfl, h⟩⟩

theorem answersOnce_raiseExc {i : Instr} {s u : State} {e : Exc} (hb : BusRun false s u)
    (h : mayRaise i s.cfg.variant (excStatus e)) : AnswersOnce i s (raiseExc e u) :=
  ⟨by rw [raiseExc_cmds, hb.port], hb.cfg, hb.pending, _, by rw [raiseExc_responses, hb.port],
    .inr ⟨excStatus_ne_ok e, failShape_excInfo e, h⟩⟩

/-- Settles O52: a refusal and a raise answer an exception the operation may raise, a completion its own values. -/
theorem oneResponsePerCommand : Obligations.OneResponsePerCommand := by
  intro i s t hi h
  rw [hostCommand_eq_isCommand] at hi
  cases exec_next hi h with
  | refused e hg ht => subst ht; exact answersOnce_raiseExc (busRun_refl false s) (mayRaise_of_gateOf hg _)
  | raised e u hg hb he ht => subst ht; exact answersOnce_raiseExc (busRun_withEng _ hb) (mayRaise_of_raisedBy he)
  | done v0 v1 u hg hb hd ht => subst ht; exact answersOnce_respond hb (okShape_of_opDone hd)

end Sys2Proof.Proofs
end

section
/-! PROOFS. The session operations (40_calibration.md R100 to R107): the state that listed answers leave after the identity
read, the calibration reads and the soft reset, and the responses built on it. -/

open Sys2Proof Sys2Proof.Machine Sys2Proof.Claims

namespace Sys2Proof.Proofs

/-! ## The state between the first transaction and the response -/

/-- The state an operation of `s` has reached before it answers: `after` without its response. So `conclude` of it is an
`after` by evaluation, which is what the `rfl` at the end of each proof below checks. -/
def transacted (s : State) (g : Engine) (evs : List BusEvent) (left : List BusAnswer) (conv : Option Conversion) :
    State :=
  { s with
    eng := g
    bus := { s.bus with answers := left, trace := s.bus.trace ++ evs, conv := conv } }

theorem transacted_transacted (s : State) (g g' : Engine) (evs evs' : List BusEvent) (left left' : List BusAnswer)
    (conv conv' : Option Conversion) :
    transacted (transacted s g evs left conv) g' evs' left' conv' = transacted s g' (evs ++ evs') left' conv' := by
  simp only [transacted, List.append_assoc]

/-- With no transaction the state is the one before. -/
theorem transacted_nil (s : State) : transacted s s.eng [] s.bus.answers s.bus.conv = s := by
  simp only [transacted, List.append_nil]

/-- Steps that completed hand their result on. -/
theorem txBind_completed {α β : Type} (a : α) (s : State) (f : α → State → Tx β) :
    txBind (.ok a, s) f = f a s := rfl

theorem txBind_assoc {α β γ : Type} (x : Tx α) (f : α → State → Tx β) (k : β → State → Tx γ) :
    txBind (txBind x f) k = txBind x fun a s => txBind (f a s) k := by
  obtain ⟨r, s⟩ := x
  cases r <;> rfl

/-- Steps that only pass the result on change nothing. -/
theorem txBind_pure {α : Type} (x : Tx α) : (txBind x fun a s => (.ok a, s)) = x := by
  obtain ⟨r, s⟩ := x
  cases r <;> rfl

/-! ## Reads and the soft reset, by the answer listed (R11, R58) -/

theorem busRead_completed (reg : Byte) (n : Nat) {s : State} {b : Byte × Byte × Byte} {left : List BusAnswer}
    (h : s.bus.answers = done b :: left) :
    busRead reg n s = (.ok ([b.1, b.2.1, b.2.2].take n),
      transacted s s.eng [rd s reg n (some ([b.1, b.2.1, b.2.2].take n))] left s.bus.conv) :=
  busRead_done reg n s _ _ _ left h

theorem busRead_failed (reg : Byte) (n : Nat) {s : State} {left : List BusAnswer} (h : s.bus.answers = .fail :: left) :
    busRead reg n s = (.error (.busError .read reg), transacted s s.eng [rd s reg n none] left s.bus.conv) :=
  busRead_fail reg n s left h

theorem softReset_completed {s : State} {b : Byte × Byte × Byte} {left : List BusAnswer}
    (h : s.bus.answers = done b :: left) :
    busWrite .softReset s = (.ok (), transacted s s.eng [wr s 0xE0 0xB6 true] left none) :=
  busWrite_done .softReset s _ _ _ left h

theorem softReset_failed {s : State} {left : List BusAnswer} (h : s.bus.answers = .fail :: left) :
    busWrite .softReset s =
      (.error (.busError .write 0xE0), transacted s s.eng [wr s 0xE0 0xB6 false] left s.bus.conv) :=
  busWrite_fail .softReset s left h

/-! ## The identity read (R102) -/

theorem ident_done {s : State} {b : Byte × Byte × Byte} {left : List BusAnswer} (h : s.bus.answers = done b :: left) :
    ident s = (.ok b.1, transacted s s.eng [rd s 0xD0 1 (some [b.1])] left s.bus.conv) := by
  rw [ident, busRead_completed 0xD0 1 h]
  rfl

theorem ident_fail {s : State} {left : List BusAnswer} (h : s.bus.answers = .fail :: left) :
    ident s = (.error (.busError .read 0xD0), transacted s s.eng [rd s 0xD0 1 none] left s.bus.conv) := by
  rw [ident, busRead_failed 0xD0 1 h]
  rfl

theorem validId_iff (id : Byte) : validId id = true ↔ id = 0x55 := beq_iff_eq

/-- Settles O8: the identity byte, or the failure of its read, is the answer. -/
theorem getIdAnswersTheByteRead : Obligations.GetIdAnswersTheByteRead := by
  refine ⟨rfl, fun s left => ⟨fun b h => ?_, fun h => ?_⟩⟩
  · rw [exec, execGetId, ident_done h]
    rfl
  · rw [exec, execGetId, ident_fail h]
    rfl

/-- Settles O9: a byte is a valid identity if and only if it is 0x55. -/
theorem hasValidIdComparesWith0x55 : Obligations.HasValidIdComparesWith0x55 := by
  refine ⟨rfl, fun s left => ⟨fun b h => ?_, fun h => ?_⟩⟩
  · simp only [exec, execHasValidId, ident_done h, validId_iff]
    rfl
  · rw [exec, execHasValidId, ident_fail h]
    rfl

/-! ## The calibration reads (R101) -/

/-- R21: the sensor address of the calibration word with index `k`. -/
def calAddr (k : Nat) : Byte := BitVec.ofNat 8 (0xAA + 2 * k)

theorem calAddrs_eq_map_calAddr : calAddrs = (List.range' 0 11).map calAddr := by decide

/-- The eleven addresses, cut at index `k`. -/
theorem calAddrs_split {k : Nat} (hk : k ≤ 11) :
    calAddrs = (List.range' 0 k).map calAddr ++ (List.range' k (11 - k)).map calAddr := by
  have hcut : List.range' 0 k ++ List.range' k (11 - k) = List.range' 0 11 := by
    have happend := List.range'_append_1 (s := 0) (m := k) (n := 11 - k)
    rwa [Nat.zero_add, Nat.add_sub_cancel' hk] at happend
  rw [calAddrs_eq_map_calAddr, ← hcut, List.map_append]

/-- The events of the calibration reads depend on the device address alone. -/
theorem calEvents_transacted (s : State) (g : Engine) (evs : List BusEvent) (left : List BusAnswer)
    (conv : Option Conversion) (k : Nat) (bs : List (Byte × Byte × Byte)) :
    calEvents (transacted s g evs left conv) k bs = calEvents s k bs := by
  induction bs generalizing k with
  | nil => rfl
  | cons b bs ih => rw [calEvents, calEvents, ih]; rfl

/-- With the reads of `bs` completed from index `k` on, the loop goes on with the addresses that are left.
One induction serves both ends of the loop: no address left, and a read that fails. -/
theorem loadWords_done (bs : List (Byte × Byte × Byte)) (k : Nat) (rest : List Byte) (s : State)
    (left : List BusAnswer) (h : s.bus.answers = bs.map done ++ left) :
    loadWords ((List.range' k bs.length).map calAddr ++ rest) s =
      txBind (loadWords rest (transacted s s.eng (calEvents s k bs) left s.bus.conv)) fun ws t =>
        (.ok (bs.map (fun b => b.1 ++ b.2.1) ++ ws), t) := by
  induction bs generalizing k s with
  | nil =>
    obtain rfl : s.bus.answers = left := h
    rw [calEvents, transacted_nil]
    exact (txBind_pure (loadWords rest s)).symm
  | cons b bs ih =>
    rw [List.length_cons, List.range'_succ, List.map_cons, List.cons_append, loadWords,
      busRead_completed (calAddr k) 2 h, txBind_completed, ih (k + 1) _ rfl, txBind_assoc, calEvents_transacted,
      transacted_transacted]
    rfl

/-- R100: eleven words fill CAL in the order of R21. -/
theorem calEntries_calOfWords {w : List Half} (h : w.length = 11) : calEntries (calOfWords w) = w :=
  match w, h with
  | [_, _, _, _, _, _, _, _, _, _, _], _ => rfl

theorem loadCal_done {bs : List (Byte × Byte × Byte)} {s : State} {left : List BusAnswer} (hlen : bs.length = 11)
    (h : s.bus.answers = bs.map done ++ left) :
    loadCal s = (.ok (calOfWords (bs.map fun b => b.1 ++ b.2.1)),
      transacted s s.eng (calEvents s 0 bs) left s.bus.conv) := by
  have hloop := loadWords_done bs 0 [] s left h
  rw [List.append_nil, hlen, ← calAddrs_eq_map_calAddr] at hloop
  rw [loadCal, hloop, loadWords, txBind_completed, txBind_completed, List.append_nil]

theorem loadCal_fail {bs : List (Byte × Byte × Byte)} {s : State} {left : List BusAnswer} (hlen : bs.length < 11)
    (h : s.bus.answers = bs.map done ++ .fail :: left) :
    loadCal s = (.error (.busError .read (calAddr bs.length)),
      transacted s s.eng (calEvents s 0 bs ++ [rd s (calAddr bs.length) 2 none]) left s.bus.conv) := by
  obtain ⟨n, hn⟩ : ∃ n, 11 - bs.length = n + 1 := Nat.exists_eq_succ_of_ne_zero (by omega)
  rw [loadCal, calAddrs_split hlen.le, loadWords_done bs 0 _ s _ h, hn, List.range'_succ, List.map_cons, loadWords,
    busRead_failed _ 2 rfl, transacted_transacted]
  rfl

/-! ## INIT (R100) -/

/-- With the identity 0x55, INIT is at its calibration reads, its step 1 done. -/
theorem initSteps_of_valid {s : State} {id : Byte × Byte × Byte} {left : List BusAnswer} (hid : id.1 = 0x55)
    (h : s.bus.answers = done id :: left) :
    initSteps s =
      txBind (loadCal (transacted s (beginSession s.eng) [rd s 0xD0 1 (some [0x55])] left s.bus.conv)) fun c t =>
        (.ok (none, none), { t with eng := commitCal t.cfg.variant c t.eng }) := by
  rw [initSteps, ident_done (s := { s with eng := beginSession s.eng }) h, hid]
  rfl

/-- R100, R103: INIT's commit over its step 1. -/
theorem commitCal_beginSession (v : Variant) (c : Cal) (g : Engine) :
    commitCal v c (beginSession g) =
      { sessionEnded g .ready with
        cal := some c
        dc := if v = .fp then some (deriveFn c) else g.dc } := by
  cases v <;> rfl

/-- Settles O10: CAL is made of the eleven words of the loop, and the commit is the last step. -/
theorem initLoadsTheCalibrationRead : Obligations.InitLoadsTheCalibrationRead := by
  intro s id bs left hlen hid h
  refine ⟨calOfWords (bs.map fun b => b.1 ++ b.2.1), calEntries_calOfWords (by rw [List.length_map, hlen]), ?_⟩
  rw [← commitCal_beginSession, exec, execInit, initSteps_of_valid hid h, loadCal_done hlen rfl, calEvents_transacted,
    transacted_transacted]
  rfl

/-- R251: the info of a failed calibration read holds its address, which fits a byte. -/
theorem busInfo_calAddr {k : Nat} (hk : k < 11) : busInfo .read (calAddr k) = BitVec.ofNat 16 (0xAA + 2 * k) := by
  apply BitVec.eq_of_toNat_eq
  simp only [busInfo, calAddr, BitVec.toNat_setWidth, BitVec.toNat_ofNat]
  omega

/-- Settles O12: the loop ends at the read that fails, and the abort writes are INIT's step 1. -/
theorem initFailedReadLeavesUninit : Obligations.InitFailedReadLeavesUninit := by
  intro s id bs left hlen hid h
  dsimp only
  rw [← busInfo_calAddr hlen, exec, execInit, initSteps_of_valid hid h, loadCal_fail hlen rfl, calEvents_transacted,
    transacted_transacted]
  rfl

/-- Settles O11: INIT stops at its identity byte or at the failure of its read. -/
theorem initStopsOnAForeignIdentity : Obligations.InitStopsOnAForeignIdentity := by
  refine fun s left => ⟨fun id hid h => ?_, fun h => ?_⟩
  · have hforeign : ¬validId id.1 = true := mt (validId_iff id.1).mp hid
    rw [exec, execInit, initSteps, ident_done (s := { s with eng := beginSession s.eng }) h, txBind_completed,
      if_neg hforeign]
    rfl
  · rw [exec, execInit, initSteps, ident_fail (s := { s with eng := beginSession s.eng }) h]
    rfl

/-! ## RESET (R107) -/

/-- Settles O13: the registers are written before the soft reset, and again by the abort of a failed one. -/
theorem resetEndsTheSession : Obligations.ResetEndsTheSession := by
  refine ⟨rfl, fun s left => ⟨fun b h => ?_, fun h => ?_⟩⟩
  · rw [exec, execReset, softReset_completed (s := { s with eng := endSession s.eng }) h]
    rfl
  · rw [exec, execReset, softReset_failed (s := { s with eng := endSession s.eng }) h]
    rfl

end Sys2Proof.Proofs
end

section
/-! PROOFS. The integer compensation (41_int_compensation.md): the checks R8 and R9 put between its operations, the temperature
step (R131), and the parts of the pressure step (R133 to R137). A closed form comes from bounds on the operands: a check that
their widths settle passes, and those that remain are the raises a statement lists. -/

open Sys2Proof Sys2Proof.Machine Sys2Proof.Claims

namespace Sys2Proof.Proofs

/-! ## Checks in sequence (R8, R9) -/

theorem ok_bind {α β : Type} (a : α) (f : α → Except Exc β) : ((.ok a : Except Exc α) >>= f) = f a := rfl

theorem error_bind {α β : Type} (e : Exc) (f : α → Except Exc β) : ((.error e : Except Exc α) >>= f) = .error e := rfl

theorem bind_eq_error_iff {α β : Type} {x : Except Exc α} {f : α → Except Exc β} {e : Exc} :
    (x >>= f) = .error e ↔ x = .error e ∨ ∃ a, x = .ok a ∧ f a = .error e := by
  cases x with
  | ok a => simp [ok_bind]
  | error e' => simp [error_bind]

theorem chkS32_of_not_inS32 {v : Int} (h : ¬inS32 v) (st : Stage) : chkS32 v st = .error (.computationOverflow st) :=
  if_neg h

theorem chkU32_of_neg {v : Int} (h : v < 0) (st : Stage) : chkU32 v st = .error (.computationOverflow st) :=
  if_neg (by omega)

theorem chkU32_of_gt {v : Int} (h : 4294967295 < v) (st : Stage) : chkU32 v st = .error (.computationOverflow st) :=
  if_neg (by omega)

theorem tdivChk_zero (a : Int) (st : Stage) : tdivChk a 0 st = .error (.divideByZero st) := if_pos rfl

theorem tdivChk_of_ne_zero (a : Int) {b : Int} (h : b ≠ 0) (st : Stage) : tdivChk a b st = .ok (a.tdiv b) := if_neg h

theorem udivChk_of_ne_zero (a : Int) {b : Int} (h : b ≠ 0) (st : Stage) : udivChk a b st = .ok (a / b) := if_neg h

/-! ### The stage a check names -/

theorem chkS32_eq_error_iff {v : Int} {st : Stage} {e : Exc} :
    chkS32 v st = .error e ↔ ¬inS32 v ∧ e = .computationOverflow st := by
  unfold chkS32 inS32
  split <;> simp_all [eq_comm]

theorem chkU32_eq_error_iff {v : Int} {st : Stage} {e : Exc} :
    chkU32 v st = .error e ↔ ¬(0 ≤ v ∧ v ≤ 4294967295) ∧ e = .computationOverflow st := by
  unfold chkU32
  split <;> simp_all [eq_comm]

theorem udivChk_eq_error_iff {a b : Int} {st : Stage} {e : Exc} :
    udivChk a b st = .error e ↔ b = 0 ∧ e = .divideByZero st := by
  unfold udivChk
  split <;> simp_all [eq_comm]

/-! ## Bounds of the operands (R22) -/

/-- Symmetric, as `mul_bounds` takes it. -/
theorem sext16_bounds (b : Half) : -32768 ≤ sext16 b ∧ sext16 b ≤ 32768 := ⟨b.le_toInt, b.toInt_lt.le⟩

theorem zext16_bounds (b : Half) : 0 ≤ zext16 b ∧ zext16 b ≤ 65535 := by
  have := b.isLt
  unfold zext16
  omega

theorem mul_bounds {a b m n : Int} (ha : -m ≤ a ∧ a ≤ m) (hb : -n ≤ b ∧ b ≤ n) : -(m * n) ≤ a * b ∧ a * b ≤ m * n := by
  rw [← abs_le] at *
  rw [abs_mul]
  exact mul_le_mul ha hb (abs_nonneg b) ((abs_nonneg a).trans ha)

theorem sq_lower_bound {m v : Int} (hm : 0 ≤ m) (h : v ≤ -m ∨ m ≤ v) : m * m ≤ v * v :=
  (mul_self_le_mul_self hm (le_abs'.mpr h)).trans_eq (abs_mul_abs_self v)

theorem tdiv_bounds {a n : Int} (ha : -n ≤ a ∧ a ≤ n) (b : Int) : -n ≤ a.tdiv b ∧ a.tdiv b ≤ n := by
  have := Int.natAbs_tdiv_le_natAbs a b
  omega

theorem s32Of_toInt {v : Int} (h : inS32 v) : (s32Of v).toInt = v :=
  BitVec.toInt_ofInt_eq_self (by decide) h.1 (Int.lt_add_one_of_le h.2)

/-! ## The temperature step (R131) -/

/-- Settles O19: the widths of the operands settle every check but that of `m`, and only `X2` divides. -/
theorem intTemperatureClosedForm : Obligations.IntTemperatureClosedForm := by
  intro c rawT m x1 x2
  have hraw := rawT.isLt
  have hAC6 : 0 ≤ valAC6 c ∧ valAC6 c ≤ 65535 := zext16_bounds c.ac6
  have hMC : -32768 ≤ valMC c ∧ valMC c ≤ 32768 := sext16_bounds c.mc
  have hMD : -32768 ≤ valMD c ∧ valMD c ≤ 32768 := sext16_bounds c.md
  have hx1 : x1 = m / 2 ^ 15 := Int.fdiv_eq_ediv_of_nonneg m (by decide)
  have hx2 : -2 ^ 26 ≤ x2 ∧ x2 ≤ 2 ^ 26 := tdiv_bounds (by omega) _
  have ht : Int.fdiv (x1 + x2 + 8) 16 = (x1 + x2 + 8) / 2 ^ 4 := Int.fdiv_eq_ediv_of_nonneg _ (by decide)
  rw [tcompInt, chkS32_of_le _ .tD (by omega) (by omega), ok_bind]
  refine ⟨fun hm => ?_, fun ⟨hlo, hhi⟩ h0 => ?_, fun ⟨hlo, hhi⟩ h0 => ?_⟩
  · rw [chkS32_of_not_inS32 hm, error_bind]
  · simp (disch := omega) only [chkS32_of_le, ok_bind, shiftR]
    rw [← hx1, h0, tdivChk_zero, error_bind]
  · simp (disch := omega) only [chkS32_of_le, ok_bind, shiftR]
    rw [← hx1, tdivChk_of_ne_zero _ h0]
    simp (disch := omega) only [chkS32_of_le, ok_bind, ht]
    rfl

theorem tcompInt_ok {c : Cal} {rawT : BitVec 16} {b5 t : Int} (h : tcompInt c rawT = .ok (b5, t)) :
    -(2 ^ 26 + 2 ^ 16) ≤ b5 ∧ b5 ≤ 2 ^ 26 + 2 ^ 16 ∧ t = (b5 + 8) / 16 := by
  obtain ⟨hM, hX2, hok⟩ := intTemperatureClosedForm c rawT
  generalize ((rawT.toNat : Int) - valAC6 c) * valAC5 c = m at *
  by_cases hm : inS32 m
  · by_cases h0 : Int.fdiv m (2 ^ 15) + valMD c = 0
    · cases h.symm.trans (hX2 hm h0)
    · have hval := h.symm.trans (hok hm h0)
      have hMC : -32768 ≤ valMC c ∧ valMC c ≤ 32768 := sext16_bounds c.mc
      have hx2 := tdiv_bounds (n := 2 ^ 26) (a := valMC c * 2 ^ 11) (by omega) (Int.fdiv m (2 ^ 15) + valMD c)
      have hdiv : ∀ {a b : Int}, 0 ≤ b → a.fdiv b = a / b := Int.fdiv_eq_ediv_of_nonneg _
      simp (disch := omega) only [hdiv, Except.ok.injEq, Prod.mk.injEq] at hval hx2
      obtain ⟨hlo, hhi⟩ := hm
      omega
  · cases h.symm.trans (hM hm)

/-! ## `P.B6` is the first check's stage alone (R133) -/

theorem partB3_ne_pB6 (c : Cal) (b6 q : Int) (oss : BitVec 2) :
    partB3 c b6 q oss ≠ .error (.computationOverflow .pB6) := by
  simp [partB3, bind_eq_error_iff, chkS32_eq_error_iff, pure, Except.pure]

theorem partB4_ne_pB6 (c : Cal) (b6 q : Int) : partB4 c b6 q ≠ .error (.computationOverflow .pB6) := by
  simp [partB4, bind_eq_error_iff, chkS32_eq_error_iff, chkU32_eq_error_iff, pure, Except.pure]

theorem partDiv_ne_pB6 (raw : BitVec 19) (oss : BitVec 2) (b3 b4 : Int) :
    partDiv raw oss b3 b4 ≠ .error (.computationOverflow .pB6) := by
  simp [partDiv, partQuot, bind_eq_error_iff, chkS32_eq_error_iff, chkU32_eq_error_iff, udivChk_eq_error_iff, ite_eq_iff]

theorem partFinal_ne_pB6 (p : Int) : partFinal p ≠ .error (.computationOverflow .pB6) := by
  simp [partFinal, bind_eq_error_iff, chkS32_eq_error_iff]

theorem pcompInt_eq_error_pB6_iff (c : Cal) (b5 : Int) (raw : BitVec 19) (oss : BitVec 2) :
    pcompInt c b5 raw oss = .error (.computationOverflow .pB6) ↔ ¬inS32 (b5 - 4000) := by
  simp [pcompInt, bind_eq_error_iff, chkS32_eq_error_iff, partB3_ne_pB6, partB4_ne_pB6, partDiv_ne_pB6,
    partFinal_ne_pB6]

/-- Settles O20: X1 reaches 2^16 and X2 reaches 2^26, far from the ends of s32. -/
theorem intB5StaysWithinBounds : Obligations.IntB5StaysWithinBounds := by
  intro c rawT b5 t h
  obtain ⟨hlo, hhi, rfl⟩ := tcompInt_ok h
  have hb5 : inS32 b5 := ⟨by omega, by omega⟩
  have ht : inS32 ((b5 + 8) / 16) := ⟨by omega, by omega⟩
  refine ⟨hlo, hhi, s32Of_toInt hb5, s32Of_toInt ht, fun rawP oss => ?_⟩
  rw [Ne, pcompInt_eq_error_pB6_iff, not_not]
  exact ⟨by omega, by omega⟩

/-! ## The parts of the pressure step (R134 to R137) -/

/-- Settles O21: AC2 × B6 fits and the later sums stay small, so only B2 × q is left to check. -/
theorem intB3ClosedForm : Obligations.IntB3ClosedForm := by
  intro c b6 oss hlo hhi q x1 x2
  have hAC1 : -32768 ≤ valAC1 c ∧ valAC1 c ≤ 32768 := sext16_bounds c.ac1
  have hAC2 := mul_bounds (a := valAC2 c) (sext16_bounds c.ac2) ⟨hlo, hhi⟩
  have hx1 : x1 = valB2 c * q / 2 ^ 11 := Int.fdiv_eq_ediv_of_nonneg _ (by decide)
  have hx2 : x2 = valAC2 c * b6 / 2 ^ 11 := Int.fdiv_eq_ediv_of_nonneg _ (by decide)
  have hfdiv : ∀ v : Int, Int.fdiv v (2 ^ 2) = v / 2 ^ 2 := fun v => Int.fdiv_eq_ediv_of_nonneg v (by decide)
  refine ⟨fun hx => ?_, fun ⟨h1, h2⟩ => ?_⟩
  · rw [partB3, chkS32_of_not_inS32 hx, error_bind]
  · have hsum : -2 ^ 22 ≤ valAC1 c * 4 + (x1 + x2) ∧ valAC1 c * 4 + (x1 + x2) ≤ 2 ^ 22 := by omega
    have hpow : -8 ≤ (2 ^ oss.toNat : Int) ∧ (2 ^ oss.toNat : Int) ≤ 8 := by revert oss; decide
    have hshift := mul_bounds hsum hpow
    simp (disch := omega) only [partB3, chkS32_of_le, ok_bind, shiftR, ← hx1, ← hx2, hfdiv]
    rfl

/-- Settles O22: AC3 × B6 fits, and past B1 × q only the checks of `u` and of AC4 × `u` are open. -/
theorem intB4ClosedForm : Obligations.IntB4ClosedForm := by
  intro c b6 hlo hhi q x1 x2 u
  have hAC3 := mul_bounds (a := valAC3 c) (sext16_bounds c.ac3) ⟨hlo, hhi⟩
  have hAC4 : 0 ≤ valAC4 c ∧ valAC4 c ≤ 65535 := zext16_bounds c.ac4
  have hx1 : x1 = valAC3 c * b6 / 2 ^ 13 := Int.fdiv_eq_ediv_of_nonneg _ (by decide)
  have hx2 : x2 = valB1 c * q / 2 ^ 16 := Int.fdiv_eq_ediv_of_nonneg _ (by decide)
  have hu : u = (x1 + x2 + 2) / 2 ^ 2 + 32768 := congrArg (· + 32768) (Int.fdiv_eq_ediv_of_nonneg _ (by decide))
  have hb4 : Int.fdiv (valAC4 c * u) (2 ^ 15) = valAC4 c * u / 2 ^ 15 := Int.fdiv_eq_ediv_of_nonneg _ (by decide)
  have hule : inS32 (valB1 c * q) → u ≤ 4294967295 := fun ⟨h1, h2⟩ => by omega
  have hopen : inS32 (valB1 c * q) → partB4 c b6 q =
      chkU32 u .pB4a >>= fun u => chkU32 (valAC4 c * u) .pB4b >>= fun b4 => .ok (b4 / 2 ^ 15) := fun ⟨h1, h2⟩ => by
    simp (disch := omega) only [partB4, chkS32_of_le, ok_bind, shiftR, ← hx1, ← hx2, ← hu]
    rfl
  refine ⟨fun hx => ?_, fun hx hneg => ?_, fun hx hpos hgt => ?_, fun hx hpos hle => ?_⟩
  · rw [partB4, chkS32_of_le _ .pX1b (by omega) (by omega), ok_bind, chkS32_of_not_inS32 hx, error_bind]
  · rw [hopen hx, chkU32_of_neg hneg, error_bind]
  · rw [hopen hx, chkU32_of_le _ _ hpos (hule hx), ok_bind, chkU32_of_gt hgt, error_bind]
  · rw [hopen hx, chkU32_of_le _ _ hpos (hule hx), ok_bind, chkU32_of_le _ _ (mul_nonneg hAC4.1 hpos) hle, ok_bind, hb4]

theorem shiftR_50000 (oss : BitVec 2) :
    shiftR 50000 oss.toNat = if oss = 0 then 50000 else if oss = 1 then 25000 else if oss = 2 then 12500 else 6250 := by
  revert oss
  decide

theorem partQuot_of_one {b7 : Int} (h : 0x80000000 ≤ b7) : partQuot b7 1 = .error (.computationOverflow .pPb) := by
  rw [partQuot, if_neg (by omega), udivChk_of_ne_zero _ (by decide), ok_bind, chkU32_of_gt (by omega)]

/-- R136: the second arm divides by 2 or more, so its quotient lies below 2^31 and twice it fits u32. -/
theorem partQuot_ok {b7 b4 : Int} (h0 : 0 ≤ b7) (h1 : b7 ≤ 4294967295) (hb4 : 1 ≤ b4)
    (hone : b4 = 1 → b7 < 0x80000000) :
    partQuot b7 b4 = .ok (if b7 < 0x80000000 then b7 * 2 / b4 else b7 / b4 * 2) := by
  have hne : b4 ≠ 0 := by omega
  have hq := Int.ediv_nonneg h0 (by omega : 0 ≤ b4)
  unfold partQuot
  split
  · rw [chkU32_of_le _ _ (by omega) (by omega), ok_bind, udivChk_of_ne_zero _ hne]
  · have hlt : b7 / b4 < 0x80000000 := Int.ediv_lt_of_lt_mul (by omega) (by omega)
    rw [udivChk_of_ne_zero _ hne, ok_bind, chkU32_of_le _ _ (by omega) (by omega)]

theorem quotient_nonneg {b7 b4 : Int} (h0 : 0 ≤ b7) (h1 : 1 ≤ b4) :
    0 ≤ if b7 < 0x80000000 then b7 * 2 / b4 else b7 / b4 * 2 := by
  have hb4 : 0 ≤ b4 := by omega
  split <;> positivity

/-- Settles O23: past the two checks of B7 and the test of B4, the quotient of `partQuot` is left to check. -/
theorem intQuotientKeepsBothArms : Obligations.IntQuotientKeepsBothArms := by
  intro rawP oss b3 b4 hb4 hb3 hb3' dd scale b7 p
  have hraw := rawP.isLt
  have hscale : 0 ≤ scale := by
    rw [show scale = shiftR 50000 oss.toNat from (shiftR_50000 oss).symm, shiftR]
    positivity
  have hb7 : 0 ≤ dd → 0 ≤ b7 := fun h => mul_nonneg h hscale
  have hdd : 0 ≤ dd → partDiv rawP oss b3 b4 = chkU32 b7 .pB7b >>= fun b7 =>
      if b4 = 0 then .error (.divideByZero .pPdiv) else partQuot b7 b4 >>= fun p => chkS32 p .pP := fun h => by
    rw [partDiv, chkU32_of_le _ _ h (by omega), ok_bind, shiftR_50000]
  have hquot : 0 ≤ dd → b7 ≤ 4294967295 → 1 ≤ b4 →
      partDiv rawP oss b3 b4 = partQuot b7 b4 >>= fun p => chkS32 p .pP := fun h0 hle h1 => by
    rw [hdd h0, chkU32_of_le _ _ (hb7 h0) hle, ok_bind, if_neg (by omega)]
  refine ⟨fun hneg => ?_, fun h0 hgt => ?_, fun h0 hle hz => ?_, fun h0 hle hone hge => ?_,
    fun h0 hle h1 hone hgt => ?_, fun h0 hle h1 hfit => ?_⟩
  · rw [partDiv, chkU32_of_neg hneg, error_bind]
  · rw [hdd h0, chkU32_of_gt hgt, error_bind]
  · rw [hdd h0, chkU32_of_le _ _ (hb7 h0) hle, ok_bind, if_pos hz]
  · rw [hquot h0 hle (by omega), hone, partQuot_of_one hge, error_bind]
  · rw [hquot h0 hle h1, partQuot_ok (hb7 h0) hle h1 hone, ok_bind, chkS32_of_not_inS32 fun h => not_lt_of_ge h.2 hgt]
  · have hp : 0 ≤ p := quotient_nonneg (hb7 h0) h1
    have hone : b4 = 1 → b7 < 0x80000000 := fun hone => by
      by_contra hge
      have hp1 : p = b7 / b4 * 2 := if_neg hge
      rw [hone, Int.ediv_one] at hp1
      omega
    rw [hquot h0 hle h1, partQuot_ok (hb7 h0) hle h1 hone, ok_bind, chkS32_of_le _ _ (by omega) hfit]

/-- Settles O24: h² × 3038 leaves s32 from h = 841 on, and h² itself from h = 46341 on. -/
theorem intFinalCorrectionClosedForm : Obligations.IntFinalCorrectionClosedForm := by
  intro p h0 hp h x1 x2
  have hh : h = p / 2 ^ 8 := Int.fdiv_eq_ediv_of_nonneg _ (by decide)
  have hx1 : x1 = h * h * 3038 / 2 ^ 16 := Int.fdiv_eq_ediv_of_nonneg _ (by decide)
  have hx2 : x2 = -7357 * p / 2 ^ 16 := Int.fdiv_eq_ediv_of_nonneg _ (by decide)
  have hsum : Int.fdiv (x1 + x2 + 3791) (2 ^ 4) = (x1 + x2 + 3791) / 2 ^ 4 := Int.fdiv_eq_ediv_of_nonneg _ (by decide)
  have hsq : 0 ≤ h * h := mul_self_nonneg h
  rw [partFinal, shiftR, ← hh]
  refine ⟨fun hle => ?_, fun hlt hle => ?_, fun hge => ?_⟩
  · have hub := mul_bounds (a := h) (b := h) (m := 840) (n := 840) (by omega) (by omega)
    simp (disch := omega) only [chkS32_of_le, ok_bind, shiftR, ← hx1, ← hx2, hsum]
  · have hub := mul_bounds (a := h) (b := h) (m := 46340) (n := 46340) (by omega) (by omega)
    have hlb : 841 * 841 ≤ h * h := sq_lower_bound (by decide) (.inr (by omega))
    rw [chkS32_of_le _ _ (by omega) (by omega), ok_bind, chkS32_of_not_inS32 (by unfold inS32; omega), error_bind]
  · have hlb : 46341 * 46341 ≤ h * h := sq_lower_bound (by decide) (.inr (by omega))
    rw [chkS32_of_not_inS32 (by unfold inS32; omega), error_bind]

/-! ## The pressure step (R133) -/

theorem pcompInt_of_large_b6 (c : Cal) {b5 : Int} (raw : BitVec 19) (oss : BitVec 2) (hin : inS32 (b5 - 4000))
    (h : b5 - 4000 < -46340 ∨ 46340 < b5 - 4000) : pcompInt c b5 raw oss = .error (.computationOverflow .pB6sq) := by
  have hsq : 46341 * 46341 ≤ (b5 - 4000) * (b5 - 4000) := sq_lower_bound (by decide) (by omega)
  rw [pcompInt, chkS32_of_le _ _ hin.1 hin.2, ok_bind, chkS32_of_not_inS32 (by unfold inS32; omega), error_bind]

theorem pcompInt_eq_parts (c : Cal) {b5 : Int} (raw : BitVec 19) (oss : BitVec 2) (hlo : -46340 ≤ b5 - 4000)
    (hhi : b5 - 4000 ≤ 46340) :
    pcompInt c b5 raw oss =
      partB3 c (b5 - 4000) (Int.fdiv ((b5 - 4000) * (b5 - 4000)) (2 ^ 12)) oss >>= fun b3 =>
        partB4 c (b5 - 4000) (Int.fdiv ((b5 - 4000) * (b5 - 4000)) (2 ^ 12)) >>= fun b4 =>
          partDiv raw oss b3 b4 >>= partFinal := by
  have hsq := mul_bounds ⟨hlo, hhi⟩ ⟨hlo, hhi⟩
  rw [pcompInt, chkS32_of_le _ _ (by omega) (by omega), ok_bind, chkS32_of_le _ _ (by omega) (by omega), ok_bind,
    Int.fdiv_eq_ediv_of_nonneg _ (by decide), shiftR]

end Sys2Proof.Proofs
end

section
/-! PROOFS. COMP_T and COMP_P (41_int_compensation.md R132, R138; 42_fp_compensation.md R173, R174): their gates, and in both variants
the one state a datapath's result or exception leaves. -/

open Sys2Proof Sys2Proof.Machine Sys2Proof.Claims

namespace Sys2Proof.Proofs

/-! ## The state an answer leaves -/

/-- What COMP_T and COMP_P leave behind: a datapath's result with the registers `g` it writes, or its exception with SEQ
cleared (R254). -/
def answered {α : Type} (s : State) (g : α → Engine) (value : α → Value) (r : Except Exc α) : State :=
  match r with
  | .ok a => afterQuiet s (g a) .ok (some (value a)) none
  | .error e => afterQuiet s (seqCleared s.eng) (excStatus e) (excInfo e) none

theorem pushResponse_eq_afterQuiet (st : Status) (v0 v1 : Option Value) (s : State) (g : Engine) :
    pushResponse { status := st, v0 := v0, v1 := v1 } { s with eng := g } = afterQuiet s g st v0 v1 := by
  simp only [pushResponse, afterQuiet, after, List.append_nil]

theorem concludeRun_ok (s : State) (g : Engine) (q : Quantity) :
    concludeRun abortSeq s (runBind (.next (.ok q, { s with eng := g })) respondOne) =
      .next (afterQuiet s g .ok (some (quantityValue q)) none) :=
  congrArg _ (pushResponse_eq_afterQuiet _ _ _ s g)

theorem concludeRun_error (s : State) (e : Exc) :
    concludeRun abortSeq s (runBind (.next (.error e, s)) respondOne) =
      .next (afterQuiet s (seqCleared s.eng) (excStatus e) (excInfo e) none) :=
  congrArg _ (pushResponse_eq_afterQuiet _ _ _ s _)

/-! ## The gates -/

theorem gateCalibrated_ready {g : Engine} (h : g.initState = .ready) : gateCalibrated g = none := by
  simp [gateCalibrated, h]

theorem gatePressure_cached {g : Engine} (hi : g.initState = .ready) (hq : g.seq = .awaitingPressure) :
    gatePressure g = none := by
  simp [gatePressure, hi, hq]

theorem gatePressure_not_cached {g : Engine} (hi : g.initState = .ready) (hq : g.seq ≠ .awaitingPressure) :
    gatePressure g = some .sequenceViolation := by
  simp [gatePressure, hi, hq]

theorem gated_refused {gate : Option Exc} {e : Exc} (h : gate = some e) (s : State)
    (op : Host.Outcome State Fault Refusal) :
    gated gate s op = .next (afterQuiet s s.eng (excStatus e) (excInfo e) none) := by
  subst h
  exact congrArg _ (pushResponse_eq_afterQuiet _ _ _ s s.eng)

theorem compT_refused {s : State} {e : Exc} (h : gateCalibrated s.eng = some e) (raw : BitVec 16) :
    exec (.compT raw) s = .next (afterQuiet s s.eng (excStatus e) (excInfo e) none) := gated_refused h s _

theorem compP_refused {s : State} {e : Exc} (h : gatePressure s.eng = some e) (oss : BitVec 2) (raw : BitVec 19) :
    exec (.compP oss raw) s = .next (afterQuiet s s.eng (excStatus e) (excInfo e) none) := gated_refused h s _

/-! ## The steps of each variant, with their registers present -/

section
variable {s : State}

theorem tcompStep_int (hv : s.cfg.variant = .int) {c : Cal} (hc : s.eng.cal = some c) (raw : BitVec 16) :
    tcompStep raw s = .next (commitB5 (tcompInt c raw) s) := by
  simp only [tcompStep, hv, hc, withReg_some]

theorem tcompStep_fp (hv : s.cfg.variant = .fp) {k : Coeffs} (hk : s.eng.dc = some k) (raw : BitVec 16) :
    tcompStep raw s = .next (commitTC (tcompFp k raw) s) := by
  simp only [tcompStep, hv, hk, withReg_some]

theorem pcompStep_int (hv : s.cfg.variant = .int) {c : Cal} (hc : s.eng.cal = some c) {b5 : S32}
    (hb : s.eng.b5 = some b5) (raw : BitVec 19) (oss : BitVec 2) :
    pcompStep raw oss s = .next (commitPressure (fun p => .int (s32Of p)) (pcompInt c b5.toInt raw oss) s) := by
  simp only [pcompStep, hv, hc, hb, withReg_some]

theorem pcompStep_fp (hv : s.cfg.variant = .fp) {k : Coeffs} (hk : s.eng.dc = some k) {tc : F64}
    (ht : s.eng.tc = some tc) (raw : BitVec 19) (oss : BitVec 2) :
    pcompStep raw oss s = .next (commitPressure .fp (pcompFp k tc raw oss) s) := by
  simp only [pcompStep, hv, hk, ht, withReg_some]

variable (hi : s.eng.initState = .ready)
include hi

theorem compT_int (hv : s.cfg.variant = .int) {c : Cal} (hc : s.eng.cal = some c) (raw : BitVec 16) :
    exec (.compT raw) s = .next (answered s
      (fun x : Int × Int => { s.eng with b5 := some (s32Of x.1), seq := .awaitingPressure })
      (fun x => .s32 (s32Of x.2)) (tcompInt c raw)) := by
  rw [exec, execCompT, gateCalibrated_ready hi, gated, tcompStep_int hv hc]
  cases tcompInt c raw with
  | ok x => exact concludeRun_ok s _ _
  | error e => exact concludeRun_error s e

theorem compT_fp (hv : s.cfg.variant = .fp) {k : Coeffs} (hk : s.eng.dc = some k) (raw : BitVec 16) :
    exec (.compT raw) s = .next (answered s (fun t => { s.eng with tc := some t, seq := .awaitingPressure }) .f64
      (tcompFp k raw)) := by
  rw [exec, execCompT, gateCalibrated_ready hi, gated, tcompStep_fp hv hk]
  cases tcompFp k raw with
  | ok t => exact concludeRun_ok s _ _
  | error e => exact concludeRun_error s e

variable (hq : s.eng.seq = .awaitingPressure)
include hq

theorem compP_int (hv : s.cfg.variant = .int) {c : Cal} (hc : s.eng.cal = some c) {b5 : S32} (hb : s.eng.b5 = some b5)
    (oss : BitVec 2) (raw : BitVec 19) :
    exec (.compP oss raw) s = .next (answered s (fun _ => { s.eng with seq := .ready }) (fun p => .s32 (s32Of p))
      (pcompInt c b5.toInt raw oss)) := by
  rw [exec, execCompP, gatePressure_cached hi hq, gated, pcompStep_int hv hc hb]
  cases pcompInt c b5.toInt raw oss with
  | ok p => exact concludeRun_ok s _ _
  | error e => exact concludeRun_error s e

theorem compP_fp (hv : s.cfg.variant = .fp) {k : Coeffs} (hk : s.eng.dc = some k) {tc : F64} (ht : s.eng.tc = some tc)
    (oss : BitVec 2) (raw : BitVec 19) :
    exec (.compP oss raw) s = .next (answered s (fun _ => { s.eng with seq := .ready }) .f64
      (pcompFp k tc raw oss)) := by
  rw [exec, execCompP, gatePressure_cached hi hq, gated, pcompStep_fp hv hk ht]
  cases pcompFp k tc raw oss with
  | ok p => exact concludeRun_ok s _ _
  | error e => exact concludeRun_error s e

end

/-! ## COMP_T and COMP_P in the INT variant (R132, R138) -/

/-- Settles O26: past the gate, COMP_T answers what the temperature step gives. -/
theorem compTInt : Obligations.CompTInt := by
  intro s raw c
  refine ⟨fun hi => ?_, fun hi => ?_, fun hi hv hc => ?_⟩
  · exact compT_refused (e := .identityMismatch none) (by simp [gateCalibrated, hi]) raw
  · exact compT_refused (e := .notInitialized) (by simp [gateCalibrated, hi]) raw
  · rw [compT_int hi hv hc]
    refine ⟨fun b5 t h => ?_, fun h => ?_, fun h => ?_⟩
    · rw [h]; rfl
    · rw [h]; rfl
    · rw [h]; rfl

theorem stageCode_eq_stageNumber (st : Stage) : stageCode st = stageNumber st := by cases st <;> rfl

/-- Settles O28: the table of R270; PCOMP_INT as its two checks and four parts; and the gates and the answer of COMP_P. -/
theorem compPInt : Obligations.CompPInt := by
  refine ⟨stageCode_eq_stageNumber, fun c b5 raw oss => ?_, fun s oss raw c b5 => ?_⟩
  · refine ⟨(pcompInt_eq_error_pB6_iff c b5 raw oss).mpr, pcompInt_of_large_b6 c raw oss, fun hlo hhi => ?_⟩
    rw [pcompInt_eq_parts c raw oss hlo hhi]
    refine ⟨fun e h3 => ?_, fun b3 h3 => ⟨fun e h4 => ?_, fun b4 h4 => ⟨fun e hd => ?_, fun p hd => ?_⟩⟩⟩
    · rw [h3, error_bind]
    · rw [h3, ok_bind, h4, error_bind]
    · rw [h3, ok_bind, h4, ok_bind, hd, error_bind]
    · rw [h3, ok_bind, h4, ok_bind, hd, ok_bind]
  · refine ⟨fun hi => ?_, fun hi => ?_, fun hi hq => ?_, fun hi hq hv hc hb => ?_⟩
    · exact compP_refused (e := .identityMismatch none) (by simp [gatePressure, hi]) oss raw
    · exact compP_refused (e := .notInitialized) (by simp [gatePressure, hi]) oss raw
    · exact compP_refused (gatePressure_not_cached hi hq) oss raw
    · rw [compP_int hi hq hv hc hb]
      refine ⟨fun p h => ?_, fun st h => ?_, fun h => ?_⟩
      · rw [h]; rfl
      · rw [h, ← stageCode_eq_stageNumber]; rfl
      · rw [h]; rfl

/-- Settles O30: a completion leaves SEQ at Ready and a raise at AwaitingTemperature, and neither writes INIT_STATE. -/
theorem compPConsumesTheTemperature : Obligations.CompPConsumesTheTemperature := by
  intro s t oss oss' raw raw' hi hq h
  have ht : t.eng.initState = .ready ∧ t.eng.seq ≠ .awaitingPressure := by
    cases exec_next rfl h with
    | refused e hg ht => cases (gatePressure_cached hi hq).symm.trans hg
    | raised e u hg hb he ht =>
      rw [ht]
      exact ⟨hi, nofun⟩
    | done v0 v1 u hg hb hd ht =>
      obtain ⟨_, q, _, hpress⟩ := hd
      rw [ht, respond_eng, hpress.seq]
      exact ⟨hi, nofun⟩
  exact compP_refused (gatePressure_not_cached ht.1 ht.2) oss' raw'

/-! ## COMP_T and COMP_P in the FP variant (R172 to R174) -/

theorem fin_eq_ite (v : F64) (st : Stage) :
    fin v st = if f64IsFinite v = false then .error (.numericDomain st) else .ok v := by
  unfold fin
  cases f64IsFinite v <;> rfl

theorem fin_bind {α : Type} (v : F64) (st : Stage) (f : F64 → Except Exc α) :
    (fin v st >>= f) = if f64IsFinite v = false then .error (.numericDomain st) else f v := by
  rw [fin_eq_ite]
  split <;> rfl

/-- Settles O27: the temperature step is its two FIN checks in sequence. -/
theorem compTFp : Obligations.CompTFp := by
  intro s raw k hi hv hk a q t
  have hchain : tcompFp k raw =
      if f64IsFinite q = false then .error (.numericDomain .ftQ)
      else if f64IsFinite t = false then .error (.numericDomain .ftT)
      else .ok t := by
    rw [tcompFp, fin_bind, fin_eq_ite]
  rw [compT_fp hi hv hk, hchain]
  refine ⟨fun hq ht => ?_, fun hq => ?_, fun hq ht => ?_⟩
  · rw [hq, ht]; rfl
  · rw [hq]; rfl
  · rw [hq, ht]; rfl

/-- Settles O29: the pressure step is its four FIN checks in sequence, and COMP_P's state follows the same chain. -/
theorem compPFp : Obligations.CompPFp := by
  intro s oss raw k tc hi hq hv hk ht d d2 x y z p raised
  have hchain : pcompFp k tc raw oss =
      if f64IsFinite x = false then .error (.numericDomain .fpX)
      else if f64IsFinite y = false then .error (.numericDomain .fpY)
      else if f64IsFinite z = false then .error (.numericDomain .fpZ)
      else if f64IsFinite p = false then .error (.numericDomain .fpP)
      else .ok p := by
    rw [pcompFp, fin_bind, fin_bind, fin_bind, fin_eq_ite]
    rfl
  rw [compP_fp hi hq hv hk ht, hchain]
  simp only [apply_ite (answered s _ _)]
  rfl

end Sys2Proof.Proofs
end

section
/-! PROOFS. The floating-point values of the engine: DERIVE_FN's formulas and their range (42_fp_compensation.md R171), and
that no infinity and no NaN is stored or answered (R172). -/

open Sys2Proof Sys2Proof.Machine Sys2Proof.Claims

namespace Sys2Proof.Proofs

/-! ## The constant factors of DERIVE_FN (R171) -/

theorem facC3_eq : facC3 = 0x3F74000000000000 := by decide +kernel

theorem facC4_eq : facC4 = 0x3E60624DD2F1A9FC := by decide +kernel

theorem facB1_eq : facB1 = 0x3EF9000000000000 := by decide +kernel

theorem facC5_eq : facC5 = 0x3E8999999999999A := by decide +kernel

theorem facMC_eq : facMC = 0x3FB47AE147AE147B := by decide +kernel

theorem facX1_eq : facX1 = 0x3F94000000000000 := by decide +kernel

theorem facX2_eq : facX2 = 0x3F49000000000000 := by decide +kernel

theorem lit_160 : lit 160 = 0x4064000000000000 := by decide +kernel

theorem lit_32768 : lit 32768 = 0x40E0000000000000 := by decide +kernel

/-! ## Every coefficient is finite (R171) -/

/-- A constant of at most 2^16 times a calibration constant stays below 2^33. -/
theorem fmul_constant_below {f v : F64}
    (hf : f64IsFinite f = true ∧ f64Units f ≤ f64Units 0x40F0000000000000) (hv : F64Below 16 v) :
    F64Below 33 (fmul f v) :=
  fmul_below (constant_below f hf.1 hf.2) hv (by decide)

/-- MD / 160: a divisor of at least 1 enlarges nothing. -/
theorem fdiv_160_below {v : F64} (hv : F64Below 16 v) : F64Below 17 (fdiv v (lit 160)) := by
  have hdivisor : f64IsFinite (lit 160) = true ∧ f64Units f64One ≤ f64Units (lit 160) := by decide +kernel
  have hone : f64Units f64One = oneUnits := by decide +kernel
  exact fdiv_below hv hdivisor.1 (hone ▸ hdivisor.2) (by decide)

/-- R171: p0, p1 and p2 hold no calibration constant. -/
theorem deriveFn_p (c : Cal) :
    (deriveFn c).p0 = 0x406D8E0000000000 ∧ (deriveFn c).p1 = 0x4058D318B0000000 ∧
      (deriveFn c).p2 = 0x3F3CF8FE00000000 := by
  simp only [deriveFn]
  refine ⟨?_, ?_, ?_⟩ <;> decide +kernel

/-- R171: the greatest coefficients, y1 and y2, are products of two others and stay below 2^67. -/
theorem deriveFn_isFinite (c : Cal) : (deriveFn c).isFinite = true := by
  have hc3 : F64Below 33 (fmul facC3 (f64OfInt (valAC3 c))) := fmul_constant_below (by decide +kernel) (sext16_below c.ac3)
  have hc4 : F64Below 33 (fmul facC4 (f64OfInt (valAC4 c))) := fmul_constant_below (by decide +kernel) (zext16_below c.ac4)
  have hb1 : F64Below 33 (fmul facB1 (f64OfInt (valB1 c))) := fmul_constant_below (by decide +kernel) (sext16_below c.b1)
  have hc5 : F64Below 33 (fmul facC5 (f64OfInt (valAC5 c))) := fmul_constant_below (by decide +kernel) (zext16_below c.ac5)
  have hc6 : F64Below 16 (f64OfInt (valAC6 c)) := zext16_below c.ac6
  have hmc : F64Below 33 (fmul facMC (f64OfInt (valMC c))) := fmul_constant_below (by decide +kernel) (sext16_below c.mc)
  have hmd : F64Below 17 (fdiv (f64OfInt (valMD c)) (lit 160)) := fdiv_160_below (sext16_below c.md)
  have hx0 : F64Below 16 (f64OfInt (valAC1 c)) := sext16_below c.ac1
  have hx1 : F64Below 33 (fmul facX1 (f64OfInt (valAC2 c))) := fmul_constant_below (by decide +kernel) (sext16_below c.ac2)
  have hx2 : F64Below 33 (fmul facX2 (f64OfInt (valB2 c))) := fmul_constant_below (by decide +kernel) (sext16_below c.b2)
  have hy0 := fmul_below hc4 (constant_below (lit 32768) (by decide +kernel) (by decide +kernel)) (by decide)
  have hy1 := fmul_below hc4 hc3 (by decide)
  have hy2 := fmul_below hc4 hb1 (by decide)
  obtain ⟨hp0, hp1, hp2⟩ := deriveFn_p c
  have hp : [(deriveFn c).p0, (deriveFn c).p1, (deriveFn c).p2].all f64IsFinite = true := by
    rw [hp0, hp1, hp2]; decide
  simpa only [Coeffs.isFinite, deriveFn, List.all_cons, hc3.finite, hc4.finite, hb1.finite, hc5.finite, hc6.finite,
    hmc.finite, hmd.finite, hx0.finite, hx1.finite, hx2.finite, hy0.finite, hy1.finite, hy2.finite, Bool.true_and] using hp

/-- Settles O60: the factors have the patterns of R171's table, and the bounds of the coefficients make them finite. -/
theorem deriveFnFollowsTheFormulas : Obligations.DeriveFnFollowsTheFormulas := by
  intro c k
  obtain ⟨hp0, hp1, hp2⟩ := deriveFn_p c
  refine ⟨?_, ?_, ?_, ?_, ?_, ?_, ?_, ?_, ?_, ?_, ?_, ?_, ?_, hp0, hp1, hp2, deriveFn_isFinite c⟩ <;>
    simp only [k, deriveFn, facC3_eq, facC4_eq, facB1_eq, facC5_eq, facMC_eq, facX1_eq, facX2_eq, lit_160, lit_32768]

/-! ## Finite registers (R172) -/

theorem tempDone_isFinite {raw : BitVec 16} {s : State} {q : Quantity} {g : Engine} (h : TempDone raw s q g) :
    q.isFinite = true := by
  obtain ⟨_, _, _, _, _, _, rfl, _⟩ | ⟨_, _, _, _, ht, rfl, _⟩ := h.done
  · rfl
  · exact tcompFp_finite ht

theorem pressDone_isFinite {raw : BitVec 19} {oss : BitVec 2} {s : State} {q : Quantity} {g : Engine}
    (h : PressDone raw oss s q g) : q.isFinite = true := by
  obtain ⟨_, _, _, _, _, _, _, rfl⟩ | ⟨_, _, _, _, _, _, hp, rfl⟩ := h.done
  · rfl
  · exact pcompFp_finite hp

theorem cycleDone_isFinite {s : State} {q p : Quantity} {g : Engine} (h : CycleDone s q p g) :
    q.isFinite = true ∧ p.isFinite = true := by
  obtain ⟨_, _, _, _, _, _, _, ht, _, _, hp⟩ := h
  exact ⟨tempDone_isFinite ht, pressDone_isFinite hp⟩

/-- R173: what the temperature step caches in TC has passed FIN. -/
theorem finiteInv_tempDone {raw : BitVec 16} {s : State} {q : Quantity} {g : Engine} (h : TempDone raw s q g)
    (hs : FiniteInv s) : FiniteInv { s with eng := g } := by
  obtain ⟨hdc, htc, hpub⟩ := hs
  obtain ⟨_, _, _, _, _, _, _, rfl⟩ | ⟨_, _, t, _, ht, _, rfl⟩ := h.done
  · exact ⟨hdc, htc, hpub⟩
  · exact ⟨hdc, (heldAll_some _ t).mpr (tcompFp_finite ht), hpub⟩

theorem finiteInv_cycleDone {s : State} {q p : Quantity} {g : Engine} (h : CycleDone s q p g) (hs : FiniteInv s) :
    FiniteInv { s with eng := g } := by
  obtain ⟨bt, s1, g1, bp, s3, _, he1, ht, _, he3, hp⟩ := h
  have h1 : FiniteInv { s1 with eng := g1 } := finiteInv_tempDone ht (by rwa [FiniteInv, he1])
  rwa [hp.seq, he3]

theorem finiteInv_publish {s : State} {t p : Quantity} (hs : FiniteInv s) (ht : t.isFinite = true)
    (hp : p.isFinite = true) : FiniteInv { s with eng := publish t p s.eng } := by
  obtain ⟨hdc, htc, _, _, href⟩ := hs
  exact ⟨hdc, htc, (heldAll_some _ t).mpr ht, (heldAll_some _ p).mpr hp, href⟩

theorem finiteInv_publishRef {s : State} {t p : Quantity} (hs : FiniteInv s) (ht : t.isFinite = true)
    (hp : p.isFinite = true) : FiniteInv { s with eng := publishRef t p s.eng } := by
  obtain ⟨hdc, htc, htPub, hpPub, _⟩ := finiteInv_publish hs ht hp
  exact ⟨hdc, htc, htPub, hpPub, (heldAll_some _ p).mpr hp⟩

/-- R103, R171: the coefficients INIT commits are finite. -/
theorem finiteInv_commitCal {s : State} (v : Variant) (c : Cal) (hs : FiniteInv s) :
    FiniteInv { s with eng := commitCal v c (beginSession s.eng) } := by
  cases v with
  | int => exact hs
  | fp =>
    obtain ⟨_, hrest⟩ := hs
    exact ⟨(heldAll_some _ (deriveFn c)).mpr (deriveFn_isFinite c), hrest⟩

theorem finiteInv_keptByCommands : KeptByCommands FiniteInv where
  registersOnly _ he hs := by rwa [FiniteInv, he]
  abort i s e _ hs := by
    cases i with
    | init => cases e <;> exact hs
    | compT | compP | getData | captureRef | reset | getId | hasValidId | measureT | measureP | setOss | getAlt | trigT
    | trigP | softReset => exact hs
  done i s g v0 v1 _ hd hs := by
    have hw := writesOnly_of_opDone hd
    cases i with
    | init =>
      obtain ⟨_, _, c, rfl⟩ := hd
      exact finiteInv_commitCal s.cfg.variant c hs
    | compT =>
      obtain ⟨_, q, _, ht⟩ := hd
      exact finiteInv_tempDone ht hs
    | getData =>
      obtain ⟨q, p, g1, _, _, hc, rfl⟩ := hd
      obtain ⟨hq, hp⟩ := cycleDone_isFinite hc
      exact finiteInv_publish (finiteInv_cycleDone hc hs) hq hp
    | captureRef =>
      obtain ⟨q, p, g1, _, _, hc, rfl⟩ := hd
      obtain ⟨hq, hp⟩ := cycleDone_isFinite hc
      exact finiteInv_publishRef (finiteInv_cycleDone hc hs) hq hp
    | compP => obtain ⟨_, rfl⟩ := hw; exact hs
    | reset => obtain ⟨_, _, _, _, rfl⟩ := hw; exact hs
    | setOss => obtain ⟨_, rfl⟩ := hw; exact hs
    | getId | hasValidId | measureT | measureP | getAlt | trigT | trigP | softReset => cases hw; exact hs

/-! ## Finite responses (R172) -/

theorem valueFinite_none : valueFinite none := nofun

theorem valueFinite_quantityValue {q : Quantity} (h : q.isFinite = true) : valueFinite (some (quantityValue q)) := by
  intro w hw
  cases q with
  | int v => cases hw
  | fp v => cases hw; exact h

/-- R251: the info of an exception is a byte, a code or a word. -/
theorem valueFinite_excInfo (e : Exc) : valueFinite (excInfo e) := by
  cases e with
  | identityMismatch id => cases id <;> nofun
  | busError | noReferencePressure | computationOverflow | divideByZero | sequenceViolation | notInitialized
  | illegalCommand | numericDomain => nofun

/-- A completed command answers quantities that have passed FIN, an altitude that has, or no binary64 value at all. -/
theorem valueFinite_of_opDone {i : Instr} {s : State} {g : Engine} {v0 v1 : Option Value} (h : OpDone i s g v0 v1) :
    valueFinite v0 ∧ valueFinite v1 := by
  cases i with
  | init =>
    obtain ⟨rfl, rfl, _⟩ := h
    exact ⟨valueFinite_none, valueFinite_none⟩
  | reset | setOss =>
    obtain ⟨_, rfl, rfl⟩ := h
    exact ⟨valueFinite_none, valueFinite_none⟩
  | getId | hasValidId | measureT | measureP =>
    obtain ⟨_, rfl, _, rfl⟩ := h
    exact ⟨nofun, valueFinite_none⟩
  | compT =>
    obtain ⟨rfl, q, rfl, ht⟩ := h
    exact ⟨valueFinite_quantityValue (tempDone_isFinite ht), valueFinite_none⟩
  | compP =>
    obtain ⟨rfl, q, rfl, hp⟩ := h
    exact ⟨valueFinite_quantityValue (pressDone_isFinite hp), valueFinite_none⟩
  | getData | captureRef =>
    obtain ⟨q, p, _, rfl, rfl, hc, _⟩ := h
    obtain ⟨hq, hp⟩ := cycleDone_isFinite hc
    exact ⟨valueFinite_quantityValue hq, valueFinite_quantityValue hp⟩
  | getAlt =>
    obtain ⟨_, rfl, _, _, a, _, _, ha, rfl⟩ := h
    exact ⟨fun w hw => by cases hw; exact altitude_finite ha, valueFinite_none⟩
  | trigT | trigP | softReset => exact h.elim

/-- A response that `t` adds to those of `s` carries no infinity and no NaN. -/
def AnswersFinite (s t : State) : Prop :=
  ∀ r, t.port.responses = s.port.responses ++ [r] → valueFinite r.v0 ∧ valueFinite r.v1

theorem answersFinite_pushResponse {s u : State} (r : Response) (hu : u.port.responses = s.port.responses)
    (h0 : valueFinite r.v0) (h1 : valueFinite r.v1) : AnswersFinite s (pushResponse r u) := by
  intro r' hr
  rw [pushResponse_responses, hu] at hr
  obtain rfl := List.singleton_inj.mp (List.append_cancel_left hr)
  exact ⟨h0, h1⟩

theorem answersFinite_raiseExc {s u : State} (e : Exc) (hu : u.port.responses = s.port.responses) :
    AnswersFinite s (raiseExc e u) :=
  answersFinite_pushResponse _ hu (valueFinite_excInfo e) valueFinite_none

theorem answersFinite_of_no_response {s t : State} (h : t.port.responses = s.port.responses) : AnswersFinite s t := by
  intro r hr
  simp [h] at hr

theorem answersFinite_of_ended {i : Instr} {s t : State} (h : Ended i s t) : AnswersFinite s t := by
  cases h with
  | refused e hg ht => subst ht; exact answersFinite_raiseExc e rfl
  | raised e u hg hb he ht => subst ht; exact answersFinite_raiseExc e (by rw [hb.port])
  | done v0 v1 u hg hb hd ht =>
    subst ht
    obtain ⟨h0, h1⟩ := valueFinite_of_opDone hd
    exact answersFinite_pushResponse _ (by rw [hb.port]) h0 h1

theorem answersFinite_of_step {s t : State} (h : step s = .next t) : AnswersFinite s t := by
  cases step_next h with
  | command cmd rest i hp hq hd he =>
    exact answersFinite_of_ended (s := { s with port := { s.port with cmds := rest } }) he
  | illegal cmd rest hp hq hd ht => subst ht; exact answersFinite_raiseExc _ rfl
  | sensor b i k hp hd ht => subst ht; exact answersFinite_of_no_response rfl
  | idle hp hq ht => subst ht; exact answersFinite_of_no_response rfl

/-- Settles O50: what a datapath stores or answers has passed FIN, and DERIVE_FN gives finite coefficients. -/
theorem noNonFiniteValueStoredOrReturned : Obligations.NoNonFiniteValueStoredOrReturned := fun _ _ hs h =>
  ⟨finiteInv_keptByCommands.step h hs, answersFinite_of_step h⟩

end Sys2Proof.Proofs
end

section
/-! PROOFS. The sequencer (43_sequencer.md R200 to R205): SET_OSS, the two measurements and GET_DATA, by the answers listed
for their transactions. Each conversion and each cycle gets the state it reaches, as `transacted`, before its response. -/

open Sys2Proof Sys2Proof.Machine Sys2Proof.Claims

namespace Sys2Proof.Proofs

/-- Settles O14: the operand stands in bits 25:24, and the response is the only other change. -/
theorem setOssWritesOnlyOss : Obligations.SetOssWritesOnlyOss := fun s oss =>
  ⟨by revert oss; decide, congrArg _ (pushResponse_eq_afterQuiet _ _ _ s _)⟩

/-! ## The two conversions, by the answers listed (R201 to R203) -/

/-- R203: the events of a completed temperature conversion that gives the bytes `b`. -/
def tempEvents (s : State) (b : Byte × Byte × Byte) : List BusEvent :=
  [wr s 0xF4 0x2E true, .delay 5, rd s 0xF6 2 (some [b.1, b.2.1])]

/-- R203: the events of a completed pressure conversion that gives the bytes `b`. -/
def pressEvents (s : State) (oss : BitVec 2) (b : Byte × Byte × Byte) : List BusEvent :=
  [wr s 0xF4 (trigger oss) true, .delay (settle oss), rd s 0xF6 3 (some [b.1, b.2.1, b.2.2])]

section
variable {s : State} {a b : Byte × Byte × Byte} {left : List BusAnswer}

theorem acquireT_trigger_failed (h : s.bus.answers = .fail :: left) :
    acquireT s = (.error (.busError .write 0xF4), transacted s s.eng [wr s 0xF4 0x2E false] left s.bus.conv) :=
  acquire_fail _ _ _ s left h

theorem acquireT_read_failed (h : s.bus.answers = done a :: .fail :: left) :
    acquireT s = (.error (.busError .read 0xF6),
      transacted s s.eng [wr s 0xF4 0x2E true, .delay 5, rd s 0xF6 2 none] left (some .temperature)) :=
  acquire_done_fail _ _ _ s _ _ _ left h

theorem acquireT_completed (h : s.bus.answers = done a :: done b :: left) :
    acquireT s = (.ok [b.1, b.2.1], transacted s s.eng (tempEvents s b) left (some .temperature)) :=
  acquire_done _ _ _ s _ _ _ _ _ _ left h

variable (oss : BitVec 2)

theorem acquireP_trigger_failed (h : s.bus.answers = .fail :: left) :
    acquireP oss s =
      (.error (.busError .write 0xF4), transacted s s.eng [wr s 0xF4 (trigger oss) false] left s.bus.conv) := by
  rw [← trigPByte_eq_trigger]
  exact acquire_fail _ _ _ s left h

theorem acquireP_read_failed (h : s.bus.answers = done a :: .fail :: left) :
    acquireP oss s = (.error (.busError .read 0xF6),
      transacted s s.eng [wr s 0xF4 (trigger oss) true, .delay (settle oss), rd s 0xF6 3 none] left
        (some (.pressure oss))) := by
  rw [← trigPByte_eq_trigger]
  exact acquire_done_fail _ _ _ s _ _ _ left h

theorem acquireP_completed (h : s.bus.answers = done a :: done b :: left) :
    acquireP oss s = (.ok [b.1, b.2.1, b.2.2],
      transacted s s.eng (pressEvents s oss b) left (some (.pressure oss))) := by
  rw [pressEvents, ← trigPByte_eq_trigger]
  exact acquire_done _ _ _ s _ _ _ _ _ _ left h

end

/-! ## MEASURE_T and MEASURE_P (R201, R202) -/

theorem gateIdentity_failed {g : Engine} (h : g.initState = .identityFailed) :
    gateIdentity g = some (.identityMismatch none) := if_pos h

theorem gateIdentity_not_failed {g : Engine} (h : g.initState ≠ .identityFailed) : gateIdentity g = none := if_neg h

/-- Settles O15: past its gate, MEASURE_T ends as its conversion does, with the bytes read as UT. -/
theorem measureTTriggersWaitsReads : Obligations.MeasureTTriggersWaitsReads := by
  refine ⟨rfl, fun s left a b => ⟨fun hi => gated_refused (gateIdentity_failed hi) s _, fun hi => ?_⟩⟩
  rw [exec, execMeasureT, gateIdentity_not_failed hi, gated]
  refine ⟨fun h => ?_, fun h => ?_, fun h => ⟨rawTemp [b.1, b.2.1], rawTemp_toNat b.1 b.2.1, ?_⟩⟩
  · rw [acquireT_trigger_failed h]
    rfl
  · rw [acquireT_read_failed h]
    rfl
  · rw [acquireT_completed h]
    rfl

/-- Settles O16: past its gate, MEASURE_P ends as its conversion does, with the shifted bytes as UP. -/
theorem measurePTriggersWaitsReads : Obligations.MeasurePTriggersWaitsReads := by
  intro s oss left a b
  refine ⟨by revert oss; decide, fun hi => gated_refused (gateIdentity_failed hi) s _, fun hi => ?_⟩
  rw [exec, execMeasureP, gateIdentity_not_failed hi, gated]
  refine ⟨fun h => ?_, fun h => ?_,
    fun h => ⟨rawPress [b.1, b.2.1, b.2.2] oss, rawPress_toNat b.1 b.2.1 b.2.2 oss, ?_⟩⟩
  · rw [acquireP_trigger_failed oss h]
    rfl
  · rw [acquireP_read_failed oss h]
    rfl
  · rw [acquireP_completed oss h]
    rfl

/-! ## The steps of a cycle, from what their datapaths give -/

/-- Steps that completed hand their result on. -/
theorem runBind_completed {α β : Type} (a : α) (s : State) (f : α → State → Run β) :
    runBind (.next (.ok a, s)) f = f a s := rfl

/-- No step runs after a raise (R12). -/
theorem runBind_raised {α β : Type} (e : Exc) (s : State) (f : α → State → Run β) :
    runBind (.next (.error e, s)) f = .next (.error e, s) := rfl

section
variable {s : State}

/-- R131, R133: the pressure step reads back the B5 that the temperature step computed. -/
theorem s32Of_toInt_of_tcompInt {c : Cal} {raw : BitVec 16} {b5 t : Int} (h : tcompInt c raw = .ok (b5, t)) :
    (s32Of b5).toInt = b5 := by
  obtain ⟨_, _, hb5, _⟩ := intB5StaysWithinBounds c raw b5 t h
  exact hb5

theorem exists_tempDone_of_tempSucceeds {raw : BitVec 16} (h : tempSucceeds s raw) : ∃ q g, TempDone raw s q g := by
  obtain ⟨hv, c, b5, t, hc, hx⟩ | ⟨hv, k, t, hk, hx⟩ := h
  · exact ⟨_, _, ⟨.inl ⟨hv, c, b5, t, hc, hx, rfl, rfl⟩⟩⟩
  · exact ⟨_, _, ⟨.inr ⟨hv, k, t, hk, hx, rfl, rfl⟩⟩⟩

/-! A step reads the parameters and the registers alone: after transactions of `s` it gives what it gives in `s`. -/

variable (evs : List BusEvent) (left : List BusAnswer) (conv : Option Conversion)

theorem tcompStep_of_tempDone {raw : BitVec 16} {q : Quantity} {g : Engine} (h : TempDone raw s q g) :
    tcompStep raw (transacted s s.eng evs left conv) = .next (.ok q, transacted s g evs left conv) := by
  obtain ⟨hv, c, b5, t, hc, hx, rfl, rfl⟩ | ⟨hv, k, t, hk, hx, rfl, rfl⟩ := h.done
  · rw [tcompStep_int (s := transacted s s.eng evs left conv) hv hc, hx]
    rfl
  · rw [tcompStep_fp (s := transacted s s.eng evs left conv) hv hk, hx]
    rfl

theorem tcompStep_of_tempRaises {raw : BitVec 16} {x : Exc} (h : tempRaises s raw x) :
    tcompStep raw (transacted s s.eng evs left conv) = .next (.error x, transacted s s.eng evs left conv) := by
  obtain ⟨hv, c, hc, hx⟩ | ⟨hv, k, hk, hx⟩ := h
  · rw [tcompStep_int (s := transacted s s.eng evs left conv) hv hc, hx]
    rfl
  · rw [tcompStep_fp (s := transacted s s.eng evs left conv) hv hk, hx]
    rfl

theorem pcompStep_of_pressDone {raw : BitVec 19} {oss : BitVec 2} {p : Quantity} {g1 g : Engine}
    (h : PressDone raw oss { s with eng := g1 } p g) :
    pcompStep raw oss (transacted s g1 evs left conv) = .next (.ok p, transacted s g evs left conv) := by
  obtain ⟨rfl, ⟨hv, b5, c, p, hb, hc, hx, rfl⟩ | ⟨hv, tc, k, p, ht, hk, hx, rfl⟩⟩ := h
  · rw [pcompStep_int (s := transacted s g1 evs left conv) hv hc hb, hx]
    rfl
  · rw [pcompStep_fp (s := transacted s g1 evs left conv) hv hk ht, hx]
    rfl

/-- A pressure step that raises reads the cache of the temperature step `pressRaises` speaks of. -/
theorem pcompStep_of_pressRaises {rawT : BitVec 16} {rawP : BitVec 19} {x : Exc} (h : pressRaises s rawT rawP x) :
    ∃ q g, TempDone rawT s q g ∧ pcompStep rawP s.eng.oss (transacted s g evs left conv) =
      .next (.error x, transacted s g evs left conv) := by
  obtain ⟨hv, c, b5, t, hc, ht, hp⟩ | ⟨hv, k, t, hk, ht, hp⟩ := h
  · have hstep := pcompStep_int (s := transacted s { s.eng with b5 := some (s32Of b5), seq := .awaitingPressure }
      evs left conv) hv hc rfl rawP s.eng.oss
    rw [s32Of_toInt_of_tcompInt ht, hp] at hstep
    exact ⟨_, _, ⟨.inl ⟨hv, c, b5, t, hc, ht, rfl, rfl⟩⟩, hstep⟩
  · have hstep := pcompStep_fp (s := transacted s { s.eng with tc := some t, seq := .awaitingPressure }
      evs left conv) hv hk rfl rawP s.eng.oss
    rw [hp] at hstep
    exact ⟨_, _, ⟨.inr ⟨hv, k, t, hk, ht, rfl, rfl⟩⟩, hstep⟩

end

/-! ## The cycle, by the answers listed (R204) -/

/-- The rest of a cycle whose temperature step gave `q`: the pressure conversion and the pressure step. -/
def pressureHalf (oss : BitVec 2) (q : Quantity) (s : State) : Run (Quantity × Quantity) :=
  runBind (.next (acquireP oss s)) fun bp s1 =>
    runBind (pcompStep (rawPress bp oss) oss s1) fun p s2 => .next (.ok (q, p), s2)

section
variable {s : State} {a b d e : Byte × Byte × Byte} {left : List BusAnswer} {q : Quantity} {g : Engine}

theorem cycleStep_trigger_failed (h : s.bus.answers = .fail :: left) :
    cycleStep s = .next (.error (.busError .write 0xF4),
      transacted s s.eng [wr s 0xF4 0x2E false] left s.bus.conv) := by
  rw [cycleStep, acquireT_trigger_failed h, runBind_raised]

theorem cycleStep_read_failed (h : s.bus.answers = done a :: .fail :: left) :
    cycleStep s = .next (.error (.busError .read 0xF6),
      transacted s s.eng [wr s 0xF4 0x2E true, .delay 5, rd s 0xF6 2 none] left (some .temperature)) := by
  rw [cycleStep, acquireT_read_failed h, runBind_raised]

/-- After a temperature exception the pressure conversion is not started. -/
theorem cycleStep_temp_raised {x : Exc} (h : s.bus.answers = done a :: done b :: left)
    (hx : tempRaises s (rawTemp [b.1, b.2.1]) x) :
    cycleStep s = .next (.error x, transacted s s.eng (tempEvents s b) left (some .temperature)) := by
  rw [cycleStep, acquireT_completed h, runBind_completed, tcompStep_of_tempRaises _ _ _ hx, runBind_raised]

theorem cycleStep_temp_done (h : s.bus.answers = done a :: done b :: left)
    (hq : TempDone (rawTemp [b.1, b.2.1]) s q g) :
    cycleStep s = pressureHalf s.eng.oss q (transacted s g (tempEvents s b) left (some .temperature)) := by
  rw [cycleStep, acquireT_completed h, runBind_completed, tcompStep_of_tempDone _ _ _ hq, runBind_completed,
    pressureHalf]

theorem cycleStep_second_trigger_failed (h : s.bus.answers = done a :: done b :: .fail :: left)
    (hq : TempDone (rawTemp [b.1, b.2.1]) s q g) :
    cycleStep s = .next (.error (.busError .write 0xF4),
      transacted s g (tempEvents s b ++ [wr s 0xF4 (trigger s.eng.oss) false]) left (some .temperature)) := by
  rw [cycleStep_temp_done h hq, pressureHalf, acquireP_trigger_failed _ rfl, transacted_transacted, runBind_raised]
  rfl

theorem cycleStep_second_read_failed (h : s.bus.answers = done a :: done b :: done d :: .fail :: left)
    (hq : TempDone (rawTemp [b.1, b.2.1]) s q g) :
    cycleStep s = .next (.error (.busError .read 0xF6),
      transacted s g (tempEvents s b ++
        [wr s 0xF4 (trigger s.eng.oss) true, .delay (settle s.eng.oss), rd s 0xF6 3 none]) left
        (some (.pressure s.eng.oss))) := by
  rw [cycleStep_temp_done h hq, pressureHalf, acquireP_read_failed _ rfl, transacted_transacted, runBind_raised]
  rfl

/-- With all four transactions completed, a cycle ends as its pressure step does. -/
theorem cycleStep_both_read (h : s.bus.answers = done a :: done b :: done d :: done e :: left)
    (hq : TempDone (rawTemp [b.1, b.2.1]) s q g) :
    cycleStep s = runBind (pcompStep (rawPress [e.1, e.2.1, e.2.2] s.eng.oss) s.eng.oss
        (transacted s g (tempEvents s b ++ pressEvents s s.eng.oss e) left (some (.pressure s.eng.oss))))
      fun p t => .next (.ok (q, p), t) := by
  rw [cycleStep_temp_done h hq, pressureHalf, acquireP_completed _ rfl, transacted_transacted, runBind_completed]
  rfl

theorem cycleStep_press_raised {x : Exc} (h : s.bus.answers = done a :: done b :: done d :: done e :: left)
    (hx : pressRaises s (rawTemp [b.1, b.2.1]) (rawPress [e.1, e.2.1, e.2.2] s.eng.oss) x) :
    ∃ g, cycleStep s = .next (.error x,
      transacted s g (tempEvents s b ++ pressEvents s s.eng.oss e) left (some (.pressure s.eng.oss))) := by
  obtain ⟨q, g, hq, hp⟩ := pcompStep_of_pressRaises _ _ _ hx
  exact ⟨g, by rw [cycleStep_both_read h hq, hp, runBind_raised]⟩

theorem cycleStep_done {p : Quantity} {g1 : Engine}
    (h : s.bus.answers = done a :: done b :: done d :: done e :: left)
    (hq : TempDone (rawTemp [b.1, b.2.1]) s q g1)
    (hp : PressDone (rawPress [e.1, e.2.1, e.2.2] s.eng.oss) s.eng.oss { s with eng := g1 } p g) :
    cycleStep s = .next (.ok (q, p),
      transacted s g (tempEvents s b ++ pressEvents s s.eng.oss e) left (some (.pressure s.eng.oss))) := by
  rw [cycleStep_both_read h hq, pcompStep_of_pressDone _ _ _ hp, runBind_completed]

end

/-! ## The answer of a cycle (R204, R231, R254) -/

section
variable {s : State} {g : Engine} {evs : List BusEvent} {left : List BusAnswer} {conv : Option Conversion}
  {post : Quantity → Quantity → Engine → Engine}

/-- A cycle that raises leaves of its registers only SEQ, whatever it would have published. -/
theorem concludeRun_cycle_raised {x : Exc} (h : cycleStep s = .next (.error x, transacted s g evs left conv)) :
    concludeRun abortSeq s (runBind (cycleStep s) (respondPair post)) =
      .next (after s (seqCleared s.eng) evs left conv (excStatus x) (excInfo x) none) := by
  rw [h]
  rfl

theorem concludeRun_cycle_done {q p : Quantity} (h : cycleStep s = .next (.ok (q, p), transacted s g evs left conv)) :
    concludeRun abortSeq s (runBind (cycleStep s) (respondPair post)) =
      .next (after s (post q p g) evs left conv .ok (some (quantityValue q)) (some (quantityValue p))) := by
  rw [h]
  rfl

end

/-! ## GET_DATA (R204, R205) -/

theorem getData_of_ready {s : State} (hi : s.eng.initState = .ready) :
    exec .getData s = concludeRun abortSeq s (runBind (cycleStep s) (respondPair publish)) := by
  rw [exec, execGetData, gateCalibrated_ready hi, gated]

/-- Settles O31: in either variant the two datapath steps complete the cycle, and the pair is published over them. -/
theorem getDataPublishesThePair : Obligations.GetDataPublishesThePair := by
  intro s a b d e left hi h
  dsimp only
  rw [getData_of_ready hi]
  refine ⟨fun c b5 t p hv hc ht hp => ?_, fun k t p hv hk ht hp => ?_⟩
  · rw [← s32Of_toInt_of_tcompInt ht] at hp
    exact concludeRun_cycle_done (cycleStep_done h ⟨.inl ⟨hv, c, b5, t, hc, ht, rfl, rfl⟩⟩
      ⟨rfl, .inl ⟨hv, s32Of b5, c, p, rfl, hc, hp, rfl⟩⟩)
  · exact concludeRun_cycle_done (cycleStep_done h ⟨.inr ⟨hv, k, t, hk, ht, rfl, rfl⟩⟩
      ⟨rfl, .inr ⟨hv, t, k, p, rfl, hk, hp, rfl⟩⟩)

/-- Settles O32: the cycle ends at the transaction that fails, the last two of them after a temperature step. -/
theorem getDataBusFailures : Obligations.GetDataBusFailures := by
  intro s a b d left hi
  dsimp only
  rw [getData_of_ready hi]
  refine ⟨fun h => ?_, fun h => ?_, fun ht h => ?_, fun ht h => ?_⟩
  · exact concludeRun_cycle_raised (cycleStep_trigger_failed h)
  · exact concludeRun_cycle_raised (cycleStep_read_failed h)
  · obtain ⟨q, g, hq⟩ := exists_tempDone_of_tempSucceeds ht
    exact concludeRun_cycle_raised (cycleStep_second_trigger_failed h hq)
  · obtain ⟨q, g, hq⟩ := exists_tempDone_of_tempSucceeds ht
    exact concludeRun_cycle_raised (cycleStep_second_read_failed h hq)

/-- The exceptions a datapath can raise (R256, R257, R261). -/
def IsDatapathExc (x : Exc) : Prop := IsIntExc x ∨ ∃ st, x = .numericDomain st

theorem isDatapathExc_of_tempRaises {s : State} {raw : BitVec 16} {x : Exc} (h : tempRaises s raw x) :
    IsDatapathExc x := by
  obtain ⟨_, _, _, hx⟩ | ⟨_, _, _, hx⟩ := h
  · exact .inl (tcompInt_error hx)
  · exact .inr (tcompFp_error hx)

theorem isDatapathExc_of_pressRaises {s : State} {rawT : BitVec 16} {rawP : BitVec 19} {x : Exc}
    (h : pressRaises s rawT rawP x) : IsDatapathExc x := by
  obtain ⟨_, _, _, _, _, _, hx⟩ | ⟨_, _, _, _, _, hx⟩ := h
  · exact .inl (pcompInt_error hx)
  · exact .inr (pcompFp_error hx)

/-- R251, R270: a datapath exception is answered with its status and the number of its stage. -/
theorem datapathAnswer_of_isDatapathExc {x : Exc} (h : IsDatapathExc x) :
    ∃ v, datapathAnswer x = some (excStatus x, v) ∧ excInfo x = some v := by
  obtain (⟨st, rfl⟩ | ⟨st, rfl⟩) | ⟨st, rfl⟩ := h <;>
    exact ⟨.stageCode (stageNumber st), rfl, by rw [excInfo, stageCode_eq_stageNumber]⟩

/-- Settles O33: the cycle ends at the step that raises, and what raises there is a datapath. -/
theorem getDataDatapathExceptions : Obligations.GetDataDatapathExceptions := by
  intro s a b d e left x hi
  dsimp only
  rw [getData_of_ready hi]
  refine ⟨fun hx h => ?_, fun hx h => ?_⟩
  · obtain ⟨v, hv, hinfo⟩ := datapathAnswer_of_isDatapathExc (isDatapathExc_of_tempRaises hx)
    refine ⟨_, v, hv, ?_⟩
    rw [← hinfo]
    exact concludeRun_cycle_raised (cycleStep_temp_raised h hx)
  · obtain ⟨v, hv, hinfo⟩ := datapathAnswer_of_isDatapathExc (isDatapathExc_of_pressRaises hx)
    obtain ⟨g, hg⟩ := cycleStep_press_raised h hx
    refine ⟨_, v, hv, ?_⟩
    rw [← hinfo]
    exact concludeRun_cycle_raised hg

end Sys2Proof.Proofs
end

section
/-! PROOFS. The pressures of the INT variant (44_derived.md R231 (c)): what has passed the checks of R134 to R137 is at least 1, and
so is every pressure published or captured. -/

open Sys2Proof Sys2Proof.Machine Sys2Proof.Claims

namespace Sys2Proof.Proofs

/-! ## What a result has passed (R8, R9) -/

theorem bind_eq_ok_iff {α β : Type} {x : Except Exc α} {f : α → Except Exc β} {b : β} :
    (x >>= f) = .ok b ↔ ∃ a, x = .ok a ∧ f a = .ok b := by
  cases x with
  | ok a => simp [ok_bind]
  | error e => simp [error_bind]

theorem partB4_nonneg {c : Cal} {b6 q b4 : Int} (h : partB4 c b6 q = .ok b4) : 0 ≤ b4 := by
  simp only [partB4, bind_eq_ok_iff] at h
  obtain ⟨_, _, _, _, _, _, _, _, u, _, v, hv, hb4⟩ := h
  obtain ⟨rfl, hpos, _⟩ := chkU32_ok hv
  cases hb4
  exact Int.ediv_nonneg hpos (by decide)

theorem partQuot_nonneg {b7 b4 p : Int} (h4 : 0 ≤ b4) (h : partQuot b7 b4 = .ok p) : 0 ≤ p := by
  unfold partQuot at h
  split at h
  · obtain ⟨t, ht, hp⟩ := bind_eq_ok_iff.mp h
    obtain ⟨rfl, hpos, _⟩ := chkU32_ok ht
    rw [udivChk] at hp
    split at hp
    · cases hp
    · cases hp
      exact Int.ediv_nonneg hpos h4
  · obtain ⟨t, _, hp⟩ := bind_eq_ok_iff.mp h
    obtain ⟨rfl, hpos, _⟩ := chkU32_ok hp
    exact hpos

theorem partDiv_nonneg {raw : BitVec 19} {oss : BitVec 2} {b3 b4 p : Int} (h4 : 0 ≤ b4)
    (h : partDiv raw oss b3 b4 = .ok p) : 0 ≤ p := by
  simp only [partDiv, bind_eq_ok_iff] at h
  obtain ⟨_, _, _, _, hp⟩ := h
  split at hp
  · cases hp
  · obtain ⟨q, hq, hp⟩ := bind_eq_ok_iff.mp hp
    obtain ⟨rfl, _⟩ := chkS32_ok hp
    exact partQuot_nonneg h4 hq

/-- R231 (c), R137: X1 is not negative, so the result is at least p − ⌈0.0071·p⌉ + 236. -/
theorem partFinal_pos {p0 p : Int} (h0 : 0 ≤ p0) (h : partFinal p0 = .ok p) : 1 ≤ p ∧ inS32 p := by
  simp only [partFinal, bind_eq_ok_iff, shiftR] at h
  obtain ⟨x1c, h1, x1d, h2, x2c, h3, t1, h4, t2, h5, h6⟩ := h
  have hsq : 0 ≤ x1c := by
    rw [(chkS32_ok h1).1]
    exact mul_self_nonneg _
  obtain ⟨rfl, _⟩ := chkS32_ok h2
  obtain ⟨rfl, _⟩ := chkS32_ok h3
  obtain ⟨rfl, _⟩ := chkS32_ok h4
  obtain ⟨rfl, _⟩ := chkS32_ok h5
  obtain ⟨rfl, hin⟩ := chkS32_ok h6
  exact ⟨by omega, hin⟩

theorem pcompInt_pos {c : Cal} {b5 : Int} {raw : BitVec 19} {oss : BitVec 2} {p : Int}
    (h : pcompInt c b5 raw oss = .ok p) : 1 ≤ p ∧ inS32 p := by
  simp only [pcompInt, bind_eq_ok_iff] at h
  obtain ⟨_, _, _, _, b3, _, b4, h4, p0, hd, hp⟩ := h
  exact partFinal_pos (partDiv_nonneg (partB4_nonneg h4) hd) hp

/-- Settles O25: the quotient of R136 is not negative, and the correction of R137 keeps it above 0. -/
theorem intPressureIsAtLeastOne : Obligations.IntPressureIsAtLeastOne := by
  intro c b5 rawP oss p h
  obtain ⟨hpos, hin⟩ := pcompInt_pos h
  exact ⟨hpos, s32Of_toInt hin⟩

/-! ## Published and captured pressures (R231) -/

theorem pressDone_isPositiveInt {raw : BitVec 19} {oss : BitVec 2} {s : State} {q : Quantity} {g : Engine}
    (h : PressDone raw oss s q g) : q.isPositiveInt := by
  obtain ⟨_, b5, c, p, _, _, hp, rfl⟩ | ⟨_, _, _, _, _, _, _, rfl⟩ := h.done
  · obtain ⟨hpos, hreg⟩ := intPressureIsAtLeastOne c b5.toInt raw oss p hp
    exact hpos.trans_eq hreg.symm
  · trivial

theorem cycleDone_isPositiveInt {s : State} {q p : Quantity} {g : Engine} (h : CycleDone s q p g) : p.isPositiveInt := by
  obtain ⟨_, _, _, _, _, _, _, _, _, _, hp⟩ := h
  exact pressDone_isPositiveInt hp

theorem pressureInv_keptByCommands : KeptByCommands PressureInv where
  registersOnly _ he hs := by rwa [PressureInv, he]
  abort i s e _ hs := by
    cases i with
    | init => cases e <;> exact hs
    | compT | compP | getData | captureRef | reset | getId | hasValidId | measureT | measureP | setOss | getAlt | trigT
    | trigP | softReset => exact hs
  done i s g v0 v1 _ hd hs := by
    have hw := writesOnly_of_opDone hd
    cases i with
    | init => obtain ⟨_, _, _, _, _, _, rfl⟩ := hw; exact hs
    | compT => obtain ⟨_, _, _, rfl⟩ := hw; exact hs
    | getData =>
      obtain ⟨q, p, g1, _, _, hc, rfl⟩ := hd
      obtain ⟨b5, tc, rfl⟩ := cycleDone_writes hc
      exact ⟨(heldAll_some _ p).mpr (cycleDone_isPositiveInt hc), hs.2⟩
    | captureRef =>
      obtain ⟨q, p, g1, _, _, hc, rfl⟩ := hd
      have hp := (heldAll_some _ p).mpr (cycleDone_isPositiveInt hc)
      exact ⟨hp, hp⟩
    | compP => obtain ⟨_, rfl⟩ := hw; exact hs
    | reset => obtain ⟨_, _, _, _, rfl⟩ := hw; exact hs
    | setOss => obtain ⟨_, rfl⟩ := hw; exact hs
    | getId | hasValidId | measureT | measureP | getAlt | trigT | trigP | softReset => cases hw; exact hs

/-- Settles O51: only a completed cycle writes the two registers, with a pressure its datapath returned. -/
theorem stepKeepsPressuresPositive : Obligations.StepKeepsPressuresPositive := fun _ _ hs h =>
  pressureInv_keptByCommands.step h hs

end Sys2Proof.Proofs
end

section
/-! PROOFS. CAPTURE_REF and GET_ALT as operations (44_derived.md R230, R231): the first from what GET_DATA answers, the second
from what `altitude` gives. -/

open Sys2Proof Sys2Proof.Machine Sys2Proof.Claims

namespace Sys2Proof.Proofs

/-! ## CAPTURE_REF (R231) -/

/-- The reference set from the published pressure, if the last response is OK. -/
def withReference (t : State) : State :=
  if lastStatus t = some .ok then { t with eng := { t.eng with refP := t.eng.pPub, refValid := true } } else t

theorem lastStatus_respond (v0 v1 : Option Value) (u : State) : lastStatus (respond v0 v1 u) = some .ok := by
  simp [lastStatus]

theorem lastStatus_raiseExc (e : Exc) (u : State) : lastStatus (raiseExc e u) = some (excStatus e) := by
  simp [lastStatus]

/-- A raise sets no reference. -/
theorem withReference_raiseExc (e : Exc) (u : State) : withReference (raiseExc e u) = raiseExc e u := by
  rw [withReference, lastStatus_raiseExc, if_neg]
  exact fun h => excStatus_ne_ok e (Option.some.inj h)

/-- A completed cycle with its pair published, and then the reference set, is R231's one step. -/
theorem withReference_publish (q p : Quantity) (v0 v1 : Option Value) (u : State) :
    withReference (respond v0 v1 { u with eng := publish q p u.eng }) =
      respond v0 v1 { u with eng := publishRef q p u.eng } := by
  rw [withReference, lastStatus_respond, if_pos rfl]
  rfl

/-- Settles O34: both run the same gate and the same cycle, and their publications differ by the reference. -/
theorem captureRefIsGetDataPlusReference : Obligations.CaptureRefIsGetDataPlusReference := by
  intro s
  change (∀ t, exec .getData s = .next t → exec .captureRef s = .next (withReference t)) ∧ _
  rw [exec, exec, execGetData, execCaptureRef]
  cases gateCalibrated s.eng with
  | some e =>
    simp only [gated]
    exact ⟨fun t h => by cases h; rw [withReference_raiseExc], fun _ h => nomatch h⟩
  | none =>
    rcases cycleStep s with ⟨e | ⟨q, p⟩, u⟩ | r | r <;>
      simp only [gated, runBind, respondPair, concludeRun, conclude]
    · exact ⟨fun t h => by cases h; rw [withReference_raiseExc], fun _ h => nomatch h⟩
    · exact ⟨fun t h => by cases h; rw [withReference_publish], fun _ h => nomatch h⟩
    · exact ⟨fun _ h => (nomatch h), fun _ h => h⟩
    · exact ⟨fun _ h => (nomatch h), fun _ h => nomatch h⟩

theorem captureRef_of_getData_ok {s : State} {g : Engine} {evs : List BusEvent} {left : List BusAnswer}
    {conv : Option Conversion} {v0 v1 : Option Value}
    (h : exec .getData s = .next (after s g evs left conv .ok v0 v1)) :
    exec .captureRef s = .next (after s { g with refP := g.pPub, refValid := true } evs left conv .ok v0 v1) := by
  have hok : lastStatus (after s g evs left conv .ok v0 v1) = some .ok := by simp [lastStatus, after]
  rw [(captureRefIsGetDataPlusReference s).1 _ h, if_pos hok]
  rfl

/-- Settles O35: GET_DATA publishes the pair, and CAPTURE_REF adds the reference. -/
theorem captureRefKeepsThePressure : Obligations.CaptureRefKeepsThePressure := by
  intro s a b d e left hi h
  obtain ⟨hint, hfp⟩ := getDataPublishesThePair s a b d e left hi h
  exact ⟨fun c b5 t p hv hc ht hp => captureRef_of_getData_ok (hint c b5 t p hv hc ht hp),
    fun k t p hv hk ht hp => captureRef_of_getData_ok (hfp k t p hv hk ht hp)⟩

/-! ## GET_ALT (R230) -/

theorem getAlt_of_reference {s : State} {p r : Quantity} (hv : s.eng.refValid = true) (hp : s.eng.pPub = some p)
    (hr : s.eng.refP = some r) :
    exec .getAlt s =
      .next (conclude abortNothing s (altResponse (altitude (quantityF64 p) (quantityF64 r)) s)) := by
  simp [exec, execGetAlt, gateReference, gated, hv, hp, hr]

theorem getAlt_ok {s : State} {p r : Quantity} {a : F64} (hv : s.eng.refValid = true) (hp : s.eng.pPub = some p)
    (hr : s.eng.refP = some r) (ha : altitude (quantityF64 p) (quantityF64 r) = .ok a) :
    exec .getAlt s = .next (afterQuiet s s.eng .ok (some (.f64 a)) none) := by
  rw [getAlt_of_reference hv hp hr, ha]
  exact congrArg _ (pushResponse_eq_afterQuiet _ _ _ s s.eng)

/-- Settles O36: past the gate, GET_ALT ends as `altitude` does, with the registers as they were. -/
theorem getAltAnswersFromPublishedAndReference : Obligations.GetAltAnswersFromPublishedAndReference := by
  refine fun s p r => ⟨fun hv => gated_refused (if_pos hv) s _, fun hv hp hr =>
    ⟨fun a ha => getAlt_ok hv hp hr ha, fun st ha => ?_⟩⟩
  rw [getAlt_of_reference hv hp hr, ha, ← stageCode_eq_stageNumber]
  exact congrArg _ (pushResponse_eq_afterQuiet _ _ _ s s.eng)

end Sys2Proof.Proofs
end

section
/-! PROOFS. The altitude (44_derived.md R232, R233): rounding keeps the order, so the ratio lies on the pressure's side of 1, an
infinite ratio included, and POW64 and the two operations after it keep it there. -/

open Sys2Proof Sys2Proof.Machine Sys2Proof.Claims

namespace Sys2Proof.Proofs

/-! ## Rounding keeps the order -/

/-- A fraction of units at or above a magnitude rounds to no smaller one, infinity's included. -/
theorem le_roundMag {num den m : Nat} (hd : 0 < den) (hm : m ≤ magInf) (h : magUnits m * den ≤ num) :
    m ≤ roundMag num den := by
  obtain ⟨l, hb⟩ := exists_bracket num hd
  have hlt : m < l + 1 := by
    rw [← magUnits_strictMono.lt_iff_lt]
    exact Nat.lt_of_mul_lt_mul_right (h.trans_lt hb.upper)
  rw [roundMag_of_bracket hd hb]
  rcases nearerEven_eq_or num den l with hc | hc <;> omega

/-- A fraction of units at or below a magnitude rounds to no greater one. -/
theorem roundMag_le {num den m : Nat} (hd : 0 < den) (h : num ≤ magUnits m * den) : roundMag num den ≤ m := by
  obtain ⟨l, hb⟩ := exists_bracket num hd
  have hle : l ≤ m := by
    rw [← magUnits_strictMono.le_iff_le]
    exact Nat.le_of_mul_le_mul_right (hb.lower.trans h) hd
  rw [roundMag_of_bracket hd hb]
  rcases hle.lt_or_eq with hlt | rfl
  · rcases nearerEven_eq_or num den l with hc | hc <;> omega
  · have hmid : magUnits l * den < magUnits (l + 1) * den :=
      Nat.mul_lt_mul_of_pos_right (magUnits_strictMono l.lt_succ_self) hd
    have hlow : nearerEven num den l = l := if_pos (by rw [Nat.add_mul]; omega)
    omega

theorem f64Rat_posZero : f64Rat f64PosZero = 0 := by
  rw [f64Rat_eq_zero_iff]
  decide

/-- Zero is a finite value, so no rounded result is farther away. -/
theorem abs_sub_le_of_roundsTo {x : ℚ} {w : F64} (h : roundsTo x w) (hw : f64IsFinite w = true) :
    |f64Rat w - x| ≤ |x| := by
  have hnear := h.2 hw f64PosZero (by decide)
  rwa [nearer, f64Rat_posZero, zero_sub, abs_neg] at hnear

theorem nonneg_of_roundsTo {x : ℚ} {w : F64} (h : roundsTo x w) (hw : f64IsFinite w = true) (hx : 0 ≤ x) :
    0 ≤ f64Rat w := by
  have hdist := abs_sub_le_of_roundsTo h hw
  rw [abs_of_nonneg hx, abs_le] at hdist
  linarith

theorem nonpos_of_roundsTo {x : ℚ} {w : F64} (h : roundsTo x w) (hw : f64IsFinite w = true) (hx : x ≤ 0) :
    f64Rat w ≤ 0 := by
  have hdist := abs_sub_le_of_roundsTo h hw
  rw [abs_of_nonpos hx, abs_le] at hdist
  linarith

/-! ## Signs and comparisons -/

theorem f64Sign_of_pos {w : F64} (h : 0 < f64Rat w) : f64Sign w = false := by
  rw [f64Rat_pos_iff, f64Int] at h
  split at h
  · omega
  · next hs => exact Bool.eq_false_of_not_eq_true hs

theorem f64Units_pos {w : F64} (h : 0 < f64Rat w) : 0 < f64Units w :=
  Nat.pos_of_ne_zero (mt (f64Rat_eq_zero_iff_units w).mpr h.ne')

theorem f64Rat_nonneg_of_sign {w : F64} (h : f64Sign w = false) : 0 ≤ f64Rat w := by
  rw [f64Rat_eq_signed, h, signed_false]
  exact div_nonneg (Nat.cast_nonneg _) oneUnits_rat_pos.le

theorem fle_of_not_flt {a b : F64} (ha : f64IsNaN a = false) (hb : f64IsNaN b = false) (h : flt b a = false) :
    fle a b = true := by
  simpa [flt, fle, ha, hb] using h

theorem fle_iff_key {a b : F64} (ha : f64IsNaN a = false) (hb : f64IsNaN b = false) :
    fle a b = true ↔ f64Key a ≤ f64Key b := by
  simp [fle, ha, hb]

theorem flt_posZero_iff {w : F64} (hw : f64IsFinite w = true) : flt f64PosZero w = true ↔ 0 < f64Rat w := by
  rw [flt_iff _ _ (by decide) (f64IsNaN_of_finite hw), f64Rat_posZero]

theorem f64Int_of_sign {w : F64} (h : f64Sign w = false) : f64Int w = f64Units w := by
  rw [f64Int, h, if_neg Bool.false_ne_true]

/-! ## A finite result has finite operands -/

theorem f64IsFinite_inf (sign : Bool) : f64IsFinite (f64Inf sign) = false := by cases sign <;> decide

theorem finite_of_fmul {a b : F64} (h : f64IsFinite (fmul a b) = true) : f64IsFinite b = true := by
  contrapose h
  rw [Bool.not_eq_true] at h ⊢
  simp only [fmul, h, Bool.and_false, Bool.false_eq_true, if_false]
  split
  · decide
  · split
    · decide
    · exact f64IsFinite_inf _

theorem finite_of_fadd {a b : F64} (h : f64IsFinite (fadd a b) = true) : f64IsFinite b = true := by
  contrapose h
  rw [Bool.not_eq_true] at h ⊢
  simp only [fadd, h, Bool.false_eq_true, if_false]
  split
  · decide
  · split
    · exact h
    · next ha =>
      split
      · exact Bool.eq_false_of_not_eq_true ha
      · decide

theorem finite_of_fsub {a b : F64} (h : f64IsFinite (fsub a b) = true) : f64IsFinite b = true := by
  rw [fsub] at h
  split at h
  · exact absurd h (by decide)
  · rw [← f64IsFinite_fneg]
    exact finite_of_fadd h

/-! ## The ratio of R232 -/

theorem magUnits_one : magUnits (f64Mag f64One) = oneUnits := by decide +kernel

section
variable {p r : F64} (hp : f64IsFinite p = true) (hr : f64IsFinite r = true) (hpos : 0 < f64Rat r)
include hp hr hpos

theorem fdiv_eq_make : fdiv p r = f64Make (f64Sign p) (roundMag (f64Units p * oneUnits) (f64Units r)) := by
  have hu := (f64Units_pos hpos).ne'
  simp [fdiv, f64IsNaN_of_finite hp, f64IsNaN_of_finite hr, hp, hr, hu, f64Sign_of_pos hpos, roundUnits]

theorem fdiv_not_nan : f64IsNaN (fdiv p r) = false := by
  have hle := roundMag_le_magInf (f64Units p * oneUnits) (f64Units r)
  rw [fdiv_eq_make hp hr hpos, f64IsNaN, f64Mag_make _ _ (hle.trans_lt magInf_lt), decide_eq_false_iff_not]
  exact not_lt.mpr hle

theorem f64Key_fdiv : f64Key (fdiv p r) =
    if f64Sign p then -(roundMag (f64Units p * oneUnits) (f64Units r) : Int)
    else (roundMag (f64Units p * oneUnits) (f64Units r) : Int) := by
  have hlt := (roundMag_le_magInf (f64Units p * oneUnits) (f64Units r)).trans_lt magInf_lt
  rw [fdiv_eq_make hp hr hpos, f64Key, f64Sign_make _ hlt, f64Mag_make _ _ hlt]

/-- A zero pressure gives a zero ratio, of its own sign. -/
theorem fdiv_of_zero (h0 : f64Rat p = 0) : fdiv p r = f64Zero (f64Sign p) := by
  have hmag : roundMag (f64Units p * oneUnits) (f64Units r) ≤ 0 := roundMag_le (f64Units_pos hpos) (by
    rw [(f64Rat_eq_zero_iff_units p).mp h0, Nat.zero_mul]
    exact Nat.zero_le _)
  rw [fdiv_eq_make hp hr hpos, Nat.le_zero.mp hmag, f64Zero]

/-- A pressure at or above the reference gives a ratio at or above 1, be it infinite. -/
theorem one_le_fdiv (h : f64Rat r ≤ f64Rat p) : fle f64One (fdiv p r) = true := by
  have hsign := f64Sign_of_pos (hpos.trans_le h)
  have hunits : f64Units r ≤ f64Units p := by
    rwa [f64Rat_le_iff, f64Int_of_sign (f64Sign_of_pos hpos), f64Int_of_sign hsign, Int.ofNat_le] at h
  rw [fle_iff_key (by decide) (fdiv_not_nan hp hr hpos), f64Key_fdiv hp hr hpos, hsign, if_neg Bool.false_ne_true]
  refine Int.ofNat_le.mpr (le_roundMag (f64Units_pos hpos) (by decide) ?_)
  rw [magUnits_one, Nat.mul_comm]
  exact Nat.mul_le_mul_right _ hunits

/-- A pressure at or below the reference gives a ratio at or below 1. -/
theorem fdiv_le_one (h : f64Rat p ≤ f64Rat r) : fle (fdiv p r) f64One = true := by
  rw [fle_iff_key (fdiv_not_nan hp hr hpos) (by decide), f64Key_fdiv hp hr hpos]
  have hone : f64Key f64One = f64Mag f64One := if_neg (by decide)
  rw [hone]
  cases hs : f64Sign p with
  | true =>
    rw [if_pos rfl]
    omega
  | false =>
    have hunits : f64Units p ≤ f64Units r := by
      rwa [f64Rat_le_iff, f64Int_of_sign (f64Sign_of_pos hpos), f64Int_of_sign hs, Int.ofNat_le] at h
    rw [if_neg Bool.false_ne_true]
    refine Int.ofNat_le.mpr (roundMag_le (f64Units_pos hpos) ?_)
    rw [magUnits_one, Nat.mul_comm oneUnits]
    exact Nat.mul_le_mul_right _ hunits

end

/-- A positive value over itself is exactly 1. -/
theorem fdiv_self_of_pos {r : F64} (hr : f64IsFinite r = true) (hpos : 0 < f64Rat r) : fdiv r r = f64One := by
  have hu := f64Units_pos hpos
  have hmag : roundMag (f64Units r * oneUnits) (f64Units r) = f64Mag f64One := by
    have heq : magUnits (f64Mag f64One) * f64Units r = f64Units r * oneUnits := by rw [magUnits_one, Nat.mul_comm]
    exact le_antisymm (roundMag_le hu heq.ge) (le_roundMag hu (by decide) heq.le)
  rw [fdiv_eq_make hr hr hpos, hmag, f64Sign_of_pos hpos]
  decide

/-! ## ALT (R232) -/

/-- Settles O37: the ratio is exactly 1, where the first property of POW64 decides the altitude. -/
theorem getAltAtTheReferenceIsZero : Obligations.GetAltAtTheReferenceIsZero := fun _ _ hv hp hr hf hpos =>
  getAlt_ok hv hp hr (altitude_of_ratio_one _ _ ((flt_posZero_iff hf).mpr hpos) (fdiv_self_of_pos hf hpos))

theorem altitude_of_reference_not_pos {p r : F64} (h : flt f64PosZero r = false) :
    altitude p r = .error (.numericDomain .altRef) := by
  rw [altitude, h, if_neg Bool.false_ne_true]

theorem altitude_of_ratio_neg {p r : F64} (hr : flt f64PosZero r = true) (h : flt (fdiv p r) f64PosZero = true) :
    altitude p r = .error (.numericDomain .altRatio) := by
  simp only [altitude, hr, h, if_true]

theorem altitude_of_ratio_nonneg {p r : F64} (hr : flt f64PosZero r = true) (h : flt (fdiv p r) f64PosZero = false) :
    altitude p r = fin (fmul Config.altScale (fsub f64One (Config.pow64 (fdiv p r) Config.altExp))) .altRes := by
  simp only [altitude, hr, h, if_true, Bool.false_eq_true, if_false]

/-- R233 property 1. -/
theorem pow64_one : Config.pow64 f64One Config.altExp = f64One := Config.powerFn.one

/-- R233 property 2, for either zero. -/
theorem pow64_zero (sign : Bool) : Config.pow64 (f64Zero sign) Config.altExp = f64PosZero := by
  obtain ⟨hpos, hneg⟩ := Config.powerFn.zero
  cases sign
  · exact hpos
  · exact hneg

/-- Settles O38: the checks in their order; a zero pressure has a zero ratio, whose power is 0. -/
theorem altitudeDomainAndFormula : Obligations.AltitudeDomainAndFormula := by
  intro p r hp hr ratio alt
  have href : 0 < f64Rat r → flt f64PosZero r = true := (flt_posZero_iff hr).mpr
  refine ⟨fun hle => ?_, fun hpos hneg => ?_, fun hpos h0 => ?_, fun hpos hge => ?_⟩
  · exact altitude_of_reference_not_pos
      (Bool.eq_false_of_not_eq_true fun h => not_lt.mpr hle ((flt_posZero_iff hr).mp h))
  · exact altitude_of_ratio_neg (href hpos) hneg
  · have hratio := fdiv_of_zero hp hr hpos h0
    have hge : flt (f64Zero (f64Sign p)) f64PosZero = false := by cases f64Sign p <;> decide
    rw [altitude_of_ratio_nonneg (href hpos) (hratio ▸ hge), hratio, pow64_zero]
    decide +kernel
  · rw [altitude_of_ratio_nonneg (href hpos) hge]
    rfl

/-- An altitude is answered only for a ratio not below 0, and it is finite. -/
theorem altitude_eq_ok {p r a : F64} (h : altitude p r = .ok a) :
    flt (fdiv p r) f64PosZero = false ∧ f64IsFinite a = true ∧
      a = fmul Config.altScale (fsub f64One (Config.pow64 (fdiv p r) Config.altExp)) := by
  have hfin := altitude_finite h
  cases href : flt f64PosZero r with
  | false => cases h.symm.trans (altitude_of_reference_not_pos href)
  | true =>
    cases hratio : flt (fdiv p r) f64PosZero with
    | true => cases h.symm.trans (altitude_of_ratio_neg href hratio)
    | false => exact ⟨rfl, hfin, (fin_ok ((altitude_of_ratio_nonneg href hratio).symm.trans h)).1⟩

/-- The sign of `44330 × (1 − e)`, each operation rounded, where the result is finite. -/
theorem altitude_sign {e : F64} (hfin : f64IsFinite (fmul Config.altScale (fsub f64One e)) = true) :
    (fle f64One e = true → f64Rat (fmul Config.altScale (fsub f64One e)) ≤ 0) ∧
    (fle e f64One = true → 0 ≤ f64Rat (fmul Config.altScale (fsub f64One e))) := by
  have hone : f64IsFinite f64One = true := by decide
  have hscale : 0 ≤ f64Rat Config.altScale := f64Rat_nonneg_of_sign (by decide)
  have hd := finite_of_fmul hfin
  have he := finite_of_fsub hd
  have hsub := fsub_roundsTo hone he
  have hmul := fmul_roundsTo (a := Config.altScale) (by decide) hd
  rw [fle_iff _ _ hone he, fle_iff _ _ he hone]
  refine ⟨fun h => ?_, fun h => ?_⟩
  · have hd0 := nonpos_of_roundsTo hsub hd (sub_nonpos.mpr h)
    exact nonpos_of_roundsTo hmul hfin (mul_nonpos_of_nonneg_of_nonpos hscale hd0)
  · have hd0 := nonneg_of_roundsTo hsub hd (sub_nonneg.mpr h)
    exact nonneg_of_roundsTo hmul hfin (mul_nonneg hscale hd0)

/-- Settles O39: the ratio is on the pressure's side of 1, and POW64 keeps 1 and the order, at an infinite ratio too. -/
theorem altitudeSignFollowsThePressure : Obligations.AltitudeSignFollowsThePressure := by
  intro p r a hp hr hpos h
  obtain ⟨hratio, hfin, rfl⟩ := altitude_eq_ok h
  obtain ⟨hnonpos, hnonneg⟩ := altitude_sign hfin
  refine ⟨fun hle => hnonpos ?_, fun hle => hnonneg ?_⟩
  · rw [← pow64_one]
    exact pow64_monotone (by decide) (one_le_fdiv hp hr hpos hle)
  · rw [← pow64_one]
    exact pow64_monotone (fle_of_not_flt (by decide) (fdiv_not_nan hp hr hpos) hratio) (fdiv_le_one hp hr hpos hle)

end Sys2Proof.Proofs
end

section
/-! PROOFS. The exceptions (60_exceptions.md): the gates, which come first (R263); what a raise leaves in the engine registers (R254);
the illegal word and the idle step (R260, R267); and that every host command is answered (R250). -/

open Sys2Proof Sys2Proof.Machine Sys2Proof.Claims

namespace Sys2Proof.Proofs

/-! ## The gates (R263) -/

/-- R253, R263: an instruction whose gate refuses answers the gate's exception, and the rest of the state is kept. -/
theorem exec_of_gateOf_some {i : Instr} {s : State} {e : Exc} (h : gateOf i s.eng = some e) :
    exec i s = .next (afterQuiet s s.eng (excStatus e) (excInfo e) none) := by
  cases i with
  | measureT | measureP | compT | compP | getData | captureRef | getAlt => exact gated_refused h s _
  | init | getId | hasValidId | reset | setOss | trigT | trigP | softReset => cases h

section
variable {g : Engine}

theorem gateCalibrated_failed (h : g.initState = .identityFailed) : gateCalibrated g = some (.identityMismatch none) :=
  if_pos h

theorem gatePressure_failed (h : g.initState = .identityFailed) : gatePressure g = some (.identityMismatch none) :=
  if_pos h

theorem gateCalibrated_uninit (h : g.initState = .uninit) : gateCalibrated g = some .notInitialized := by
  simp [gateCalibrated, h]

theorem gatePressure_uninit (h : g.initState = .uninit) : gatePressure g = some .notInitialized := by
  simp [gatePressure, h]

end

/-- Settles O57: each state of the session decides the gates of the operations listed for it. -/
theorem gatesComeFirstInOrder : Obligations.GatesComeFirstInOrder := by
  intro s oss rawT rawP
  refine ⟨fun hi i hm => ?_, fun hi i hm => ?_, fun hi hq => ?_⟩
  · refine exec_of_gateOf_some (e := .identityMismatch none) ?_
    simp only [List.mem_cons, List.not_mem_nil, or_false] at hm
    obtain rfl | rfl | rfl | rfl | rfl | rfl := hm
    · exact gateIdentity_failed hi
    · exact gateIdentity_failed hi
    · exact gateCalibrated_failed hi
    · exact gatePressure_failed hi
    · exact gateCalibrated_failed hi
    · exact gateCalibrated_failed hi
  · refine exec_of_gateOf_some (e := .notInitialized) ?_
    simp only [List.mem_cons, List.not_mem_nil, or_false] at hm
    obtain rfl | rfl | rfl | rfl := hm
    · exact gateCalibrated_uninit hi
    · exact gatePressure_uninit hi
    · exact gateCalibrated_uninit hi
    · exact gateCalibrated_uninit hi
  · exact compP_refused (gatePressure_not_cached hi hq) oss rawP

/-! ## What a raise leaves (R254) -/

/-- R254: after a refusal by a gate no abort write is made. -/
theorem abortedEngine_of_gateOf_some {i : Instr} {g : Engine} {e : Exc} (h : gateOf i g = some e) :
    abortedEngine i (excStatus e) g = g := by
  cases i with
  | compT | getData | captureRef => obtain rfl | rfl := gateCalibrated_some h <;> rfl
  | compP => obtain rfl | rfl | rfl := gatePressure_some h <;> rfl
  | init | reset => cases h
  | getId | hasValidId | measureT | measureP | setOss | getAlt | trigT | trigP | softReset => rfl

/-- R254: past the gate, the status of the raise tells which abort writes were made: in the compensations and cycles it is
never one of a refusal, and in INIT it is IdentityMismatch exactly for a foreign identity. -/
theorem abortedEngine_of_raisedBy {i : Instr} {s : State} {e : Exc} (h : RaisedBy i s e) (g : Engine) :
    abortedEngine i (excStatus e) g = abortOf i e g := by
  cases i with
  | init => obtain ⟨d, r, rfl⟩ | ⟨id, rfl, _⟩ := h <;> rfl
  | compT | compP | getData | captureRef => exact if_neg (of_decide_eq_false (refusal_of_raisedBy h nofun))
  | reset | getId | hasValidId | measureT | measureP | setOss | getAlt | trigT | trigP | softReset => rfl

/-- Settles O53: a refusal writes nothing, a raise past the gate leaves its abort writes, and a completion answers OK. -/
theorem raiseLeavesOnlyAbortWrites : Obligations.RaiseLeavesOnlyAbortWrites := by
  intro i s t r hi h hr hne
  rw [hostCommand_eq_isCommand] at hi
  obtain ⟨e, hg, hst, heng⟩ | ⟨e, he, hst, heng⟩ | ⟨_, _, _, hst⟩ := ended_response (exec_next hi h) hr
  · rw [hst, heng, abortedEngine_of_gateOf_some hg]
  · rw [hst, heng, abortedEngine_of_raisedBy he]
  · exact absurd hst hne

/-! ## The illegal word and the idle step (R260, R267) -/

theorem fetchWord_error {w : Word} {e : DecodeError} (hd : decode w = .error e) (rest : List Word) (s : State) :
    fetchWord w rest s = .illegal w { s with port := { s.port with cmds := rest } } := by
  simp only [fetchWord, hd]

theorem step_of_fetch_illegal {s u : State} {w : Word} (h : fetch s = .illegal w u) :
    step s = .next (illegalWord w u) := by
  simp only [step, h]

theorem illegalWord_eq_afterQuiet (w : Word) (s : State) :
    illegalWord w s = afterQuiet s s.eng .illegalCommand (some (.word w)) none :=
  pushResponse_eq_afterQuiet _ _ _ s s.eng

/-- With no byte on the bus and no word on the host port the engine idles. -/
theorem step_idle {s : State} (hp : s.bus.pending = none) (hq : s.port.cmds = []) : step s = .next s := by
  simp only [step, fetch, hp, hq]

/-- Settles O7: a word that does not decode is taken off the port and answered, and no instruction is run. -/
theorem illegalWordAnswersWithTheWord : Obligations.IllegalWordAnswersWithTheWord := by
  refine ⟨fun s w rest hp hq hd => ?_, fun s hp hq => step_idle hp hq⟩
  rw [step_of_fetch_illegal ((fetch_command hp hq).trans (fetchWord_error hd rest s)), illegalWord_eq_afterQuiet]

/-! ## Every host command is answered (R250, R288) -/

/-- R40, R288: with the invariant no instruction stops. -/
theorem exists_exec_eq_next {s : State} (hs : EngineInv s) (i : Instr) : ∃ t, exec i s = .next t := by
  cases h : exec i s with
  | next t => exact ⟨t, rfl⟩
  | fault r => exact absurd h (exec_not_fault hs r)
  | refused r => exact absurd h (exec_not_refused i s r)

/-- Settles O58: the command answers a next state, and every next state of a command has one response more. -/
theorem everyCommandIsAnswered : Obligations.EveryCommandIsAnswered := by
  intro i s hi hs
  obtain ⟨t, ht⟩ := exists_exec_eq_next hs i
  obtain ⟨_, _, _, r, hr, _⟩ := oneResponsePerCommand i s t hi ht
  exact ⟨t, r, ht, hr⟩

end Sys2Proof.Proofs
end

section
/-! PROOFS. The reset state (10_state.md R39; 70_reset_and_hazards.md R280), and that a run serves every waiting command word
(R288, R268): one step serves one word and leaves the engine ready for the next, and the run is an induction over the words. -/

open Sys2Proof Sys2Proof.Machine Sys2Proof.Claims

namespace Sys2Proof.Proofs

/-! ## One step serves one word (R70, R260, R288) -/

/-- `t` is `s` after one word was served: `rest` still waits, no byte stands on the bus, and there is one response more. -/
structure ServedOne (rest : List Word) (s t : State) : Prop where
  cmds : t.port.cmds = rest
  pending : t.bus.pending = none
  responses : t.port.responses.length = s.port.responses.length + 1

/-- R260: an illegal word is answered without an instruction. -/
theorem step_servesIllegal {s : State} {w : Word} {rest : List Word} {e : DecodeError} (hp : s.bus.pending = none)
    (hq : s.port.cmds = w :: rest) (hd : decode w = .error e) : ∃ t, step s = .next t ∧ ServedOne rest s t :=
  ⟨illegalWord w _, step_of_fetch_illegal ((fetch_command hp hq).trans (fetchWord_error hd rest s)), rfl, hp,
    by simp [illegalWord]⟩

/-- R250: a word that decodes is answered by its operation. -/
theorem step_servesCommand {s : State} {w : Word} {rest : List Word} {i : Instr} (hs : EngineInv s)
    (hp : s.bus.pending = none) (hq : s.port.cmds = w :: rest) (hd : decode w = .ok i) :
    ∃ t, step s = .next t ∧ ServedOne rest s t := by
  have hstep : step s = exec i { s with port := { s.port with cmds := rest } } :=
    step_of_fetch_run ((fetch_command hp hq).trans (fetchWord_ok hd rest s))
  have hi : hostCommand i = true := (hostCommand_eq_isCommand i).trans (decode_isCommand w i hd)
  have hinv : EngineInv { s with port := { s.port with cmds := rest } } :=
    engineInv_keptByCommands.registersOnly (s := s) rfl rfl hs
  obtain ⟨t, r, ht, hr⟩ := everyCommandIsAnswered i _ hi hinv
  obtain ⟨hcmds, _, hpending, _⟩ := oneResponsePerCommand i _ t hi ht
  exact ⟨t, hstep.trans ht, hcmds, hpending.trans hp, by simp [hr]⟩

theorem step_servesWord {s : State} {w : Word} {rest : List Word} (hs : EngineInv s) (hp : s.bus.pending = none)
    (hq : s.port.cmds = w :: rest) : ∃ t, step s = .next t ∧ ServedOne rest s t := by
  cases hd : decode w with
  | ok i => exact step_servesCommand hs hp hq hd
  | error e => exact step_servesIllegal hp hq hd

/-! ## A run serves every word (R268, R288) -/

theorem run_succ_of_step {M : Host.Core} {s t : M.State} (h : M.step s = .next t) (k : Nat) :
    M.run (k + 1) s = M.run k t := by
  simp only [Host.Core.run, h]

theorem run_servesWords (ws : List Word) :
    ∀ s : State, EngineInv s → s.bus.pending = none → s.port.cmds = ws →
      ∃ t : State, core.run ws.length s = .next t ∧ t.port.cmds = [] ∧
        t.port.responses.length = s.port.responses.length + ws.length ∧ EngineInv t := by
  induction ws with
  | nil => exact fun s hs _ hq => ⟨s, rfl, hq, rfl, hs⟩
  | cons w rest ih =>
    intro s hs hp hq
    obtain ⟨u, hu, hserved⟩ := step_servesWord hs hp hq
    have hinv : EngineInv u := engineInv_keptByCommands.step hu hs
    obtain ⟨t, hrun, hcmds, hresponses, ht⟩ := ih u hinv hserved.pending hserved.cmds
    refine ⟨t, (run_succ_of_step hu rest.length).trans hrun, hcmds, ?_, ht⟩
    rw [hresponses, hserved.responses, List.length_cons]
    omega

/-- Settles O59: one word is served per step, by induction on the waiting words. -/
theorem everyRunServesItsCommands : Obligations.EveryRunServesItsCommands := fun s hs hp =>
  run_servesWords s.port.cmds s hs hp rfl

/-! ## The reset state (R39, R280) -/

/-- Settles O44: the reset state is written out field by field, the parameters as given. -/
theorem resetStateOfTheEngine : Obligations.ResetStateOfTheEngine := fun _ =>
  ⟨rfl, rfl, rfl, rfl, rfl, rfl, rfl, rfl, rfl, rfl, rfl, rfl, rfl, rfl, rfl, rfl⟩

end Sys2Proof.Proofs
end
